-- ==== Sys2Proof/Word.lean ====
section
/-! DEFINITION. The word types of KDCE: bytes, bus words and bus addresses (spec 00_scope.md R10, R11). -/

namespace Sys2Proof

/-- A byte is 8 bits (R11). -/
abbrev Byte := BitVec 8

/-- A word is 32 bits: the width of the bus, of a command and of the length registers (R10, R11). -/
abbrev Word := BitVec 32

/-- A bus address is an 18-bit byte address (R10, R70, R72). -/
abbrev BusAddr := BitVec 18

end Sys2Proof
end

