-- ==== Sys2Proof/Syntax.lean ====
section
/-! DEFINITION. The commands of KDCE (what the spec calls commands are its instructions, R2), one constructor per row of
spec/opcode_table.json, and the fields of the one command format C (30_encoding.md R100). -/

namespace Sys2Proof

/-- The five commands (R2, R101). A reserved command word is no command: it is what decoding refuses (R104, R242). -/
inductive Instr where
  /-- `DERIVE`, `OP = 1` (R137): the digest of the hexadecimal text in IBUF becomes the key. -/
  | derive
  /-- `GENKEY`, `OP = 2` (R174): 32 bytes of entropy as hexadecimal text. -/
  | genkey
  /-- `ENCRYPT`, `OP = 3` (R215). -/
  | encrypt
  /-- `DECRYPT`, `OP = 4` (R226). -/
  | decrypt
  /-- `CLEAR`, `OP = 5` (R241), with its two select bits, the only operand bits of any command word (R105):
  `ci` zeroises IBUF and `IN_LEN`, `ck` zeroises KEY and `KEY_LEN`. -/
  | clear (ci ck : Bool)
  deriving DecidableEq, Repr

/-- The fields of a command word in format C (R100). Every word has exactly one such reading. -/
structure CommandFields where
  /-- Bits [3:0]: the operation code. -/
  op : BitVec 4
  /-- Bits [7:4]: must be 0. -/
  z0 : BitVec 4
  /-- Bit 8: CLEAR only. -/
  ci : Bool
  /-- Bit 9: CLEAR only. -/
  ck : Bool
  /-- Bits [31:10]: must be 0. -/
  z1 : BitVec 22
  deriving DecidableEq, Repr

/-- The fields that stand for a command (R100, R101). -/
def Instr.fields : Instr → CommandFields
  | .derive => { op := 1, z0 := 0, ci := false, ck := false, z1 := 0 }
  | .genkey => { op := 2, z0 := 0, ci := false, ck := false, z1 := 0 }
  | .encrypt => { op := 3, z0 := 0, ci := false, ck := false, z1 := 0 }
  | .decrypt => { op := 4, z0 := 0, ci := false, ck := false, z1 := 0 }
  | .clear ci ck => { op := 5, z0 := 0, ci := ci, ck := ck, z1 := 0 }

end Sys2Proof
end

