-- ==== Sys2Proof/WellFormed.lean ====
section
/-! DEFINITION. When the fields of a command word make a legal command (30_encoding.md R100, R103, R104). -/

namespace Sys2Proof

/-- `OP` names one of the five commands; 0 and 6 to 15 are reserved (R101, R104). -/
def CommandFields.opLegal (f : CommandFields) : Bool := 1 ≤ f.op.toNat && f.op.toNat ≤ 5

/-- `Z0` is 0 (R100, R104). -/
def CommandFields.z0Legal (f : CommandFields) : Bool := f.z0 == 0

/-- `Z1` is 0 (R100, R104). -/
def CommandFields.z1Legal (f : CommandFields) : Bool := f.z1 == 0

/-- `CI` and `CK` are 0 for every `OP` but CLEAR's (R100, R104). -/
def CommandFields.selectsLegal (f : CommandFields) : Bool := f.op == 5 || (!f.ci && !f.ck)

/-- The fields of a legal command word (R103, R104). -/
def CommandFields.wellFormed (f : CommandFields) : Bool :=
  f.opLegal && f.z0Legal && f.z1Legal && f.selectsLegal

/-- A command is well-formed when its fields are. The type of commands admits no other (`wellFormed_of_instr`). -/
def Instr.wellFormed (i : Instr) : Bool := i.fields.wellFormed

end Sys2Proof
end

