-- ==== Sys2Proof/Decode.lean ====
section
/-! DEFINITION. Decoding and encoding of command words (30_encoding.md R100 to R109). -/

namespace Sys2Proof

/-- Why a word is reserved (R104), in the order the fields stand in the rule. -/
inductive DecodeError where
  /-- `OP` is 0 or 6 to 15. -/
  | reservedOp
  /-- `Z0 ≠ 0`. -/
  | nonzeroZ0
  /-- `Z1 ≠ 0`. -/
  | nonzeroZ1
  /-- `CI = 1` or `CK = 1` with `OP` in {1, 2, 3, 4}. -/
  | selectOutsideClear
  deriving DecidableEq, Repr

/-- The fields of a command word (R100). -/
def fieldsOf (w : Word) : CommandFields :=
  { op := w.extractLsb' 0 4
    z0 := w.extractLsb' 4 4
    ci := w.getLsbD 8
    ck := w.getLsbD 9
    z1 := w.extractLsb' 10 22 }

/-- The name under which a word that no row of R103 matches is refused (R104). -/
def reservedReason (w : Word) : DecodeError :=
  let f := fieldsOf w
  if !f.opLegal then .reservedOp
  else if !f.z0Legal then .nonzeroZ0
  else if !f.z1Legal then .nonzeroZ1
  else .selectOutsideClear

/-- `(w AND mask) = match`, the test of one row of the command map (R103). -/
def rowMatches (w mask mtch : Word) : Bool := w &&& mask == mtch

/-- The decoder: the rows of R103 tried in order, every other word refused by name (R103, R104, R109). -/
def decode (w : Word) : Except DecodeError Instr :=
  if rowMatches w 0xFFFFFFFF 0x00000001 then .ok .derive
  else if rowMatches w 0xFFFFFFFF 0x00000002 then .ok .genkey
  else if rowMatches w 0xFFFFFFFF 0x00000003 then .ok .encrypt
  else if rowMatches w 0xFFFFFFFF 0x00000004 then .ok .decrypt
  else if rowMatches w 0xFFFFFCFF 0x00000005 then .ok (.clear (w.getLsbD 8) (w.getLsbD 9))
  else .error (reservedReason w)

/-- The word of five fields, most significant first (R100). -/
def wordOf (f : CommandFields) : Word :=
  f.z1 ++ BitVec.ofBool f.ck ++ BitVec.ofBool f.ci ++ f.z0 ++ f.op

/-- The encoder: the one word of a command (R100, R103). -/
def encode (i : Instr) : Word := wordOf i.fields

/-- The command word that a table row's `nbits` bits stand for: a command is one 32-bit word (R100, R106), the bits
above `nbits` are 0, and what does not fit 32 bits is no command word. -/
def tableWord (nbits w : Nat) : Option Word :=
  let v := w % 2 ^ nbits
  if v < 2 ^ 32 then some (BitVec.ofNat 32 v) else none

/-- The command the decoder reads from a table word. -/
def decodeTableWord (nbits w : Nat) : Option Instr :=
  match tableWord nbits w with
  | none => none
  | some v =>
    match decode v with
    | .ok i => some i
    | .error _ => none

end Sys2Proof
end

