-- ==== Sys2Proof/Config.lean ====
section
/-! DEFINITION. What one instance of KDCE fixes for good (the parameter `BUF_BYTES`, R9, R42), and the values the
spec leaves free: constants without a body, of which nothing can be proved (notes/assumptions/2, 3, 6). -/

namespace Sys2Proof

/-- The parameters of one instance. `BUF_BYTES` is the only open parameter of the spec (R9, D8). -/
structure Config where
  /-- `BUF_BYTES`: the capacity in bytes of IBUF and of OBUF (R9). -/
  bufBytes : Nat
  deriving DecidableEq, Repr

/-- The constraints of R9: `BUF_BYTES` is a multiple of 16 from 64 to 65536. -/
abbrev Config.Legal (c : Config) : Prop :=
  c.bufBytes % 16 = 0 ∧ 64 ≤ c.bufBytes ∧ c.bufBytes ≤ 65536

/-- The default of R9, used by the spec's vectors: `BUF_BYTES = 4096`. -/
def Config.standard : Config := { bufBytes := 4096 }

/-- FREE VALUE (R282, U20): the data a read returns that falls into the same step as reset.
Applied to the model's counter `State.freeCtr`. -/
opaque Config.resetReadData : Nat → Word

/-- FREE VALUE (R282, U20): the `err` bit of the response to a transaction that falls into the same step as reset.
Applied to the model's counter `State.freeCtr`. -/
opaque Config.resetRespErr : Nat → Bool

/-- FREE VALUE (R172, U10): byte `k` of draw `n`, placed by `State.withFetchWord` where it stands for a GENKEY whose
entropy has arrived. `n` is the model's counter `State.freeCtr`, so that nothing says whether two draws agree (R178).
Nothing else reads it: a run takes its entropy from its own inputs. -/
opaque Config.entropyByte : Nat → Nat → Byte

end Sys2Proof
end

