-- ==== Sys2Proof/Machine/State.lean ====
section
/-! DEFINITION. The state of one KDCE instance (10_state.md R20 to R46), the inputs that reach it, and its value after
reset (70_reset_and_hazards.md R280, R281). -/

namespace Sys2Proof.Machine

/-- A byte array of the engine (KEY, IBUF or OBUF, R70): index and byte of the entries that differ from `Memory.blank`,
by strictly rising index (`Memory.Wf`). -/
abbrev Memory := List Host.Cell

/-- What an unlisted index reads as: 0, the reset contents of all three arrays (R34, R35, R43). -/
def Memory.blank : Byte := 0

/-- The error an operation ends with: the eight values of R250 and R251. -/
inductive Err where
  /-- Code 0: the operation succeeded. -/
  | none
  /-- Code 1, DERIVE: the text is empty or all whitespace (R133). -/
  | emptyKey
  /-- Code 2, DERIVE: the text is not valid hexadecimal (R134). -/
  | invalidKeyFormat
  /-- Code 3, ENCRYPT and DECRYPT: `KEY_LEN` is none of 16, 24, 32 (R212, R222). -/
  | keyLengthMismatch
  /-- Code 4, DECRYPT: the length is no non-zero multiple of 16 (R223). -/
  | malformedCiphertext
  /-- Code 5, DECRYPT: the padding found is not valid (R225). -/
  | invalidPadding
  /-- Code 6, DERIVE, ENCRYPT and DECRYPT: `IN_LEN` exceeds what the buffers hold (R252). -/
  | capacityExceeded
  /-- Code 7: a reserved command word (R253). -/
  | badCommand
  deriving DecidableEq, Repr

/-- The result record of a command (R14); the commit turns it into state (R38). -/
structure Result where
  /-- The error, `Err.none` on success. -/
  err : Err
  /-- `OUT`: the bytes to appear in OBUF. -/
  out : List Byte
  /-- `KEYW`: the 32 bytes for the key bank with the value for `KEY_LEN`, or nothing. -/
  keyw : Option (List Byte × Word)
  /-- `IBUFW = zero`: zeroise IBUF and `IN_LEN`. -/
  zeroIbuf : Bool
  deriving DecidableEq, Repr

/-- One bus transaction of the host (R72). -/
inductive BusOp where
  /-- `BusRead(addr)`. -/
  | read (addr : BusAddr)
  /-- `BusWrite(addr, v)`. -/
  | write (addr : BusAddr) (v : Word)
  deriving DecidableEq, Repr

/-- What the host gets back from one transaction (R72). -/
inductive Response where
  /-- The data and the `err` bit of a read. -/
  | read (data : Word) (err : Bool)
  /-- The `err` bit of a write. -/
  | write (err : Bool)
  deriving DecidableEq, Repr

/-- One event from the agents around the engine, or the engine's own turn (R17). A run's interleaving is the list of
these events in `State.inputs` (R84, notes/assumptions/1). -/
inductive Input where
  /-- The host performs one transaction. -/
  | bus (op : BusOp)
  /-- The entropy source offers one byte: `rnd_valid = 1`, `rnd_data = b` (R171). -/
  | entropy (b : Byte)
  /-- The engine takes its completion step if one is enabled (R17, R38). -/
  | engine
  /-- Reset, with the transaction that falls into the same step if there is one (R280, R282). -/
  | reset (during : Option BusOp)
  deriving DecidableEq, Repr

/-- The engine's working storage (R40). The completion step evaluates a whole operation at one instant (R17, R38, R42),
so of these only `drawn` takes a value other than zero in the model (notes/assumptions/5). -/
structure Scratch where
  /-- Eight 32-bit chaining words of the hash. -/
  hashChain : Vector Word 8
  /-- The 64-entry message schedule. -/
  hashSchedule : Vector Word 64
  /-- The eight working variables `a` to `h`. -/
  hashVars : Vector Word 8
  /-- The 64-byte message block. -/
  hashBlock : Vector Byte 64
  /-- The 64-bit bit count. -/
  hashBitCount : BitVec 64
  /-- The byte index into IBUF. -/
  hashIndex : Nat
  /-- The round-key words of the cipher, at most 60. -/
  roundKeys : Vector Word 60
  /-- The 16-byte state of the cipher. -/
  cipherState : Vector Byte 16
  /-- The block index of the cipher. -/
  blockIndex : Nat
  /-- The bytes a GENKEY in flight has taken from the entropy port, in arrival order (R171); their number is the count
  of those received. -/
  drawn : List Byte
  deriving DecidableEq, Repr

/-- Scratch while no operation is in flight: all zero (R40). -/
def Scratch.zero : Scratch :=
  { hashChain := Vector.replicate 8 0
    hashSchedule := Vector.replicate 64 0
    hashVars := Vector.replicate 8 0
    hashBlock := Vector.replicate 64 0
    hashBitCount := 0
    hashIndex := 0
    roundKeys := Vector.replicate 60 0
    cipherState := Vector.replicate 16 0
    blockIndex := 0
    drawn := [] }

/-- The state of one instance: the record of R20, the parameter of R9, and four fields of the model's own (`inputs`,
`resp`, `freeCtr` and the parameter's place `cfg`, notes/assumptions/1, 2, 3, 4). -/
structure State where
  /-- The parameter `BUF_BYTES` (R9, R42), fixed per instance: no step changes it. -/
  cfg : Config
  /-- `BUSY`, STATUS bit 0 (R25). -/
  busy : Bool
  /-- `DONE`, STATUS bit 1 (R26). -/
  done : Bool
  /-- `BUSYW`, STATUS bit 3 (R28). -/
  busyw : Bool
  /-- `ERR_CODE`, 4 bits (R29). -/
  errCode : BitVec 4
  /-- `IE_DONE`, IEN bit 0 (R30). -/
  ieDone : Bool
  /-- `IE_ERR`, IEN bit 1 (R30). -/
  ieErr : Bool
  /-- `IN_LEN` (R31). -/
  inLen : Word
  /-- `OUT_LEN` (R32). -/
  outLen : Word
  /-- `KEY_LEN` (R33). -/
  keyLen : Word
  /-- `KEY[0..32)`, the key bank (R34). -/
  key : Memory
  /-- `IBUF[0..BUF_BYTES)` (R35). -/
  ibuf : Memory
  /-- `OBUF[0..BUF_BYTES)` (R35). -/
  obuf : Memory
  /-- `CMD_LATCH` (R36). -/
  cmdLatch : Word
  /-- Scratch (R40). -/
  scratch : Scratch
  /-- MODEL: the events still to come, oldest first; a step takes the first, and an empty list is the engine's turn. -/
  inputs : List Input
  /-- MODEL: the response to the last bus transaction, as the host sees it (R72). -/
  resp : Option Response
  /-- MODEL: how many free values have been used; the next one is the free constant at this index. -/
  freeCtr : Nat
  deriving DecidableEq, Repr

/-- The state every element of R20 at its reset value (R43, R280), of an instance with the parameter `c`. -/
def State.resetOf (c : Config) : State :=
  { cfg := c
    busy := false
    done := false
    busyw := false
    errCode := 0
    ieDone := false
    ieErr := false
    inLen := 0
    outLen := 0
    keyLen := 0
    key := []
    ibuf := []
    obuf := []
    cmdLatch := 0
    scratch := .zero
    inputs := []
    resp := none
    freeCtr := 0 }

/-- The machine right after reset (R43, R280, R281), with the default `BUF_BYTES` of R9 and nothing waiting at its
inputs. -/
def State.reset : State := .resetOf .standard

/-- No step of KDCE stops: every error is a typed result (R19, R250), every bus error a response (R262). -/
inductive Fault where
  deriving DecidableEq, Repr

/-- Why the model has no meaning for a command. -/
inductive Refusal where
  /-- Raised by an arm of `exec` whose command had no meaning yet. Safe: nothing follows from it. No arm raises it. -/
  | notModelled (mnemonic : String)
  deriving DecidableEq, Repr

end Sys2Proof.Machine
end

