-- ==== Sys2Proof/Machine/Flags.lean ====
section
/-! DEFINITION. The error codes, the words that STATUS, ERR and IEN read as, what a write to STATUS or IEN does, and the
outputs that are functions of the state: `irq` and `rnd_req` (10_state.md R24 to R30, R41; 42_random_key.md R171;
60_exceptions.md R250, R260). -/

namespace Sys2Proof.Machine

/-- The number of an error in `ERR_CODE` (R250). -/
def errNumber : Err → BitVec 4
  | .none => 0
  | .emptyKey => 1
  | .invalidKeyFormat => 2
  | .keyLengthMismatch => 3
  | .malformedCiphertext => 4
  | .invalidPadding => 5
  | .capacityExceeded => 6
  | .badCommand => 7

/-- `ERRF`: 1 exactly when `ERR_CODE ≠ 0` (R27). -/
def errf (s : State) : Bool := s.errCode != 0

/-- A flag as the number 0 or 1 at bit `i` of a word. -/
def flagBit (b : Bool) (i : Nat) : Word := BitVec.ofNat 32 (b.toNat * 2 ^ i)

/-- What STATUS reads as: `BUSY + 2 DONE + 4 ERRF + 8 BUSYW` (R24, R77). -/
def statusWord (s : State) : Word :=
  flagBit s.busy 0 + flagBit s.done 1 + flagBit (errf s) 2 + flagBit s.busyw 3

/-- What ERR reads as: `ERR_CODE` in bits [3:0], the rest 0 (R29). -/
def errWord (s : State) : Word := s.errCode.zeroExtend 32

/-- What IEN reads as: `IE_DONE + 2 IE_ERR` (R30, R77). -/
def ienWord (s : State) : Word := flagBit s.ieDone 0 + flagBit s.ieErr 1

/-- A write to STATUS: bit 1 clears `DONE`, bit 3 clears `BUSYW`, every other bit is ignored (R24, R78). -/
def writeStatus (v : Word) (s : State) : State :=
  { s with done := s.done && !v.getLsbD 1, busyw := s.busyw && !v.getLsbD 3 }

/-- A write to IEN: bits 0 and 1, the others ignored (R30, R78, R79). -/
def writeIen (v : Word) (s : State) : State :=
  { s with ieDone := v.getLsbD 0, ieErr := v.getLsbD 1 }

/-- A write that `BUSY = 1` makes the machine drop sets `BUSYW` (R28, R81). -/
def dropWrite (s : State) : State := { s with busyw := true }

/-- `irq = DONE AND (IE_DONE OR (IE_ERR AND ERRF))` (R41, R260). -/
def irq (s : State) : Bool := s.done && (s.ieDone || (s.ieErr && errf s))

/-- The word of the GENKEY command (R103, R170). -/
def genkeyWord : Word := 0x00000002

/-- `RANDOM_BYTES`: how many bytes a GENKEY takes (R8, R171). -/
def randomBytes : Nat := 32

/-- `rnd_req`: 1 while a GENKEY operation still needs bytes (R171). -/
def rndReq (s : State) : Bool :=
  s.busy && s.cmdLatch == genkeyWord && decide (s.scratch.drawn.length < randomBytes)

end Sys2Proof.Machine
end

