-- ==== Sys2Proof/Machine/Operands.lean ====
section
/-! DEFINITION. The shared operations on operands: slices and repetitions of byte strings, the two byte orders, rotations
and shifts (00_scope.md R11, R12; 20_memory.md R73), and the characters of key-material text (40_key_deriver.md R131,
R135; 42_random_key.md R173). -/

namespace Sys2Proof.Machine

/-- `b[i .. i+n)` (R11). -/
def slice (b : List Byte) (i n : Nat) : List Byte := (b.drop i).take n

/-- `rep(v, k)`: the byte `v` repeated `k` times (R11). -/
def rep (v : Byte) (k : Nat) : List Byte := List.replicate k v

/-- Byte `i` of a word, byte 0 the least significant: `v[8i+7 : 8i]` (R11, R73). -/
def wordByte (v : Word) (i : Nat) : Byte := v.extractLsb' (8 * i) 8

/-- The word whose most significant byte is `b3` and whose least significant byte is `b0`. -/
def wordOfBytes (b3 b2 b1 b0 : Byte) : Word := b3 ++ b2 ++ b1 ++ b0

/-- `LE32(b[0..4))`: little-endian, the order of the bus (R12, R73). -/
def le32 (b : List Byte) : Word := wordOfBytes (b.getD 3 0) (b.getD 2 0) (b.getD 1 0) (b.getD 0 0)

/-- `LE32inv(w)` (R12). -/
def le32Bytes (w : Word) : List Byte := [wordByte w 0, wordByte w 1, wordByte w 2, wordByte w 3]

/-- `BE32(b[0..4))`: big-endian, the order inside the hash (R12, R155). -/
def be32 (b : List Byte) : Word := wordOfBytes (b.getD 0 0) (b.getD 1 0) (b.getD 2 0) (b.getD 3 0)

/-- `BE32inv(w)` (R12). -/
def be32Bytes (w : Word) : List Byte := [wordByte w 3, wordByte w 2, wordByte w 1, wordByte w 0]

/-- `BE64inv(v)`: the 8 bytes of a 64-bit value, most significant first (R12). -/
def be64Bytes (v : BitVec 64) : List Byte :=
  [7, 6, 5, 4, 3, 2, 1, 0].map fun i => v.extractLsb' (8 * i) 8

/-- `ROTR(n, x)`: 32-bit rotate right (R12). -/
def rotr (n : Nat) (x : Word) : Word := (x >>> n) ||| (x <<< (32 - n))

/-- `SHR(n, x)`: logical shift right (R12). -/
def shr (n : Nat) (x : Word) : Word := x >>> n

/-- `isWS(c)`: the six ASCII whitespace bytes (R131). -/
def isWS (c : Byte) : Bool :=
  c == 0x20 || c == 0x09 || c == 0x0A || c == 0x0B || c == 0x0C || c == 0x0D

/-- `isHex(c)`: `0`..`9`, `A`..`F`, `a`..`f` (R131). -/
def isHex (c : Byte) : Bool :=
  (0x30 ≤ c.toNat && c.toNat ≤ 0x39) || (0x41 ≤ c.toNat && c.toNat ≤ 0x46)
    || (0x61 ≤ c.toNat && c.toNat ≤ 0x66)

/-- `hexval(c)` of a hexadecimal digit (R131). -/
def hexval (c : Byte) : Nat :=
  if c.toNat ≤ 0x39 then c.toNat - 0x30
  else if c.toNat ≤ 0x46 then c.toNat - 0x41 + 10
  else c.toNat - 0x61 + 10

/-- The byte of two digits, the first the high nibble: `16 hexval(t[2j]) + hexval(t[2j+1])` (R135). -/
def hexPair (hi lo : Byte) : Byte := BitVec.ofNat 8 (16 * hexval hi + hexval lo)

/-- The decoded bytes of a text of digits (R135). -/
def hexDecode : List Byte → List Byte
  | hi :: lo :: t => hexPair hi lo :: hexDecode t
  | _ => []

/-- `hexchar(v)`: the lower-case digit of `v ≤ 15` (R173). -/
def hexchar (v : Nat) : Byte := if v ≤ 9 then BitVec.ofNat 8 (0x30 + v) else BitVec.ofNat 8 (0x61 + (v - 10))

/-- `hextext(r)`: two digits a byte, high nibble first, byte 0 first (R173). -/
def hextext : List Byte → List Byte
  | [] => []
  | b :: t => hexchar (b.toNat / 16) :: hexchar (b.toNat % 16) :: hextext t

end Sys2Proof.Machine
end

