-- ==== Sys2Proof/Machine/Ops.lean ====
section
/-! DEFINITION. The shared operations on memory and state: reading and writing the byte arrays (20_memory.md R70, R83), the
start step, the error result and the commit, which are this machine's entry to and end of an operation (10_state.md R37,
R38; 60_exceptions.md R256, R258), the entropy port and reset. -/

namespace Sys2Proof.Machine

/-- The canonical form: indices strictly rising, no entry equal to what an unlisted index reads as. -/
abbrev Memory.Wf (m : Memory) : Prop :=
  m.Pairwise (fun x y => x.1 < y.1) ∧ ∀ c ∈ m, c.2 ≠ Memory.blank

/-- Every entry lies inside an array of `n` bytes. -/
abbrev Memory.Within (n : Nat) (m : Memory) : Prop := ∀ c ∈ m, c.1 < n

/-- The array with every byte zero. -/
def Memory.zeros : Memory := []

/-- The byte at index `a` (R13). -/
def Memory.read : Memory → Nat → Byte
  | [], _ => Memory.blank
  | (k, v) :: t, a => if k = a then v else Memory.read t a

/-- An entry before a tail, left out when it holds what an unlisted index reads as. -/
def Memory.cons (a : Nat) (v : Byte) (t : Memory) : Memory := if v = Memory.blank then t else (a, v) :: t

/-- The array with byte `v` at index `a` (R13). -/
def Memory.write : Memory → Nat → Byte → Memory
  | [], a, v => Memory.cons a v []
  | (k, b) :: t, a, v =>
    if a < k then Memory.cons a v ((k, b) :: t)
    else if a = k then Memory.cons a v t
    else (k, b) :: Memory.write t a v

/-- `MemRead(space, i, n)`: the `n` bytes from index `i` (R13). -/
def Memory.readBytes (m : Memory) (i : Nat) : Nat → List Byte
  | 0 => []
  | n + 1 => m.read i :: Memory.readBytes m (i + 1) n

/-- `MemWrite(space, i, n, v)`: the bytes of `v` from index `i` on (R13). -/
def Memory.writeBytes (m : Memory) (i : Nat) : List Byte → Memory
  | [] => m
  | b :: t => Memory.writeBytes (m.write i b) (i + 1) t

/-- The array that holds `b` from index `i` on and zero elsewhere. -/
def Memory.ofBytesFrom (i : Nat) : List Byte → Memory
  | [] => []
  | b :: t => Memory.cons i b (Memory.ofBytesFrom (i + 1) t)

/-- The array that holds `b` from index 0 on and zero elsewhere. -/
def Memory.ofBytes (b : List Byte) : Memory := Memory.ofBytesFrom 0 b

/-- The start step: the host writes the command word `w` to CMD while `BUSY = 0` (R37). -/
def startStep (w : Word) (s : State) : State :=
  { s with cmdLatch := w, busy := true, done := false, errCode := 0, outLen := 0 }

/-- `fail(code)`: the error result, with no output (R256). -/
def failResult (e : Err) : Result := { err := e, out := [], keyw := none, zeroIbuf := false }

/-- The key bank a commit leaves: `KEY[0..32) <- k` where the result carries a key (R38). -/
def committedKey (r : Result) (s : State) : Memory :=
  match r.keyw with
  | some (k, _) => Memory.ofBytes (k.take 32)
  | none => s.key

/-- The `KEY_LEN` a commit leaves (R38). -/
def committedKeyLen (r : Result) (s : State) : Word :=
  match r.keyw with
  | some (_, l) => l
  | none => s.keyLen

/-- The completion step's commit (R38): the whole of OBUF is rewritten, the result's key and erasure take effect, scratch
is zeroised, `BUSY` falls and `DONE` rises, all at once. An operation that fails ends here too (R256): this is all the
"exception entry" the machine has, and nothing needs restoring after it (R258). -/
def commit (r : Result) (s : State) : State :=
  { s with
    errCode := errNumber r.err
    obuf := Memory.ofBytes (r.out.take s.cfg.bufBytes)
    outLen := BitVec.ofNat 32 r.out.length
    key := committedKey r s
    keyLen := committedKeyLen r s
    ibuf := if r.zeroIbuf then Memory.zeros else s.ibuf
    inLen := if r.zeroIbuf then 0 else s.inLen
    cmdLatch := 0
    scratch := .zero
    busy := false
    done := true }

/-- The entropy source offers the byte `b`: taken in arrival order while `rnd_req = 1`, without effect otherwise
(R171, U22). -/
def takeEntropy (b : Byte) (s : State) : State :=
  if rndReq s then { s with scratch := { s.scratch with drawn := s.scratch.drawn ++ [b] } } else s

/-- The reset step alone (R280, R282): every element of R20 at its reset value, whatever was in flight. The instance's
parameter and the environment's pending events are no elements of R20. -/
def resetStep (s : State) : State :=
  { State.resetOf s.cfg with inputs := s.inputs, freeCtr := s.freeCtr }

/-- The response to a transaction in the same step as reset: of it the spec fixes nothing (R282, U20), so it is free. -/
def resetResponse (op : BusOp) (n : Nat) : Response :=
  match op with
  | .read _ => .read (Config.resetReadData n) (Config.resetRespErr n)
  | .write _ _ => .write (Config.resetRespErr n)

/-- The reset step, with the transaction that falls into the same step: reset wins, a write has no effect (R282). -/
def resetInput (during : Option BusOp) (s : State) : State :=
  match during with
  | none => resetStep s
  | some op => { resetStep s with resp := some (resetResponse op s.freeCtr), freeCtr := s.freeCtr + 1 }

end Sys2Proof.Machine
end

