-- ==== Sys2Proof/Machine/Bus.lean ====
section
/-! DEFINITION. The address map and what each bus transaction does (20_memory.md R70 to R82). -/

namespace Sys2Proof.Machine

/-- A mapped location of the bus space (R71); windows by the byte index of the word's first byte. -/
inductive Loc where
  | id
  | cap
  | cmd
  | status
  | err
  | ien
  | inLen
  | outLen
  | keyLen
  | key (off : Nat)
  | ibuf (off : Nat)
  | obuf (off : Nat)
  deriving DecidableEq, Repr

/-- The register at a byte address below the key-bank window (R71). -/
def registerAt (a : Nat) : Option Loc :=
  if a = 0x00 then some .id
  else if a = 0x04 then some .cap
  else if a = 0x08 then some .cmd
  else if a = 0x0C then some .status
  else if a = 0x10 then some .err
  else if a = 0x14 then some .ien
  else if a = 0x18 then some .inLen
  else if a = 0x1C then some .outLen
  else if a = 0x20 then some .keyLen
  else none

/-- The window that a byte address from `0x40` on lies in (R71). -/
def windowAt (bufBytes a : Nat) : Option Loc :=
  if 0x40 ≤ a ∧ a < 0x60 then some (.key (a - 0x40))
  else if 0x10000 ≤ a ∧ a < 0x10000 + bufBytes then some (.ibuf (a - 0x10000))
  else if 0x20000 ≤ a ∧ a < 0x20000 + bufBytes then some (.obuf (a - 0x20000))
  else none

/-- The location at an aligned byte address, or none where the map lists nothing (R71, R75). -/
def locateAligned (bufBytes a : Nat) : Option Loc :=
  if a < 0x40 then registerAt a else windowAt bufBytes a

/-- The location of an address: none where it is misaligned (R74) or unmapped (R75). -/
def locate (bufBytes : Nat) (addr : BusAddr) : Option Loc :=
  if addr.toNat % 4 = 0 then locateAligned bufBytes addr.toNat else none

/-- The word of a window at byte index `off`: `LE32` of its four bytes (R73). -/
def windowWord (m : Memory) (off : Nat) : Word := le32 (m.readBytes off 4)

/-- A window's word while `BUSY = 0`, and 0 while an operation is in flight (R77, R82). -/
def guardedWord (s : State) (m : Memory) (off : Nat) : Word := if s.busy then 0 else windowWord m off

/-- The identity string of the ID register (R4, R21). -/
def idWord : Word := 0x4B440701

/-- What a mapped location reads as (R77, R82). -/
def readLoc (s : State) : Loc → Word
  | .id => idWord
  | .cap => BitVec.ofNat 32 s.cfg.bufBytes
  | .cmd => 0
  | .status => statusWord s
  | .err => errWord s
  | .ien => ienWord s
  | .inLen => s.inLen
  | .outLen => s.outLen
  | .keyLen => s.keyLen
  | .key off => guardedWord s s.key off
  | .ibuf off => guardedWord s s.ibuf off
  | .obuf off => guardedWord s s.obuf off

/-- A write that only an idle machine accepts: dropped, with `BUSYW` set, while `BUSY = 1` (R81). -/
def whenIdle (s : State) (t : State) : State := if s.busy then dropWrite s else t

/-- What a write to a mapped location does (R78, R79, R81). -/
def writeLoc (s : State) (v : Word) : Loc → State
  | .id => s
  | .cap => s
  | .cmd => whenIdle s (startStep v s)
  | .status => writeStatus v s
  | .err => s
  | .ien => writeIen v s
  | .inLen => whenIdle s { s with inLen := v }
  | .outLen => s
  | .keyLen => whenIdle s { s with keyLen := v }
  | .key off => whenIdle s { s with key := s.key.writeBytes off (le32Bytes v) }
  | .ibuf off => whenIdle s { s with ibuf := s.ibuf.writeBytes off (le32Bytes v) }
  | .obuf _ => s

/-- `BusRead(addr)`: the data and the `err` bit; it changes no state (R72, R74, R75, R77, R80, R82). -/
def busRead (s : State) (addr : BusAddr) : Word × Bool :=
  match locate s.cfg.bufBytes addr with
  | none => (0, true)
  | some l => (readLoc s l, false)

/-- `BusWrite(addr, v)`: the state after it and the `err` bit (R72, R74, R75, R78, R79, R81). -/
def busWrite (s : State) (addr : BusAddr) (v : Word) : State × Bool :=
  match locate s.cfg.bufBytes addr with
  | none => (s, true)
  | some l => (writeLoc s v l, false)

/-- One transaction, with the response the host sees (R72). -/
def busStep (op : BusOp) (s : State) : State :=
  match op with
  | .read addr => { s with resp := some (.read (busRead s addr).1 (busRead s addr).2) }
  | .write addr v => { (busWrite s addr v).1 with resp := some (.write (busWrite s addr v).2) }

end Sys2Proof.Machine
end

