-- ==== Sys2Proof/Machine/Clear.lean ====
section
/-! DEFINITION. The command CLEAR and what every reserved command word does (45_clear_and_reserved.md R240 to R246). -/

namespace Sys2Proof.Machine

/-- `Exec_CLEAR` (R241): `ck` zeroises KEY and `KEY_LEN`, `ci` zeroises IBUF and `IN_LEN`. -/
def clearResult (ci ck : Bool) : Result :=
  { err := .none, out := [], keyw := if ck then some (rep 0 32, 0) else none, zeroIbuf := ci }

/-- CLEAR (R240, R241, R38). -/
def execClear (ci ck : Bool) (s : State) : Host.Outcome State Fault Refusal := .next (commit (clearResult ci ck) s)

/-- `Exec_BAD`: a reserved word completes with BadCommand and reads no operand (R242). -/
def execReserved (s : State) : Host.Outcome State Fault Refusal := .next (commit (failResult .badCommand) s)

end Sys2Proof.Machine
end

