-- ==== Sys2Proof/Machine/Aes.lean ====
section
/-! DEFINITION. The block cipher AES (43_aes_core.md R180 to R199): `KeyExpansion`, `Cipher` and `InvCipher`. -/

namespace Sys2Proof.Machine

/-- `xtime(a)`: multiplication by `x` modulo `x^8 + x^4 + x^3 + x + 1` (R182). -/
def xtime (a : Byte) : Byte := if a.getLsbD 7 then (a <<< 1) ^^^ 0x1B else a <<< 1

/-- The shift-and-add loop of `gmul`, for `n` further bits from bit `k` of `b` (R182). -/
def gmulFrom : Nat → Nat → Byte → Byte → Byte → Byte
  | 0, _, _, _, p => p
  | n + 1, k, a, b, p => gmulFrom n (k + 1) (xtime a) b (if b.getLsbD k then p ^^^ a else p)

/-- `gmul(a, b)`: multiplication in GF(2^8) (R182). -/
def gmul (a b : Byte) : Byte := gmulFrom 8 0 a b 0

/-- The rows of the table `SBOX`: row = high nibble, column = low nibble (R183). -/
def sboxRows : List (List Byte) :=
  [[0x63, 0x7c, 0x77, 0x7b, 0xf2, 0x6b, 0x6f, 0xc5, 0x30, 0x01, 0x67, 0x2b, 0xfe, 0xd7, 0xab, 0x76],
   [0xca, 0x82, 0xc9, 0x7d, 0xfa, 0x59, 0x47, 0xf0, 0xad, 0xd4, 0xa2, 0xaf, 0x9c, 0xa4, 0x72, 0xc0],
   [0xb7, 0xfd, 0x93, 0x26, 0x36, 0x3f, 0xf7, 0xcc, 0x34, 0xa5, 0xe5, 0xf1, 0x71, 0xd8, 0x31, 0x15],
   [0x04, 0xc7, 0x23, 0xc3, 0x18, 0x96, 0x05, 0x9a, 0x07, 0x12, 0x80, 0xe2, 0xeb, 0x27, 0xb2, 0x75],
   [0x09, 0x83, 0x2c, 0x1a, 0x1b, 0x6e, 0x5a, 0xa0, 0x52, 0x3b, 0xd6, 0xb3, 0x29, 0xe3, 0x2f, 0x84],
   [0x53, 0xd1, 0x00, 0xed, 0x20, 0xfc, 0xb1, 0x5b, 0x6a, 0xcb, 0xbe, 0x39, 0x4a, 0x4c, 0x58, 0xcf],
   [0xd0, 0xef, 0xaa, 0xfb, 0x43, 0x4d, 0x33, 0x85, 0x45, 0xf9, 0x02, 0x7f, 0x50, 0x3c, 0x9f, 0xa8],
   [0x51, 0xa3, 0x40, 0x8f, 0x92, 0x9d, 0x38, 0xf5, 0xbc, 0xb6, 0xda, 0x21, 0x10, 0xff, 0xf3, 0xd2]] ++
  [[0xcd, 0x0c, 0x13, 0xec, 0x5f, 0x97, 0x44, 0x17, 0xc4, 0xa7, 0x7e, 0x3d, 0x64, 0x5d, 0x19, 0x73],
   [0x60, 0x81, 0x4f, 0xdc, 0x22, 0x2a, 0x90, 0x88, 0x46, 0xee, 0xb8, 0x14, 0xde, 0x5e, 0x0b, 0xdb],
   [0xe0, 0x32, 0x3a, 0x0a, 0x49, 0x06, 0x24, 0x5c, 0xc2, 0xd3, 0xac, 0x62, 0x91, 0x95, 0xe4, 0x79],
   [0xe7, 0xc8, 0x37, 0x6d, 0x8d, 0xd5, 0x4e, 0xa9, 0x6c, 0x56, 0xf4, 0xea, 0x65, 0x7a, 0xae, 0x08],
   [0xba, 0x78, 0x25, 0x2e, 0x1c, 0xa6, 0xb4, 0xc6, 0xe8, 0xdd, 0x74, 0x1f, 0x4b, 0xbd, 0x8b, 0x8a],
   [0x70, 0x3e, 0xb5, 0x66, 0x48, 0x03, 0xf6, 0x0e, 0x61, 0x35, 0x57, 0xb9, 0x86, 0xc1, 0x1d, 0x9e],
   [0xe1, 0xf8, 0x98, 0x11, 0x69, 0xd9, 0x8e, 0x94, 0x9b, 0x1e, 0x87, 0xe9, 0xce, 0x55, 0x28, 0xdf],
   [0x8c, 0xa1, 0x89, 0x0d, 0xbf, 0xe6, 0x42, 0x68, 0x41, 0x99, 0x2d, 0x0f, 0xb0, 0x54, 0xbb, 0x16]]

/-- The rows of the table `ISBOX`, the same layout (R184). -/
def isboxRows : List (List Byte) :=
  [[0x52, 0x09, 0x6a, 0xd5, 0x30, 0x36, 0xa5, 0x38, 0xbf, 0x40, 0xa3, 0x9e, 0x81, 0xf3, 0xd7, 0xfb],
   [0x7c, 0xe3, 0x39, 0x82, 0x9b, 0x2f, 0xff, 0x87, 0x34, 0x8e, 0x43, 0x44, 0xc4, 0xde, 0xe9, 0xcb],
   [0x54, 0x7b, 0x94, 0x32, 0xa6, 0xc2, 0x23, 0x3d, 0xee, 0x4c, 0x95, 0x0b, 0x42, 0xfa, 0xc3, 0x4e],
   [0x08, 0x2e, 0xa1, 0x66, 0x28, 0xd9, 0x24, 0xb2, 0x76, 0x5b, 0xa2, 0x49, 0x6d, 0x8b, 0xd1, 0x25],
   [0x72, 0xf8, 0xf6, 0x64, 0x86, 0x68, 0x98, 0x16, 0xd4, 0xa4, 0x5c, 0xcc, 0x5d, 0x65, 0xb6, 0x92],
   [0x6c, 0x70, 0x48, 0x50, 0xfd, 0xed, 0xb9, 0xda, 0x5e, 0x15, 0x46, 0x57, 0xa7, 0x8d, 0x9d, 0x84],
   [0x90, 0xd8, 0xab, 0x00, 0x8c, 0xbc, 0xd3, 0x0a, 0xf7, 0xe4, 0x58, 0x05, 0xb8, 0xb3, 0x45, 0x06],
   [0xd0, 0x2c, 0x1e, 0x8f, 0xca, 0x3f, 0x0f, 0x02, 0xc1, 0xaf, 0xbd, 0x03, 0x01, 0x13, 0x8a, 0x6b]] ++
  [[0x3a, 0x91, 0x11, 0x41, 0x4f, 0x67, 0xdc, 0xea, 0x97, 0xf2, 0xcf, 0xce, 0xf0, 0xb4, 0xe6, 0x73],
   [0x96, 0xac, 0x74, 0x22, 0xe7, 0xad, 0x35, 0x85, 0xe2, 0xf9, 0x37, 0xe8, 0x1c, 0x75, 0xdf, 0x6e],
   [0x47, 0xf1, 0x1a, 0x71, 0x1d, 0x29, 0xc5, 0x89, 0x6f, 0xb7, 0x62, 0x0e, 0xaa, 0x18, 0xbe, 0x1b],
   [0xfc, 0x56, 0x3e, 0x4b, 0xc6, 0xd2, 0x79, 0x20, 0x9a, 0xdb, 0xc0, 0xfe, 0x78, 0xcd, 0x5a, 0xf4],
   [0x1f, 0xdd, 0xa8, 0x33, 0x88, 0x07, 0xc7, 0x31, 0xb1, 0x12, 0x10, 0x59, 0x27, 0x80, 0xec, 0x5f],
   [0x60, 0x51, 0x7f, 0xa9, 0x19, 0xb5, 0x4a, 0x0d, 0x2d, 0xe5, 0x7a, 0x9f, 0x93, 0xc9, 0x9c, 0xef],
   [0xa0, 0xe0, 0x3b, 0x4d, 0xae, 0x2a, 0xf5, 0xb0, 0xc8, 0xeb, 0xbb, 0x3c, 0x83, 0x53, 0x99, 0x61],
   [0x17, 0x2b, 0x04, 0x7e, 0xba, 0x77, 0xd6, 0x26, 0xe1, 0x69, 0x14, 0x63, 0x55, 0x21, 0x0c, 0x7d]]

/-- The entry of a 16 by 16 table that a byte selects: row = high nibble, column = low nibble (R183). -/
def tableEntry (rows : List (List Byte)) (x : Byte) : Byte :=
  (rows.getD (x.toNat / 16) []).getD (x.toNat % 16) 0

/-- `SBOX[x]` (R183). -/
def sbox (x : Byte) : Byte := tableEntry sboxRows x

/-- `ISBOX[x]` (R184). -/
def isbox (x : Byte) : Byte := tableEntry isboxRows x

/-- Four bytes: a column of the state, rows 0 to 3, or a round-key word `w[i][0..4)` (R181). -/
structure AesColumn where
  r0 : Byte
  r1 : Byte
  r2 : Byte
  r3 : Byte
  deriving DecidableEq, Repr

/-- The cipher's state: columns 0 to 3, `s[r][c]` being row `r` of column `c` (R181). -/
structure AesState where
  c0 : AesColumn
  c1 : AesColumn
  c2 : AesColumn
  c3 : AesColumn
  deriving DecidableEq, Repr

/-- `XOR` of columns, byte by byte (R189, R192). -/
def AesColumn.xor (x y : AesColumn) : AesColumn :=
  { r0 := x.r0 ^^^ y.r0, r1 := x.r1 ^^^ y.r1, r2 := x.r2 ^^^ y.r2, r3 := x.r3 ^^^ y.r3 }

/-- A function of bytes on every byte of a column. -/
def AesColumn.map (f : Byte → Byte) (x : AesColumn) : AesColumn :=
  { r0 := f x.r0, r1 := f x.r1, r2 := f x.r2, r3 := f x.r3 }

/-- Four bytes from index `i` as a column, first byte in row 0 (R181). -/
def AesColumn.ofBytes (b : List Byte) (i : Nat) : AesColumn :=
  { r0 := b.getD i 0, r1 := b.getD (i + 1) 0, r2 := b.getD (i + 2) 0, r3 := b.getD (i + 3) 0 }

/-- The bytes of a column, row 0 first (R181). -/
def AesColumn.bytes (x : AesColumn) : List Byte := [x.r0, x.r1, x.r2, x.r3]

/-- The state of a block: `s[r][c] = in[r + 4c]` (R181). -/
def AesState.ofBytes (b : List Byte) : AesState :=
  { c0 := .ofBytes b 0, c1 := .ofBytes b 4, c2 := .ofBytes b 8, c3 := .ofBytes b 12 }

/-- The bytes of a state: `out[r + 4c] = s[r][c]` (R181). -/
def AesState.bytes (s : AesState) : List Byte := s.c0.bytes ++ s.c1.bytes ++ s.c2.bytes ++ s.c3.bytes

/-- A function of columns on every column of a state. -/
def AesState.map (f : AesColumn → AesColumn) (s : AesState) : AesState :=
  { c0 := f s.c0, c1 := f s.c1, c2 := f s.c2, c3 := f s.c3 }

/-- `SubBytes` (R185). -/
def subBytes (s : AesState) : AesState := s.map (AesColumn.map sbox)

/-- `InvSubBytes` (R185). -/
def invSubBytes (s : AesState) : AesState := s.map (AesColumn.map isbox)

/-- `ShiftRows`: `s'[r][c] = s[r][(c + r) mod 4]` (R186). -/
def shiftRows (s : AesState) : AesState :=
  { c0 := { r0 := s.c0.r0, r1 := s.c1.r1, r2 := s.c2.r2, r3 := s.c3.r3 }
    c1 := { r0 := s.c1.r0, r1 := s.c2.r1, r2 := s.c3.r2, r3 := s.c0.r3 }
    c2 := { r0 := s.c2.r0, r1 := s.c3.r1, r2 := s.c0.r2, r3 := s.c1.r3 }
    c3 := { r0 := s.c3.r0, r1 := s.c0.r1, r2 := s.c1.r2, r3 := s.c2.r3 } }

/-- `InvShiftRows`: `s'[r][c] = s[r][(c - r) mod 4]` (R186). -/
def invShiftRows (s : AesState) : AesState :=
  { c0 := { r0 := s.c0.r0, r1 := s.c3.r1, r2 := s.c2.r2, r3 := s.c1.r3 }
    c1 := { r0 := s.c1.r0, r1 := s.c0.r1, r2 := s.c3.r2, r3 := s.c2.r3 }
    c2 := { r0 := s.c2.r0, r1 := s.c1.r1, r2 := s.c0.r2, r3 := s.c3.r3 }
    c3 := { r0 := s.c3.r0, r1 := s.c2.r1, r2 := s.c1.r2, r3 := s.c0.r3 } }

/-- `3·a = xtime(a) XOR a` (R187). -/
def gmulThree (a : Byte) : Byte := xtime a ^^^ a

/-- `MixColumns` on one column (R187). -/
def mixColumn (x : AesColumn) : AesColumn :=
  { r0 := xtime x.r0 ^^^ gmulThree x.r1 ^^^ x.r2 ^^^ x.r3
    r1 := x.r0 ^^^ xtime x.r1 ^^^ gmulThree x.r2 ^^^ x.r3
    r2 := x.r0 ^^^ x.r1 ^^^ xtime x.r2 ^^^ gmulThree x.r3
    r3 := gmulThree x.r0 ^^^ x.r1 ^^^ x.r2 ^^^ xtime x.r3 }

/-- `InvMixColumns` on one column, `k·a = gmul(a, k)` (R188). -/
def invMixColumn (x : AesColumn) : AesColumn :=
  { r0 := gmul x.r0 0x0e ^^^ gmul x.r1 0x0b ^^^ gmul x.r2 0x0d ^^^ gmul x.r3 0x09
    r1 := gmul x.r0 0x09 ^^^ gmul x.r1 0x0e ^^^ gmul x.r2 0x0b ^^^ gmul x.r3 0x0d
    r2 := gmul x.r0 0x0d ^^^ gmul x.r1 0x09 ^^^ gmul x.r2 0x0e ^^^ gmul x.r3 0x0b
    r3 := gmul x.r0 0x0b ^^^ gmul x.r1 0x0d ^^^ gmul x.r2 0x09 ^^^ gmul x.r3 0x0e }

/-- `MixColumns` (R187). -/
def mixColumns (s : AesState) : AesState := s.map mixColumn

/-- `InvMixColumns` (R188). -/
def invMixColumns (s : AesState) : AesState := s.map invMixColumn

/-- The `i`-th round-key word of a schedule (R180). -/
def roundKeyWord (w : List AesColumn) (i : Nat) : AesColumn := w.getD i { r0 := 0, r1 := 0, r2 := 0, r3 := 0 }

/-- `AddRoundKey(s, w, rd)`: column `c` with round-key word `4 rd + c` (R189). -/
def addRoundKey (s : AesState) (w : List AesColumn) (rd : Nat) : AesState :=
  { c0 := s.c0.xor (roundKeyWord w (4 * rd))
    c1 := s.c1.xor (roundKeyWord w (4 * rd + 1))
    c2 := s.c2.xor (roundKeyWord w (4 * rd + 2))
    c3 := s.c3.xor (roundKeyWord w (4 * rd + 3)) }

/-- `Rcon[j]` for `j ≥ 1`: `x^(j-1)` in GF(2^8) (R191). -/
def rcon : Nat → Byte
  | 0 => 0
  | 1 => 1
  | j + 2 => xtime (rcon (j + 1))

/-- `RotWord` (R192). -/
def rotWord (x : AesColumn) : AesColumn := { r0 := x.r1, r1 := x.r2, r2 := x.r3, r3 := x.r0 }

/-- `SubWord` (R192). -/
def subWord (x : AesColumn) : AesColumn := x.map sbox

/-- The value `temp` that word `i` of the schedule is formed with, from word `i - 1` (R192). -/
def keyTemp (nk i : Nat) (prev : AesColumn) : AesColumn :=
  if i % nk = 0 then (subWord (rotWord prev)).xor { r0 := rcon (i / nk), r1 := 0, r2 := 0, r3 := 0 }
  else if 6 < nk ∧ i % nk = 4 then subWord prev
  else prev

/-- `n` further words of the key schedule after `ws` (R192). -/
def keyExtend (nk : Nat) : Nat → List AesColumn → List AesColumn
  | 0, ws => ws
  | n + 1, ws =>
    let i := ws.length
    keyExtend nk n (ws ++ [(roundKeyWord ws (i - nk)).xor (keyTemp nk i (roundKeyWord ws (i - 1)))])

/-- `Nk`, the key's length in words (R180, R190). -/
def keyWords (key : List Byte) : Nat := key.length / 4

/-- `Nr = Nk + 6`, the number of rounds (R180, R190). -/
def keyRounds (key : List Byte) : Nat := keyWords key + 6

/-- `KeyExpansion(key)`: the `4 (Nr + 1)` round-key words (R192). -/
def keyExpansion (key : List Byte) : List AesColumn :=
  keyExtend (keyWords key) (4 * (keyRounds key + 1) - keyWords key)
    ((List.range (keyWords key)).map fun i => AesColumn.ofBytes key (4 * i))

/-- One full round of `Cipher` (R193). -/
def cipherRound (w : List AesColumn) (rd : Nat) (s : AesState) : AesState :=
  addRoundKey (mixColumns (shiftRows (subBytes s))) w rd

/-- The rounds 1 to `n` of `Cipher`, in this order (R193). -/
def cipherRounds (w : List AesColumn) : Nat → AesState → AesState
  | 0, s => s
  | n + 1, s => cipherRound w (n + 1) (cipherRounds w n s)

/-- `Cipher` on states (R193): the last round has no `MixColumns`. -/
def cipherState (s : AesState) (w : List AesColumn) (nr : Nat) : AesState :=
  addRoundKey (shiftRows (subBytes (cipherRounds w (nr - 1) (addRoundKey s w 0)))) w nr

/-- One full round of `InvCipher` (R194). -/
def invCipherRound (w : List AesColumn) (rd : Nat) (s : AesState) : AesState :=
  invMixColumns (addRoundKey (invSubBytes (invShiftRows s)) w rd)

/-- The rounds `n` down to 1 of `InvCipher`, in this order (R194). -/
def invCipherRounds (w : List AesColumn) : Nat → AesState → AesState
  | 0, s => s
  | n + 1, s => invCipherRounds w n (invCipherRound w (n + 1) s)

/-- `InvCipher` on states (R194). -/
def invCipherState (s : AesState) (w : List AesColumn) (nr : Nat) : AesState :=
  addRoundKey (invSubBytes (invShiftRows (invCipherRounds w (nr - 1) (addRoundKey s w nr)))) w 0

/-- `Cipher(in, w, Nr)` on a block of 16 bytes (R193). -/
def cipher (block : List Byte) (w : List AesColumn) (nr : Nat) : List Byte :=
  (cipherState (.ofBytes block) w nr).bytes

/-- `InvCipher(in, w, Nr)` on a block of 16 bytes (R194). -/
def invCipher (block : List Byte) (w : List AesColumn) (nr : Nat) : List Byte :=
  (invCipherState (.ofBytes block) w nr).bytes

end Sys2Proof.Machine
end

