-- ==== Sys2Proof/Machine/Crypt.lean ====
section
/-! DEFINITION. The commands ENCRYPT and DECRYPT: padding, the independent-block mode and the padding check
(44_cipher_engine.md R210 to R232). -/

namespace Sys2Proof.Machine

/-- `BLOCK_BYTES` (R8). -/
def blockBytes : Nat := 16

/-- The pad length `v = 16 - (n mod 16)` of `n` bytes (R213). -/
def padLength (n : Nat) : Nat := blockBytes - n % blockBytes

/-- `Pad(p) = p ‖ rep(v, v)` (R213). -/
def pad (p : List Byte) : List Byte := p ++ rep (BitVec.ofNat 8 (padLength p.length)) (padLength p.length)

/-- The check of R225: the last byte `v` is 1 to 16 and the last `v` bytes all equal it. -/
def padValid (d : List Byte) : Bool :=
  let v := d.getD (d.length - 1) 0
  1 ≤ v.toNat && v.toNat ≤ 16 && (List.range v.toNat).all fun i => d.getD (d.length - (i + 1)) 0 == v

/-- `Unpad(D)`: `D[0 .. N-v)`, or none where the padding is not valid (R225). -/
def unpad (d : List Byte) : Option (List Byte) :=
  if padValid d then some (d.take (d.length - (d.getD (d.length - 1) 0).toNat)) else none

/-- A function of blocks on every block of a buffer, each for itself (R214, R224). -/
def mapBlocks (f : List Byte → List Byte) (b : List Byte) : List Byte :=
  (List.range (b.length / blockBytes)).flatMap fun i => f (slice b (blockBytes * i) blockBytes)

/-- `EcbEncrypt(P, key)` (R214): one key schedule for all blocks. -/
def ecbEncrypt (p key : List Byte) : List Byte :=
  let w := keyExpansion key
  mapBlocks (fun b => cipher b w (keyRounds key)) p

/-- `EcbDecrypt(c, key)` (R224). -/
def ecbDecrypt (c key : List Byte) : List Byte :=
  let w := keyExpansion key
  mapBlocks (fun b => invCipher b w (keyRounds key)) c

/-- The accepted key lengths: the full 32-bit `KEY_LEN` is 16, 24 or 32 (R212, R222, R190). -/
def keyLenLegal (l : Word) : Bool := l == 16 || l == 24 || l == 32

/-- The key operand `KEY[0..KEY_LEN)` (R33). -/
def keyOperand (s : State) : List Byte := s.key.readBytes 0 s.keyLen.toNat

/-- The input operand `IBUF[0..IN_LEN)` (R31). -/
def inputOperand (s : State) : List Byte := s.ibuf.readBytes 0 s.inLen.toNat

/-- A successful result with the output `out`. -/
def outputResult (out : List Byte) : Result := { err := .none, out := out, keyw := none, zeroIbuf := false }

/-- `Exec_ENCRYPT` (R215): capacity, then key length (R211, R212). -/
def encryptResult (s : State) : Result :=
  if s.cfg.bufBytes ≤ s.inLen.toNat then failResult .capacityExceeded
  else if !keyLenLegal s.keyLen then failResult .keyLengthMismatch
  else outputResult (ecbEncrypt (pad (inputOperand s)) (keyOperand s))

/-- The end of `Exec_DECRYPT` on the inverse-transformed buffer (R225, R226). -/
def decryptOutput (d : List Byte) : Result :=
  match unpad d with
  | some p => outputResult p
  | none => failResult .invalidPadding

/-- `Exec_DECRYPT` (R226): capacity, key length, ciphertext length, padding (R221 to R225). -/
def decryptResult (s : State) : Result :=
  if s.cfg.bufBytes < s.inLen.toNat then failResult .capacityExceeded
  else if !keyLenLegal s.keyLen then failResult .keyLengthMismatch
  else if s.inLen.toNat = 0 ∨ s.inLen.toNat % blockBytes ≠ 0 then failResult .malformedCiphertext
  else decryptOutput (ecbDecrypt (inputOperand s) (keyOperand s))

/-- ENCRYPT (R210, R215, R38). -/
def execEncrypt (s : State) : Host.Outcome State Fault Refusal := .next (commit (encryptResult s) s)

/-- DECRYPT (R220, R226, R38). -/
def execDecrypt (s : State) : Host.Outcome State Fault Refusal := .next (commit (decryptResult s) s)

end Sys2Proof.Machine
end

