-- ==== Sys2Proof/Machine/Sha256.lean ====
section
/-! DEFINITION. The hash function SHA-256 (41_sha256.md R150 to R162), which DERIVE applies to the decoded bytes. -/

namespace Sys2Proof.Machine

/-- `Ch` (R151). -/
def sha256Ch (x y z : Word) : Word := (x &&& y) ^^^ (~~~x &&& z)

/-- `Maj` (R151). -/
def sha256Maj (x y z : Word) : Word := (x &&& y) ^^^ (x &&& z) ^^^ (y &&& z)

/-- `BSIG0` (R151). -/
def sha256BigSigma0 (x : Word) : Word := rotr 2 x ^^^ rotr 13 x ^^^ rotr 22 x

/-- `BSIG1` (R151). -/
def sha256BigSigma1 (x : Word) : Word := rotr 6 x ^^^ rotr 11 x ^^^ rotr 25 x

/-- `SSIG0` (R151). -/
def sha256SmallSigma0 (x : Word) : Word := rotr 7 x ^^^ rotr 18 x ^^^ shr 3 x

/-- `SSIG1` (R151). -/
def sha256SmallSigma1 (x : Word) : Word := rotr 17 x ^^^ rotr 19 x ^^^ shr 10 x

/-- The round constants `K[0..63]` (R152). -/
def sha256K : List Word :=
  [0x428a2f98, 0x71374491, 0xb5c0fbcf, 0xe9b5dba5, 0x3956c25b, 0x59f111f1, 0x923f82a4, 0xab1c5ed5]
  ++ [0xd807aa98, 0x12835b01, 0x243185be, 0x550c7dc3, 0x72be5d74, 0x80deb1fe, 0x9bdc06a7, 0xc19bf174]
  ++ [0xe49b69c1, 0xefbe4786, 0x0fc19dc6, 0x240ca1cc, 0x2de92c6f, 0x4a7484aa, 0x5cb0a9dc, 0x76f988da]
  ++ [0x983e5152, 0xa831c66d, 0xb00327c8, 0xbf597fc7, 0xc6e00bf3, 0xd5a79147, 0x06ca6351, 0x14292967]
  ++ [0x27b70a85, 0x2e1b2138, 0x4d2c6dfc, 0x53380d13, 0x650a7354, 0x766a0abb, 0x81c2c92e, 0x92722c85]
  ++ [0xa2bfe8a1, 0xa81a664b, 0xc24b8b70, 0xc76c51a3, 0xd192e819, 0xd6990624, 0xf40e3585, 0x106aa070]
  ++ [0x19a4c116, 0x1e376c08, 0x2748774c, 0x34b0bcb5, 0x391c0cb3, 0x4ed8aa4a, 0x5b9cca4f, 0x682e6ff3]
  ++ [0x748f82ee, 0x78a5636f, 0x84c87814, 0x8cc70208, 0x90befffa, 0xa4506ceb, 0xbef9a3f7, 0xc67178f2]

/-- Eight words: a hash value `H[0..7]` or the working variables `a` to `h` (R153, R157). -/
structure HashWords where
  a : Word
  b : Word
  c : Word
  d : Word
  e : Word
  f : Word
  g : Word
  h : Word
  deriving DecidableEq, Repr

/-- The initial hash value `H0` (R153). -/
def sha256H0 : HashWords :=
  { a := 0x6a09e667, b := 0xbb67ae85, c := 0x3c6ef372, d := 0xa54ff53a
    e := 0x510e527f, f := 0x9b05688c, g := 0x1f83d9ab, h := 0x5be0cd19 }

/-- `z = (55 - L) mod 64`, the number of zero bytes of the padding of `L` bytes (R154). -/
def sha256PadZeros (len : Nat) : Nat := (119 - len % 64) % 64

/-- The padded message `m ‖ 0x80 ‖ rep(0, z) ‖ BE64inv(8L)` (R154). -/
def sha256Pad (m : List Byte) : List Byte :=
  m ++ [0x80] ++ rep 0 (sha256PadZeros m.length) ++ be64Bytes (BitVec.ofNat 64 (8 * m.length))

/-- The 16 message words of a block of 64 bytes, big-endian (R155). -/
def sha256BlockWords (block : List Byte) : List Word :=
  (List.range 16).map fun t => be32 (slice block (4 * t) 4)

/-- The next word of the message schedule after `W[0..t)` (R156). -/
def sha256NextWord (ws : List Word) (t : Nat) : Word :=
  sha256SmallSigma1 (ws.getD (t - 2) 0) + ws.getD (t - 7) 0
    + sha256SmallSigma0 (ws.getD (t - 15) 0) + ws.getD (t - 16) 0

/-- `n` further words of the message schedule after `ws` (R156). -/
def sha256Extend : Nat → List Word → List Word
  | 0, ws => ws
  | n + 1, ws => sha256Extend n (ws ++ [sha256NextWord ws ws.length])

/-- The message schedule `W[0..63]` of a block (R156). -/
def sha256Schedule (block : List Byte) : List Word := sha256Extend 48 (sha256BlockWords block)

/-- One round of the compression: `T1`, `T2` and the simultaneous update of `a` to `h` (R157). -/
def sha256Round (v : HashWords) (k w : Word) : HashWords :=
  let t1 := v.h + sha256BigSigma1 v.e + sha256Ch v.e v.f v.g + k + w
  let t2 := sha256BigSigma0 v.a + sha256Maj v.a v.b v.c
  { a := t1 + t2, b := v.a, c := v.b, d := v.c, e := v.d + t1, f := v.e, g := v.f, h := v.g }

/-- The 64 rounds, each with its constant and its schedule word (R157). -/
def sha256Rounds : List Word → List Word → HashWords → HashWords
  | k :: ks, w :: ws, v => sha256Rounds ks ws (sha256Round v k w)
  | _, _, v => v

/-- The word-wise sum that ends the compression of a block (R157). -/
def HashWords.add (x y : HashWords) : HashWords :=
  { a := x.a + y.a, b := x.b + y.b, c := x.c + y.c, d := x.d + y.d
    e := x.e + y.e, f := x.f + y.f, g := x.g + y.g, h := x.h + y.h }

/-- The compression of one block into the hash value (R157). -/
def sha256Compress (hv : HashWords) (block : List Byte) : HashWords :=
  hv.add (sha256Rounds sha256K (sha256Schedule block) hv)

/-- The digest bytes of a hash value, most significant byte of `H[0]` first (R158). -/
def HashWords.bytes (x : HashWords) : List Byte :=
  be32Bytes x.a ++ be32Bytes x.b ++ be32Bytes x.c ++ be32Bytes x.d ++
  be32Bytes x.e ++ be32Bytes x.f ++ be32Bytes x.g ++ be32Bytes x.h

/-- `SHA256(m)`: 32 bytes (R150, R154 to R158). Blocks are processed in order, each from the hash value the last left. -/
def sha256 (m : List Byte) : List Byte :=
  let pm := sha256Pad m
  ((List.range (pm.length / 64)).foldl (fun hv i => sha256Compress hv (slice pm (64 * i) 64)) sha256H0).bytes

end Sys2Proof.Machine
end

