-- ==== Sys2Proof/Machine/Derive.lean ====
section
/-! DEFINITION. The command DERIVE (40_key_deriver.md R130 to R143). -/

namespace Sys2Proof.Machine

/-- DERIVE's `fail(code)`: no output, and no key is left in the bank (R137, R138). -/
def deriveFail (e : Err) : Result := { failResult e with keyw := some (rep 0 32, 0) }

/-- `Exec_DERIVE` on the text `t` (R133 to R137): EmptyKey before InvalidKeyFormat before the hash. -/
def deriveText (t : List Byte) : Result :=
  if t.all isWS then deriveFail .emptyKey
  else if t.length % 2 = 1 ∨ t.any (fun c => !isHex c) then deriveFail .invalidKeyFormat
  else { err := .none, out := [], keyw := some (sha256 (hexDecode t), 32), zeroIbuf := false }

/-- `Exec_DERIVE` (R137): the capacity check comes first and reads no text (R132). -/
def deriveResult (s : State) : Result :=
  if s.cfg.bufBytes < s.inLen.toNat then deriveFail .capacityExceeded
  else deriveText (s.ibuf.readBytes 0 s.inLen.toNat)

/-- DERIVE (R130, R137, R38). -/
def execDerive (s : State) : Host.Outcome State Fault Refusal := .next (commit (deriveResult s) s)

end Sys2Proof.Machine
end

