-- ==== Sys2Proof/Machine/Genkey.lean ====
section
/-! DEFINITION. The command GENKEY (42_random_key.md R170 to R178). -/

namespace Sys2Proof.Machine

/-- `Exec_GENKEY(r)`: the text of the draw (R174). -/
def genkeyResult (r : List Byte) : Result :=
  { err := .none, out := hextext r, keyw := none, zeroIbuf := false }

/-- GENKEY (R170, R174, R38). Its completion is enabled only when 32 bytes have been taken; until then the engine's turn
changes nothing (R177). -/
def execGenkey (s : State) : Host.Outcome State Fault Refusal :=
  if s.scratch.drawn.length < randomBytes then .next s
  else .next (commit (genkeyResult (s.scratch.drawn.take randomBytes)) s)

end Sys2Proof.Machine
end

