-- ==== Sys2Proof/Machine/Dispatch.lean ====
section
/-! DEFINITION. What the completion step of each command does (10_state.md R39): one arm per command. -/

namespace Sys2Proof.Machine

/-- The completion of the command `i` (R38, R39). -/
def exec (i : Instr) (s : State) : Host.Outcome State Fault Refusal :=
  match i with
  | .derive => Sys2Proof.Machine.execDerive s
  | .genkey => Sys2Proof.Machine.execGenkey s
  | .encrypt => Sys2Proof.Machine.execEncrypt s
  | .decrypt => Sys2Proof.Machine.execDecrypt s
  | .clear ci ck => Sys2Proof.Machine.execClear ci ck s

end Sys2Proof.Machine
end

