-- ==== Sys2Proof/Machine/Engine.lean ====
section
/-! DEFINITION. The engine's turn and the taking of one input (00_scope.md R17; 10_state.md R36 to R39), and the placing of
a command word for `State.withFetchWord`. -/

namespace Sys2Proof.Machine

/-- The completion of the latched word: the command it decodes to, or BadCommand where it is reserved (R39, R242). -/
def runLatched (s : State) : Host.Outcome State Fault Refusal :=
  match decode s.cmdLatch with
  | .ok i => exec i s
  | .error _ => execReserved s

/-- The engine's turn: the completion step while `BUSY = 1`, nothing while idle (R17, R36, R38). -/
def engineTurn (s : State) : Host.Outcome State Fault Refusal :=
  if s.busy then runLatched s else .next s

/-- One event: a transaction, an entropy byte, the engine's turn, or reset (R17). -/
def takeInput (i : Input) (s : State) : Host.Outcome State Fault Refusal :=
  match i with
  | .bus op => .next (busStep op s)
  | .entropy b => .next (takeEntropy b s)
  | .engine => engineTurn s
  | .reset during => .next (resetInput during s)

/-- DESIGN CHOICE (notes/assumptions/6): the free draw that stands for the entropy a placed GENKEY has been given. Whether
two draws agree is open (R172, R178): draw `n` is its own 32 free bytes, and only two placements at one value of the
counter `State.freeCtr` share theirs. -/
def freeDraw (n : Nat) : List Byte := (List.range randomBytes).map (Config.entropyByte n)

/-- The state with an operation of the word `w` in flight and the engine next to move: the start step's effect (R37), the
draw where `w` is the GENKEY word (which uses up one value of the counter of free values), and the engine's turn before
any event that waits. -/
def placeCommand (w : Word) (s : State) : State :=
  { startStep w s with
    inputs := if s.inputs.isEmpty then [] else .engine :: s.inputs
    scratch := if w == genkeyWord then { s.scratch with drawn := freeDraw s.freeCtr } else s.scratch
    freeCtr := if w == genkeyWord then s.freeCtr + 1 else s.freeCtr }

end Sys2Proof.Machine
end

