-- ==== Sys2Proof/Machine/Step.lean ====
section
/-! DEFINITION. One step of the machine: one atomic step of one agent (00_scope.md R17; 20_memory.md R84). -/

namespace Sys2Proof.Machine

/-- One step: the next event is taken; with none waiting it is the engine's turn (R17, R84, R295). -/
def step (s : State) : Host.Outcome State Fault Refusal :=
  match s.inputs with
  | [] => engineTurn s
  | i :: rest => takeInput i { s with inputs := rest }

/-- `s` with the table word `w` of `nbits` bits as the operation in flight and the engine next to move: KDCE fetches no
instruction (R2, R36), so this stands for the host's write to CMD (R37) and, for GENKEY, for the entropy it waits for. -/
def State.withFetchWord (s : State) (nbits w : Nat) : State :=
  placeCommand (BitVec.ofNat 32 (w % 2 ^ nbits)) s

end Sys2Proof.Machine
end

