-- ==== Sys2Proof/Machine/Driver.lean ====
section
/-! DEFINITION. The host's notation for driver sequences, as the bus transactions it stands for, each chosen in view of the
responses to those before (30_encoding.md R107 to R112; 70_reset_and_hazards.md R285). The machine does not use it: it is
how a host's program is written down. -/

namespace Sys2Proof.Machine

/-- The byte address that the name of a location stands for (R71, R107). -/
def Loc.busAddr : Loc → BusAddr
  | .id => 0x00000
  | .cap => 0x00004
  | .cmd => 0x00008
  | .status => 0x0000C
  | .err => 0x00010
  | .ien => 0x00014
  | .inLen => 0x00018
  | .outLen => 0x0001C
  | .keyLen => 0x00020
  | .key off => BitVec.ofNat 18 (0x00040 + off)
  | .ibuf off => BitVec.ofNat 18 (0x10000 + off)
  | .obuf off => BitVec.ofNat 18 (0x20000 + off)

/-- `WR name, value` (R107). -/
def wr (l : Loc) (v : Word) : BusOp := .write l.busAddr v

/-- `RD name` (R107). -/
def rd (l : Loc) : BusOp := .read l.busAddr

/-- The number of words that hold `n` bytes. -/
def wordsOf (n : Nat) : Nat := (n + 3) / 4

/-- Word `j` of a byte string, its last word padded with zero bytes (R108). -/
def paddedWord (b : List Byte) (j : Nat) : Word := le32 (slice b (4 * j) 4)

/-- The writes that place a byte string in a window, a word at a time from its first word on (R108). -/
def loadWindow (window : Nat → Loc) (b : List Byte) : List BusOp :=
  (List.range (wordsOf b.length)).map fun j => wr (window (4 * j)) (paddedWord b j)

/-- A pseudo-operation of R108. -/
inductive DriverOp where
  /-- A command's name: the write of its word to CMD. -/
  | command (i : Instr)
  /-- `LDI b`. -/
  | ldi (b : List Byte)
  /-- `LDK k`. -/
  | ldk (k : List Byte)
  /-- `WAIT`. -/
  | wait
  /-- `ACK`. -/
  | ack
  /-- `RDO n`. -/
  | rdo (n : Nat)
  /-- `RDK`. -/
  | rdk
  deriving DecidableEq, Repr

/-- The transactions of a pseudo-operation, each performed once; of `WAIT` the body of its loop (R108). -/
def DriverOp.expand : DriverOp → List BusOp
  | .command i => [wr .cmd (encode i)]
  | .ldi b => loadWindow .ibuf b ++ [wr .inLen (BitVec.ofNat 32 b.length)]
  | .ldk k => loadWindow .key k ++ [wr .keyLen (BitVec.ofNat 32 k.length)]
  | .wait => [rd .status]
  | .ack => [wr .status 0x00000002]
  | .rdo n => (List.range (wordsOf n)).map fun j => rd (.obuf (4 * j))
  | .rdk => (List.range 8).map fun j => rd (.key (4 * j))

/-- `WAIT` is over: the value read last has bit 0 = 0 (R108). -/
def waitOver (seen : List Response) : Bool :=
  match seen.getLast? with
  | some (.read v _) => !v.getLsbD 0
  | _ => false

/-- What the host performs next in a pseudo-operation, after the responses seen in it so far, or none where it is done:
`WAIT` reads STATUS again until the value read has bit 0 = 0, every other one goes through its list (R108). -/
def DriverOp.next (op : DriverOp) (seen : List Response) : Option BusOp :=
  match op with
  | .wait => if waitOver seen then none else some (rd .status)
  | op => op.expand[seen.length]?

/-- The steps of the machine on a list of events. -/
def performEvents (es : List Input) (s : State) : Host.Outcome State Fault Refusal :=
  Host.Core.run Sys2Proof.core es.length { s with inputs := es }

/-- A pseudo-operation performed by the host, from the responses `seen` in it so far on (R84, R108): before each of its
transactions the events of the next gap happen, which are the other agents' part of the interleaving. The answer is the
state after the last transaction with all responses, or none where the gaps end before the pseudo-operation does, as
they do, whatever their number, where `WAIT` waits for an operation that never completes (R177). -/
def DriverOp.perform (op : DriverOp) : List (List Input) → List Response → State → Option (State × List Response)
  | [], seen, s => if (op.next seen).isNone then some (s, seen) else none
  | gap :: gaps, seen, s =>
    match op.next seen with
    | none => some (s, seen)
    | some t =>
      match performEvents gap s with
      | .next u => op.perform gaps (seen ++ (busStep t u).resp.toList) (busStep t u)
      | _ => none

/-- The result of `RDO n` or `RDK`: the first `n` bytes of the words read, little-endian (R108). -/
def bytesRead (n : Nat) (ws : List Word) : List Byte := (ws.flatMap le32Bytes).take n

/-- The events of a host that performs a sequence of transactions, one after the other (R84). -/
def hostEvents (ops : List BusOp) : List Input := ops.map .bus

end Sys2Proof.Machine
end

