-- ==== Sys2Proof/Safety.lean ====
section
/-! DEFINITION. The terms in which claims about KDCE are made: what the rules promise of every state a run reaches
(`State.Inv`), and what a completed operation leaves, leaves alone and erases. -/

namespace Sys2Proof.Machine

/-- What the rules promise of every state. The parameter is legal (R9). The three arrays are canonical and lie inside
their bounds (R34, R35), `OUT_LEN` inside OBUF (R32). No code above 7 exists (R250). `BUSY` and `DONE` are never both 1
(R26). An idle machine has no latched word and no scratch (R36, R40), OBUF is zero from `OUT_LEN` on (R35, R210, R220),
and after a failed operation there is no output (R256, R257). A running machine shows no error and no output (R37,
R82). At most 32 bytes are drawn, and only by a GENKEY in flight (R171). -/
abbrev State.Inv (s : State) : Prop :=
  s.cfg.Legal
  ∧ (s.key.Wf ∧ s.key.Within 32)
  ∧ (s.ibuf.Wf ∧ s.ibuf.Within s.cfg.bufBytes)
  ∧ (s.obuf.Wf ∧ s.obuf.Within s.cfg.bufBytes)
  ∧ s.outLen.toNat ≤ s.cfg.bufBytes
  ∧ s.errCode.toNat ≤ 7
  ∧ ¬(s.busy = true ∧ s.done = true)
  ∧ (s.busy = false → s.cmdLatch = 0 ∧ s.scratch = Scratch.zero ∧ s.obuf.Within s.outLen.toNat)
  ∧ (s.busy = false → s.errCode ≠ 0 → s.outLen = 0)
  ∧ (s.busy = true → s.errCode = 0 ∧ s.outLen = 0)
  ∧ s.scratch.drawn.length ≤ randomBytes
  ∧ (s.scratch.drawn ≠ [] → s.busy = true ∧ s.cmdLatch = genkeyWord)

/-- `t` is `s` with the operation in flight completed with error `e`, as far as the flags, the latch and scratch go, and
with everything kept that no commit touches (R38: "Nothing else changes"). -/
structure State.Completed (t s : State) (e : Err) : Prop where
  busy : t.busy = false
  done : t.done = true
  errCode : t.errCode = errNumber e
  cmdLatch : t.cmdLatch = 0
  scratch : t.scratch = Scratch.zero
  cfg : t.cfg = s.cfg
  busyw : t.busyw = s.busyw
  ieDone : t.ieDone = s.ieDone
  ieErr : t.ieErr = s.ieErr
  inputs : t.inputs = s.inputs
  resp : t.resp = s.resp
  freeCtr : t.freeCtr = s.freeCtr

/-- `IN_LEN` and every byte of IBUF are in `t` what they are in `s`. -/
structure State.SameInput (t s : State) : Prop where
  inLen : t.inLen = s.inLen
  ibuf : ∀ a, t.ibuf.read a = s.ibuf.read a

/-- `KEY_LEN` and every byte of the key bank are in `t` what they are in `s`. -/
structure State.SameKey (t s : State) : Prop where
  keyLen : t.keyLen = s.keyLen
  key : ∀ a, t.key.read a = s.key.read a

/-- `OUT_LEN` and every byte of OBUF are in `t` what they are in `s`. -/
structure State.SameOutput (t s : State) : Prop where
  outLen : t.outLen = s.outLen
  obuf : ∀ a, t.obuf.read a = s.obuf.read a

/-- The flags, `ERR_CODE`, IEN, the latch and scratch of `t` are those of `s`. -/
structure State.SameControl (t s : State) : Prop where
  busy : t.busy = s.busy
  done : t.done = s.done
  busyw : t.busyw = s.busyw
  errCode : t.errCode = s.errCode
  ieDone : t.ieDone = s.ieDone
  ieErr : t.ieErr = s.ieErr
  cmdLatch : t.cmdLatch = s.cmdLatch
  scratch : t.scratch = s.scratch

/-- No output: `OUT_LEN = 0` and every byte of OBUF is 0 (R256). -/
structure State.NoOutput (t : State) : Prop where
  outLen : t.outLen = 0
  obuf : ∀ a, t.obuf.read a = 0

/-- The output is the byte string `b`: `OUT_LEN` is its length, OBUF holds it, and every byte after it is 0 (R38). -/
structure State.OutputIs (t : State) (b : List Byte) : Prop where
  outLen : t.outLen.toNat = b.length
  obuf : ∀ a, t.obuf.read a = b.getD a 0

/-- The key bank holds exactly the byte string `b`, zero after it, and `KEY_LEN` is `l`. -/
structure State.KeyIs (t : State) (b : List Byte) (l : Word) : Prop where
  keyLen : t.keyLen = l
  key : ∀ a, t.key.read a = b.getD a 0

/-- The input is erased: `IN_LEN = 0` and every byte of IBUF is 0 (R240). -/
structure State.InputErased (t : State) : Prop where
  inLen : t.inLen = 0
  ibuf : ∀ a, t.ibuf.read a = 0

/-- The key is erased: `KEY_LEN = 0` and every byte of the bank is 0 (R138, R240). -/
structure State.KeyErased (t : State) : Prop where
  keyLen : t.keyLen = 0
  key : ∀ a, t.key.read a = 0

/-- `KEY_LEN` is one of 16, 24, 32, as a full 32-bit number (R212). -/
abbrev State.KeyLenOk (s : State) : Prop :=
  s.keyLen.toNat = 16 ∨ s.keyLen.toNat = 24 ∨ s.keyLen.toNat = 32

/-- The bytes 0 to `n - 1` of an array, by its read of one byte. -/
def bytesOf (m : Memory) (n : Nat) : List Byte := (List.range n).map m.read

/-- The round keys of the key operand `KEY[0..KEY_LEN)` (R192). -/
def State.roundKeys (s : State) : List AesColumn := keyExpansion (bytesOf s.key s.keyLen.toNat)

/-- The number of rounds of the key operand: `KEY_LEN / 4 + 6` (R190). -/
def State.rounds (s : State) : Nat := s.keyLen.toNat / 4 + 6

/-- Byte `i` of the padded plaintext: the plaintext, then bytes that each hold the pad length (R213). -/
def State.paddedByte (s : State) (i : Nat) : Byte :=
  if i < s.inLen.toNat then s.ibuf.read i else BitVec.ofNat 8 (16 - s.inLen.toNat % 16)

/-- Block `b` of the padded plaintext (R214). -/
def State.paddedBlock (s : State) (b : Nat) : List Byte := (List.range 16).map fun k => s.paddedByte (16 * b + k)

/-- Block `b` of IBUF (R181). -/
def State.inputBlock (s : State) (b : Nat) : List Byte := (List.range 16).map fun k => s.ibuf.read (16 * b + k)

/-- Byte `i` of the inverse-transformed input (R224). -/
def State.decryptedByte (s : State) (i : Nat) : Byte :=
  (invCipher (s.inputBlock (i / 16)) s.roundKeys s.rounds).getD (i % 16) 0

/-- The pad length that the last byte of the inverse-transformed input names (R225). -/
def State.foundPad (s : State) : Nat := (s.decryptedByte (s.inLen.toNat - 1)).toNat

/-- The padding found is valid: the last byte `v` is 1 to 16 and the last `v` bytes all equal it (R225). -/
def State.PadOk (s : State) : Prop :=
  1 ≤ s.foundPad ∧ s.foundPad ≤ 16
    ∧ ∀ i, 1 ≤ i → i ≤ s.foundPad → (s.decryptedByte (s.inLen.toNat - i)).toNat = s.foundPad

/-- What a DERIVE that fails with `e` leaves (R138, R256). -/
structure State.DeriveFailed (t s : State) (e : Err) : Prop where
  completed : t.Completed s e
  output : t.NoOutput
  key : t.KeyErased
  input : t.SameInput s

/-- What any other command that fails with `e` leaves (R242, R256). -/
structure State.CommandFailed (t s : State) (e : Err) : Prop where
  completed : t.Completed s e
  output : t.NoOutput
  key : t.SameKey s
  input : t.SameInput s

/-- The aligned byte addresses of the map (R71), for an instance with windows of `n` bytes. -/
def MappedAddress (n a : Nat) : Prop :=
  a % 4 = 0 ∧ (a ≤ 0x20 ∨ (0x40 ≤ a ∧ a < 0x60) ∨ (0x10000 ≤ a ∧ a < 0x10000 + n)
    ∨ (0x20000 ≤ a ∧ a < 0x20000 + n))

/-- The addresses that take writes only while `BUSY = 0`: CMD, IN_LEN, KEY_LEN, the key bank and the IBUF window
(R81). -/
def OperandAddress (n a : Nat) : Prop :=
  a % 4 = 0 ∧ (a = 0x08 ∨ a = 0x18 ∨ a = 0x20 ∨ (0x40 ≤ a ∧ a < 0x60) ∨ (0x10000 ≤ a ∧ a < 0x10000 + n))

/-- The read-only locations: ID, CAP, ERR, OUT_LEN and the OBUF window (R79). -/
def ReadOnlyAddress (n a : Nat) : Prop :=
  a % 4 = 0 ∧ (a = 0x00 ∨ a = 0x04 ∨ a = 0x10 ∨ a = 0x1C ∨ (0x20000 ≤ a ∧ a < 0x20000 + n))

end Sys2Proof.Machine
end

