-- ==== Sys2Proof/Certificates/Slice0/Obligations.lean ====
section
/-! DEFINITION. The statements about KDCE that are left to the provers. Each says which rule of spec/ it formalises; the
words used (`Completed`, `SameKey`, `NoOutput` ...) are those of Sys2Proof/Safety.lean. -/

open Sys2Proof Sys2Proof.Machine

/-! ## Reset, the invariant, and that nothing stops the machine -/

/-- R43: after reset every element of R20 is zero, whatever the parameter `BUF_BYTES`; ID and CAP read their constants,
STATUS reads 0 and `irq` is low. -/
def Obligations.ResetLeavesEveryElementZero : Prop :=
  ∀ c : Config,
    let s := State.resetOf c
    s.busy = false ∧ s.done = false ∧ s.busyw = false ∧ s.errCode = 0 ∧ s.ieDone = false ∧ s.ieErr = false
    ∧ s.inLen = 0 ∧ s.outLen = 0 ∧ s.keyLen = 0
    ∧ (∀ a, s.key.read a = 0) ∧ (∀ a, s.ibuf.read a = 0) ∧ (∀ a, s.obuf.read a = 0)
    ∧ s.cmdLatch = 0 ∧ s.scratch = Scratch.zero
    ∧ busRead s 0x00000 = (0x4B440701, false) ∧ busRead s 0x00004 = (BitVec.ofNat 32 c.bufBytes, false)
    ∧ busRead s 0x0000C = (0, false) ∧ irq s = false

/-- The reset state of every legal instance satisfies the invariant; the model's one reset state is that of the
instance with 4096 bytes, the default of R9 (the model's choice of an open parameter, notes/assumptions/2). -/
def Obligations.ResetSatisfiesInvariant : Prop :=
  (∀ c : Config, c.Legal → (State.resetOf c).Inv) ∧ State.reset = State.resetOf { bufBytes := 4096 } ∧ State.reset.Inv

/-- Every step keeps the invariant: canonical arrays inside their bounds, an error code that exists, `BUSY` and `DONE`
never both 1, an idle machine with empty latch and scratch and nothing in OBUF beyond `OUT_LEN`, no output after an
error, no more than 32 entropy bytes and only for a GENKEY in flight. -/
def Obligations.StepKeepsInvariant : Prop :=
  ∀ s t : State, s.Inv → step s = .next t → t.Inv

/-- No run stops: whatever the state and however many steps, the machine answers a next state. As a whole this is the
model's choice (notes/assumptions/9), which rests on decoding being total (R109), every error a typed result (R19) and
every bus error a response (R262). That a step of a starved GENKEY, which U11 calls stuck, is a next state is
notes/assumptions/8, and that a machine with no event waiting takes the engine's turn is notes/assumptions/1. -/
def Obligations.EveryRunGoesOn : Prop :=
  ∀ (k : Nat) (s : State), ∃ t : State, Host.Core.run Sys2Proof.core k s = .next t

/-! ## Command words -/

/-- R103 both ways: a word decodes to a command exactly when it is that command's encoding. -/
def Obligations.DecodeAnswersExactlyTheEncodings : Prop :=
  ∀ (w : Word) (i : Instr), decode w = .ok i ↔ encode i = w

/-- R103: the eight legal words, what each decodes to, and that there is no ninth. -/
def Obligations.LegalWordsAreTheEight : Prop :=
  decode 0x00000001 = .ok .derive ∧ decode 0x00000002 = .ok .genkey
  ∧ decode 0x00000003 = .ok .encrypt ∧ decode 0x00000004 = .ok .decrypt
  ∧ decode 0x00000005 = .ok (.clear false false) ∧ decode 0x00000105 = .ok (.clear true false)
  ∧ decode 0x00000205 = .ok (.clear false true) ∧ decode 0x00000305 = .ok (.clear true true)
  ∧ ∀ (w : Word) (i : Instr), decode w = .ok i →
      w = 0x00000001 ∨ w = 0x00000002 ∨ w = 0x00000003 ∨ w = 0x00000004
      ∨ w = 0x00000005 ∨ w = 0x00000105 ∨ w = 0x00000205 ∨ w = 0x00000305

/-- R104, first sentence, on bit slices: the refused words are those with `OP` in {0, 6..15}, or `Z0 ≠ 0`, or `Z1 ≠ 0`,
or `OP` in {1, 2, 3, 4} with `CI` or `CK` set. -/
def Obligations.ReservedWordsByField : Prop :=
  ∀ w : Word, (∃ e, decode w = .error e) ↔
    (w.toNat % 16 = 0 ∨ 6 ≤ w.toNat % 16)
    ∨ w.toNat / 16 % 16 ≠ 0
    ∨ w.toNat / 1024 ≠ 0
    ∨ (1 ≤ w.toNat % 16 ∧ w.toNat % 16 ≤ 4 ∧ w.toNat / 256 % 4 ≠ 0)

/-- A few words of each command, written out from the map of R103, decode to the command they stand for, by the table's
own numbering of bits; a few reserved words of R104 decode to none. -/
def Obligations.SampleWordsDecode : Prop :=
  decodeTableWord 32 0x00000001 = some .derive ∧ decodeTableWord 32 0x00000002 = some .genkey
  ∧ decodeTableWord 32 0x00000003 = some .encrypt ∧ decodeTableWord 32 0x00000004 = some .decrypt
  ∧ decodeTableWord 32 0x00000205 = some (.clear false true)
  ∧ decodeTableWord 32 0x00000000 = none ∧ decodeTableWord 32 0x00000101 = none
  ∧ decodeTableWord 32 0x00000403 = none ∧ decodeTableWord 32 0x80000001 = none

/-! ## Steps -/

/-- When the latched word of a running machine decodes to `i` and the engine is next to move, the step is the completion
of `i`: on the state as it is where no event waits, and on the state less its first event where that event is the
engine's turn. The decoded command is well-formed. The list of events, and that an empty one is the engine's turn, are the
model's choice (notes/assumptions/1). -/
def Obligations.StepRunsTheLatchedCommand : Prop :=
  ∀ (s : State) (i : Instr), s.busy = true → decode s.cmdLatch = .ok i →
    i.wellFormed = true
    ∧ (s.inputs = [] → step s = exec i s)
    ∧ (∀ rest, s.inputs = .engine :: rest → step s = exec i { s with inputs := rest })

/-- R37: a write of any word to CMD while `BUSY = 0` latches it, raises `BUSY`, clears `DONE`, `ERR_CODE` and `OUT_LEN`,
and changes nothing else. The clauses on `inputs`, `resp` and `freeCtr` frame the model's own fields
(notes/assumptions/1, 4). -/
def Obligations.CommandWriteStartsOperation : Prop :=
  ∀ (s : State) (w : Word) (rest : List Input),
    s.inputs = .bus (.write 0x00008 w) :: rest → s.busy = false →
    ∃ t, step s = .next t
      ∧ t.cmdLatch = w ∧ t.busy = true ∧ t.done = false ∧ t.errCode = 0 ∧ t.outLen = 0
      ∧ t.SameInput s ∧ t.SameKey s ∧ (∀ a, t.obuf.read a = s.obuf.read a)
      ∧ t.ieDone = s.ieDone ∧ t.ieErr = s.ieErr ∧ t.busyw = s.busyw ∧ t.scratch = s.scratch ∧ t.cfg = s.cfg
      ∧ t.inputs = rest ∧ t.resp = some (.write false) ∧ t.freeCtr = s.freeCtr

/-- R295: whenever `BUSY = 1` and the latched word is not GENKEY's, the engine's turn completes the operation.
That it is the engine's turn when no event waits is the model's choice for the fairness of R295 (notes/assumptions/1). -/
def Obligations.EveryOtherCommandCompletes : Prop :=
  ∀ s : State, s.busy = true → s.cmdLatch ≠ 0x00000002 → s.inputs = [] →
    ∃ t, step s = .next t ∧ t.busy = false ∧ t.done = true ∧ t.cmdLatch = 0 ∧ t.inputs = []

/-- R280, R282: reset, from any state and with or without a transaction in the same step, puts every element of R20 to
its reset value; an operation in flight ends without a commit and the transaction's write is lost. The parameter stays,
and so do the waiting events, the model's own field (notes/assumptions/1, 3). -/
def Obligations.ResetEndsEverything : Prop :=
  ∀ (s : State) (during : Option BusOp) (rest : List Input), s.inputs = .reset during :: rest →
    ∃ t, step s = .next t
      ∧ t.busy = false ∧ t.done = false ∧ t.busyw = false ∧ t.errCode = 0 ∧ t.ieDone = false ∧ t.ieErr = false
      ∧ t.inLen = 0 ∧ t.outLen = 0 ∧ t.keyLen = 0
      ∧ (∀ a, t.key.read a = 0) ∧ (∀ a, t.ibuf.read a = 0) ∧ (∀ a, t.obuf.read a = 0)
      ∧ t.cmdLatch = 0 ∧ t.scratch = Scratch.zero ∧ t.cfg = s.cfg ∧ t.inputs = rest
      ∧ irq t = false ∧ rndReq t = false ∧ busRead t 0x0000C = (0, false) ∧ busRead t 0x00010 = (0, false)

/-! ## DERIVE and the hash -/

/-- R135, R136: a text of `2L ≥ 2` hexadecimal digits that fits IBUF is decoded, high nibble first, to `m`, and
`SHA256(m)` becomes the key: digest byte `i` in `KEY[i]`, `KEY_LEN = 32`; no output, the text stays. -/
def Obligations.DeriveStoresDigest : Prop :=
  ∀ (s : State) (m : List Byte), s.inLen.toNat ≤ s.cfg.bufBytes → m ≠ [] → s.inLen.toNat = 2 * m.length →
    (∀ i, i < s.inLen.toNat → isHex (s.ibuf.read i) = true) →
    (∀ j, j < m.length →
      (m.getD j 0).toNat = 16 * hexval (s.ibuf.read (2 * j)) + hexval (s.ibuf.read (2 * j + 1))) →
    ∃ t, exec .derive s = .next t ∧ t.Completed s .none ∧ (sha256 m).length = 32 ∧ t.KeyIs (sha256 m) 32
      ∧ t.NoOutput ∧ t.SameInput s

/-- R132 with R138: a text that does not fit IBUF fails with CapacityExceeded, and no key is left. -/
def Obligations.DeriveRefusesLongText : Prop :=
  ∀ s : State, s.cfg.bufBytes < s.inLen.toNat →
    ∃ t, exec .derive s = .next t ∧ t.DeriveFailed s .capacityExceeded

/-- R133 with R138: a text that is empty or all whitespace fails with EmptyKey, and no key is left. -/
def Obligations.DeriveRefusesBlankText : Prop :=
  ∀ s : State, s.inLen.toNat ≤ s.cfg.bufBytes → (∀ i, i < s.inLen.toNat → isWS (s.ibuf.read i) = true) →
    ∃ t, exec .derive s = .next t ∧ t.DeriveFailed s .emptyKey

/-- R134 with R138: a text with a non-whitespace byte that is of odd length or holds a byte that is no hexadecimal digit
fails with InvalidKeyFormat, and no key is left. -/
def Obligations.DeriveRefusesBadText : Prop :=
  ∀ s : State, s.inLen.toNat ≤ s.cfg.bufBytes →
    (∃ i, i < s.inLen.toNat ∧ isWS (s.ibuf.read i) = false) →
    (s.inLen.toNat % 2 = 1 ∨ ∃ i, i < s.inLen.toNat ∧ isHex (s.ibuf.read i) = false) →
    ∃ t, exec .derive s = .next t ∧ t.DeriveFailed s .invalidKeyFormat

/-- R141: equal texts, and texts that differ only in the case of their digits, give the same key, `KEY_LEN` and error. -/
def Obligations.DeriveIgnoresDigitCase : Prop :=
  ∀ s s' t t' : State, s'.cfg = s.cfg → s'.inLen = s.inLen →
    (∀ i, i < s.inLen.toNat →
      s'.ibuf.read i = s.ibuf.read i
      ∨ (0x41 ≤ (s.ibuf.read i).toNat ∧ (s.ibuf.read i).toNat ≤ 0x46 ∧ s'.ibuf.read i = s.ibuf.read i + 0x20)
      ∨ (0x41 ≤ (s'.ibuf.read i).toNat ∧ (s'.ibuf.read i).toNat ≤ 0x46 ∧ s.ibuf.read i = s'.ibuf.read i + 0x20)) →
    exec .derive s = .next t → exec .derive s' = .next t' →
    t'.errCode = t.errCode ∧ t'.keyLen = t.keyLen ∧ ∀ a, t'.key.read a = t.key.read a

/-- R138: a DERIVE that fails leaves no key, and ENCRYPT and DECRYPT with the `KEY_LEN` it leaves, on an input that passes
their capacity check, fail with KeyLengthMismatch. -/
def Obligations.NoKeyAfterFailedDerive : Prop :=
  ∀ s t u : State, exec .derive s = .next t → t.errCode ≠ 0 →
    t.KeyErased ∧
    (u.keyLen = t.keyLen →
      (u.inLen.toNat < u.cfg.bufBytes → ∃ v, exec .encrypt u = .next v ∧ v.CommandFailed u .keyLengthMismatch)
      ∧ (u.inLen.toNat ≤ u.cfg.bufBytes → ∃ v, exec .decrypt u = .next v ∧ v.CommandFailed u .keyLengthMismatch))

/-- R154: the padded message of `L` bytes is the message, the byte `0x80`, `z < 64` zero bytes and the bit count `8L` as
8 bytes, most significant first; its length is `64 N` with `N = (L + 9 + 63) div 64`. -/
def Obligations.HashPaddingLayout : Prop :=
  ∀ m : List Byte, 8 * m.length < 2 ^ 64 →
    let pm := sha256Pad m
    let n := (m.length + 9 + 63) / 64
    pm.length = 64 * n
    ∧ m.length + 9 ≤ 64 * n ∧ 64 * n - (m.length + 9) < 64
    ∧ (∀ i, i < m.length → pm.getD i 0 = m.getD i 0)
    ∧ pm.getD m.length 0 = 0x80
    ∧ (∀ i, m.length < i → i < 64 * n - 8 → pm.getD i 0 = 0)
    ∧ (∀ k, k < 8 → (pm.getD (64 * n - 1 - k) 0).toNat = 8 * m.length / 2 ^ (8 * k) % 256)

/-- R155, R156: the schedule of a block has 64 words; the first 16 are the block's bytes, big-endian, and every later
one follows the recurrence. -/
def Obligations.HashScheduleRecurrence : Prop :=
  ∀ block : List Byte,
    let w := sha256Schedule block
    w.length = 64
    ∧ (∀ t, t < 16 → (w.getD t 0).toNat =
        (block.getD (4 * t) 0).toNat * 2 ^ 24 + (block.getD (4 * t + 1) 0).toNat * 2 ^ 16
          + (block.getD (4 * t + 2) 0).toNat * 2 ^ 8 + (block.getD (4 * t + 3) 0).toNat)
    ∧ (∀ t, 16 ≤ t → t < 64 → w.getD t 0 =
        sha256SmallSigma1 (w.getD (t - 2) 0) + w.getD (t - 7) 0 + sha256SmallSigma0 (w.getD (t - 15) 0)
          + w.getD (t - 16) 0)

/-! ## GENKEY and the entropy port -/

/-- R173, R174: with 32 bytes taken, GENKEY returns their 64 lower-case digits, high nibble first; the input and the
key stay. -/
def Obligations.GenkeyReturnsHexText : Prop :=
  ∀ s : State, s.cfg.Legal → s.scratch.drawn.length = 32 →
    ∃ t, exec .genkey s = .next t ∧ t.Completed s .none ∧ t.outLen.toNat = 64
      ∧ (∀ k, k < 32 →
          t.obuf.read (2 * k) = hexchar ((s.scratch.drawn.getD k 0).toNat / 16)
          ∧ t.obuf.read (2 * k + 1) = hexchar ((s.scratch.drawn.getD k 0).toNat % 16))
      ∧ (∀ a, 64 ≤ a → t.obuf.read a = 0)
      ∧ t.SameInput s ∧ t.SameKey s

/-- R177: a GENKEY in flight with fewer than 32 bytes taken does not complete: the engine's turn changes nothing
(a next state, by inference from R177, notes/assumptions/8). -/
def Obligations.GenkeyWaitsForEntropy : Prop :=
  ∀ (s : State) (rest : List Input), s.busy = true → s.cmdLatch = 0x00000002 → s.scratch.drawn.length < 32 →
    (s.inputs = [] → step s = .next s)
    ∧ (s.inputs = .engine :: rest → step s = .next { s with inputs := rest })

/-- R171, U22: an offered byte is taken, in arrival order, exactly while a GENKEY in flight has fewer than 32; otherwise
it has no effect. -/
def Obligations.EntropyTakenOnlyOnRequest : Prop :=
  ∀ (s : State) (b : Byte) (rest : List Input), s.inputs = .entropy b :: rest →
    ∃ t, step s = .next t
      ∧ (s.busy = true ∧ s.cmdLatch = 0x00000002 ∧ s.scratch.drawn.length < 32 →
          t = { s with inputs := rest, scratch := { s.scratch with drawn := s.scratch.drawn ++ [b] } })
      ∧ (¬(s.busy = true ∧ s.cmdLatch = 0x00000002 ∧ s.scratch.drawn.length < 32) →
          t = { s with inputs := rest })

/-- R176: a text GENKEY made from a draw `r` of 32 bytes, given to DERIVE, is accepted, and the key is `SHA256(r)`. -/
def Obligations.GeneratedTextDerivesItsDraw : Prop :=
  ∀ (s : State) (r : List Byte), s.cfg.Legal → r.length = 32 → s.inLen.toNat = 64 →
    (∀ k, k < 32 →
      s.ibuf.read (2 * k) = hexchar ((r.getD k 0).toNat / 16)
      ∧ s.ibuf.read (2 * k + 1) = hexchar ((r.getD k 0).toNat % 16)) →
    (∀ i, i < 64 → isHex (s.ibuf.read i) = true ∧ isWS (s.ibuf.read i) = false)
    ∧ ∃ t, exec .derive s = .next t ∧ t.Completed s .none ∧ t.KeyIs (sha256 r) 32 ∧ t.SameInput s

/-! ## The block cipher -/

/-- R183, R184: every byte `x` has an inverse `b` (0 for 0), `SBOX[x]` is the affine map of `b`, and `ISBOX` and `SBOX`
undo each other. -/
def Obligations.SubstitutionTablesFollowTheirRule : Prop :=
  ∀ x : Byte, isbox (sbox x) = x ∧ sbox (isbox x) = x ∧
    ∃ b : Byte, (gmul x b = 1 ∨ (x = 0 ∧ b = 0)) ∧
      sbox x = b ^^^ b.rotateLeft 1 ^^^ b.rotateLeft 2 ^^^ b.rotateLeft 3 ^^^ b.rotateLeft 4 ^^^ 0x63

/-- R187, R188: the two column mixings undo each other, on every state. -/
def Obligations.MixColumnsInverse : Prop :=
  ∀ s : AesState, invMixColumns (mixColumns s) = s ∧ mixColumns (invMixColumns s) = s

/-- R192: the key schedule of a key of 16, 24 or 32 bytes has `4 (Nr + 1)` words; the first `Nk` are the key, and every
later one is the word `Nk` before it with the rotated, substituted or plain word before it. -/
def Obligations.KeyScheduleRecurrence : Prop :=
  ∀ key : List Byte, key.length = 16 ∨ key.length = 24 ∨ key.length = 32 →
    let nk := key.length / 4
    let w := keyExpansion key
    let z : AesColumn := { r0 := 0, r1 := 0, r2 := 0, r3 := 0 }
    w.length = 4 * (nk + 6 + 1)
    ∧ (∀ i, i < nk → w.getD i z =
        { r0 := key.getD (4 * i) 0, r1 := key.getD (4 * i + 1) 0
          r2 := key.getD (4 * i + 2) 0, r3 := key.getD (4 * i + 3) 0 })
    ∧ (∀ i, nk ≤ i → i < w.length → w.getD i z = (w.getD (i - nk) z).xor
        (if i % nk = 0 then
          (subWord (rotWord (w.getD (i - 1) z))).xor { r0 := rcon (i / nk), r1 := 0, r2 := 0, r3 := 0 }
        else if 6 < nk ∧ i % nk = 4 then subWord (w.getD (i - 1) z)
        else w.getD (i - 1) z))

/-- R195: for every key of a legal length and every block, `InvCipher` and `Cipher` undo each other. -/
def Obligations.CipherAndInverseUndoEachOther : Prop :=
  ∀ key x : List Byte, key.length = 16 ∨ key.length = 24 ∨ key.length = 32 → x.length = 16 →
    let w := keyExpansion key
    let nr := key.length / 4 + 6
    invCipher (cipher x w nr) w nr = x ∧ cipher (invCipher x w nr) w nr = x

/-! ## ENCRYPT and DECRYPT -/

/-- R213, R214, R215: ENCRYPT of a plaintext shorter than `BUF_BYTES` under a key of 16, 24 or 32 bytes pads it with at
least one byte and transforms each block for itself; OBUF is zero after the ciphertext; input and key stay. -/
def Obligations.EncryptTransformsPaddedBlocks : Prop :=
  ∀ s : State, s.cfg.Legal → s.inLen.toNat < s.cfg.bufBytes → s.KeyLenOk →
    ∃ t, exec .encrypt s = .next t ∧ t.Completed s .none
      ∧ t.outLen.toNat = 16 * (s.inLen.toNat / 16 + 1)
      ∧ (∀ b k, b ≤ s.inLen.toNat / 16 → k < 16 →
          t.obuf.read (16 * b + k) = (cipher (s.paddedBlock b) s.roundKeys s.rounds).getD k 0)
      ∧ (∀ a, t.outLen.toNat ≤ a → t.obuf.read a = 0)
      ∧ t.SameInput s ∧ t.SameKey s

/-- R211, R212 with R256: a plaintext of `BUF_BYTES` bytes or more fails with CapacityExceeded, whatever the key; a
shorter one under a key length other than 16, 24, 32, compared on the full 32 bits, fails with KeyLengthMismatch. -/
def Obligations.EncryptChecksCapacityThenKeyLength : Prop :=
  ∀ s : State,
    (s.cfg.bufBytes ≤ s.inLen.toNat →
      ∃ t, exec .encrypt s = .next t ∧ t.CommandFailed s .capacityExceeded)
    ∧ (s.inLen.toNat < s.cfg.bufBytes → ¬s.KeyLenOk →
      ∃ t, exec .encrypt s = .next t ∧ t.CommandFailed s .keyLengthMismatch)

/-- R216: a successful ENCRYPT's output is longer than its input, a multiple of 16, and fits OBUF. -/
def Obligations.CiphertextLengthLaw : Prop :=
  ∀ s t : State, s.cfg.Legal → exec .encrypt s = .next t → t.errCode = 0 →
    s.inLen.toNat < t.outLen.toNat ∧ t.outLen.toNat % 16 = 0 ∧ 16 ≤ t.outLen.toNat
      ∧ t.outLen.toNat ≤ s.cfg.bufBytes

/-- R217: equal blocks of the padded plaintext give equal blocks of ciphertext. -/
def Obligations.EqualBlocksEncryptEqually : Prop :=
  ∀ (s t : State) (b1 b2 : Nat), s.cfg.Legal → exec .encrypt s = .next t → t.errCode = 0 →
    b1 ≤ s.inLen.toNat / 16 → b2 ≤ s.inLen.toNat / 16 →
    (∀ k, k < 16 → s.paddedByte (16 * b1 + k) = s.paddedByte (16 * b2 + k)) →
    ∀ k, k < 16 → t.obuf.read (16 * b1 + k) = t.obuf.read (16 * b2 + k)

/-- R224, R225, R226: DECRYPT of a non-zero number of whole blocks that fit IBUF, under a key of 16, 24 or 32 bytes and
with valid padding of `v` bytes in the inverse-transformed last block, returns the inverse-transformed bytes less the
last `v`, and zeros after them; input and key stay. -/
def Obligations.DecryptStripsPadding : Prop :=
  ∀ s : State, s.cfg.Legal → s.inLen.toNat ≤ s.cfg.bufBytes → s.KeyLenOk →
    s.inLen.toNat ≠ 0 → s.inLen.toNat % 16 = 0 → s.PadOk →
    ∃ t, exec .decrypt s = .next t ∧ t.Completed s .none
      ∧ t.outLen.toNat = s.inLen.toNat - s.foundPad
      ∧ (∀ a, a < s.inLen.toNat - s.foundPad → t.obuf.read a = s.decryptedByte a)
      ∧ (∀ a, s.inLen.toNat - s.foundPad ≤ a → t.obuf.read a = 0)
      ∧ t.SameInput s ∧ t.SameKey s

/-- R225 with R256: where the padding found is not valid, DECRYPT fails with InvalidPadding and shows nothing. -/
def Obligations.DecryptRefusesBadPadding : Prop :=
  ∀ s : State, s.inLen.toNat ≤ s.cfg.bufBytes → s.KeyLenOk →
    s.inLen.toNat ≠ 0 → s.inLen.toNat % 16 = 0 → ¬s.PadOk →
    ∃ t, exec .decrypt s = .next t ∧ t.CommandFailed s .invalidPadding

/-- R221, R222, R223 with R256, in this priority: a ciphertext longer than `BUF_BYTES` fails with CapacityExceeded; one
that fits, under a key length other than 16, 24, 32, with KeyLengthMismatch; one that fits, under a legal key length, but
whose length is 0 or no multiple of 16, with MalformedCiphertext. -/
def Obligations.DecryptChecksBeforeTheTransform : Prop :=
  ∀ s : State,
    (s.cfg.bufBytes < s.inLen.toNat →
      ∃ t, exec .decrypt s = .next t ∧ t.CommandFailed s .capacityExceeded)
    ∧ (s.inLen.toNat ≤ s.cfg.bufBytes → ¬s.KeyLenOk →
      ∃ t, exec .decrypt s = .next t ∧ t.CommandFailed s .keyLengthMismatch)
    ∧ (s.inLen.toNat ≤ s.cfg.bufBytes → s.KeyLenOk → (s.inLen.toNat = 0 ∨ s.inLen.toNat % 16 ≠ 0) →
      ∃ t, exec .decrypt s = .next t ∧ t.CommandFailed s .malformedCiphertext)

/-- R227: what ENCRYPT of a plaintext left in OBUF, given back to DECRYPT under the same key, is accepted, and the
plaintext is returned, for all three key lengths and for every plaintext that fits, the empty one included. -/
def Obligations.DecryptReturnsThePlaintext : Prop :=
  ∀ s t u : State, s.cfg.Legal → s.inLen.toNat < s.cfg.bufBytes → s.KeyLenOk → exec .encrypt s = .next t →
    u.cfg = s.cfg → u.inLen = t.outLen → (∀ a, a < t.outLen.toNat → u.ibuf.read a = t.obuf.read a) →
    u.keyLen = s.keyLen → (∀ a, a < s.keyLen.toNat → u.key.read a = s.key.read a) →
    ∃ v, exec .decrypt u = .next v ∧ v.errCode = 0 ∧ v.outLen = s.inLen
      ∧ (∀ a, a < s.inLen.toNat → v.obuf.read a = s.ibuf.read a)
      ∧ ∀ a, s.inLen.toNat ≤ a → v.obuf.read a = 0

/-! ## CLEAR and reserved words -/

/-- R240, R241: CLEAR zeroises OBUF and `OUT_LEN`, with CI also IBUF and `IN_LEN`, with CK also the key bank and
`KEY_LEN`, and raises no error; what a select bit does not name stays; a second CLEAR with the same bits changes
nothing more. -/
def Obligations.ClearErasesWhatIsSelected : Prop :=
  ∀ (ci ck : Bool) (s : State),
    ∃ t, exec (.clear ci ck) s = .next t ∧ t.Completed s .none ∧ t.NoOutput
      ∧ (ci = true → t.InputErased) ∧ (ci = false → t.SameInput s)
      ∧ (ck = true → t.KeyErased) ∧ (ck = false → t.SameKey s)
      ∧ exec (.clear ci ck) t = .next t

/-- R242: a reserved word, written to CMD of an idle machine, starts an operation that asks for no entropy and whose
completion is BadCommand with no output, whatever the operands; the key and the input stay as they were. -/
def Obligations.ReservedWordEndsInBadCommand : Prop :=
  ∀ (s : State) (w : Word) (rest : List Input), s.busy = false → (∀ i, decode w ≠ .ok i) →
    s.inputs = .bus (.write 0x00008 w) :: .engine :: rest →
    ∃ u t, step s = .next u ∧ u.busy = true ∧ u.done = false ∧ u.errCode = 0 ∧ u.outLen = 0 ∧ rndReq u = false
      ∧ step u = .next t
      ∧ t.CommandFailed { s with inputs := rest, resp := some (.write false) } .badCommand

/-! ## Errors -/

/-- R251: which command can end with which code (a GENKEY that still waits ends with none). -/
def Obligations.ErrorCodesOfEachCommand : Prop :=
  ∀ s t : State,
    (exec .derive s = .next t → t.errCode = 0 ∨ t.errCode = 1 ∨ t.errCode = 2 ∨ t.errCode = 6)
    ∧ (exec .genkey s = .next t → 32 ≤ s.scratch.drawn.length → t.errCode = 0)
    ∧ (exec .encrypt s = .next t → t.errCode = 0 ∨ t.errCode = 3 ∨ t.errCode = 6)
    ∧ (exec .decrypt s = .next t →
        t.errCode = 0 ∨ t.errCode = 3 ∨ t.errCode = 4 ∨ t.errCode = 5 ∨ t.errCode = 6)
    ∧ (∀ ci ck, exec (.clear ci ck) s = .next t → t.errCode = 0)

/-- R256, R257: an operation that completes with an error leaves no output and the input as it was; a failed DERIVE leaves
no key, every other failed command and every reserved word the key it found. -/
def Obligations.FailureLeavesNoTrace : Prop :=
  ∀ s t : State, s.busy = true → s.inputs = [] → step s = .next t → t.busy = false → t.errCode ≠ 0 →
    t.done = true ∧ t.NoOutput ∧ t.SameInput s ∧ t.busyw = s.busyw
      ∧ t.ieDone = s.ieDone ∧ t.ieErr = s.ieErr ∧ t.scratch = Scratch.zero
      ∧ (s.cmdLatch = 0x00000001 → t.KeyErased) ∧ (s.cmdLatch ≠ 0x00000001 → t.SameKey s)

/-- R283: the first command after reset, whatever the legal parameter: DERIVE gives EmptyKey, ENCRYPT and DECRYPT give
KeyLengthMismatch, GENKEY (with its 32 bytes) and CLEAR succeed, a reserved word gives BadCommand. That `exec` is the
completion also of a state with no operation in flight is the model's choice (notes/assumptions/10), and so is that the
engine's turn comes when no event waits, in the last clause (notes/assumptions/1). -/
def Obligations.FirstCommandAfterReset : Prop :=
  ∀ (c : Config) (r : List Byte) (ci ck : Bool), c.Legal → r.length = 32 →
    let s := State.resetOf c
    (∃ t, exec .derive s = .next t ∧ t.errCode = 1)
    ∧ (∃ t, exec .encrypt s = .next t ∧ t.errCode = 3)
    ∧ (∃ t, exec .decrypt s = .next t ∧ t.errCode = 3)
    ∧ (∃ t, exec .genkey { s with scratch := { s.scratch with drawn := r } } = .next t ∧ t.errCode = 0)
    ∧ (∃ t, exec (.clear ci ck) s = .next t ∧ t.errCode = 0)
    ∧ ∀ w, (∀ i, decode w ≠ .ok i) → ∃ t, step (startStep w s) = .next t ∧ t.errCode = 7

/-! ## What a command may read and write -/

/-- R90, R18, R230: DERIVE, ENCRYPT and DECRYPT are functions of `IN_LEN`, `KEY_LEN`, the bytes of IBUF below `IN_LEN`
and of KEY below `KEY_LEN`: two states that agree on those (and on the parameter) end with the same error, the same
output and, for DERIVE, the same key, whatever else they hold. -/
def Obligations.CommandsReadOnlyTheirOperands : Prop :=
  ∀ (i : Instr) (s s' t t' : State), i = .derive ∨ i = .encrypt ∨ i = .decrypt →
    s'.cfg = s.cfg → s'.inLen = s.inLen → s'.keyLen = s.keyLen →
    (∀ a, a < s.inLen.toNat → s'.ibuf.read a = s.ibuf.read a) →
    (∀ a, a < s.keyLen.toNat → s'.key.read a = s.key.read a) →
    exec i s = .next t → exec i s' = .next t' →
    t'.errCode = t.errCode ∧ t'.outLen = t.outLen ∧ (∀ a, t'.obuf.read a = t.obuf.read a)
      ∧ (i = .derive → t'.keyLen = t.keyLen ∧ ∀ a, t'.key.read a = t.key.read a)

/-- R35, R90, R291: no command but CLEAR with CI writes IBUF or `IN_LEN`; no command but DERIVE and CLEAR with CK writes
the key bank or `KEY_LEN`; no command touches `BUSYW`, IEN or the parameter. -/
def Obligations.CommandsWriteOnlyTheirResults : Prop :=
  ∀ (i : Instr) (s t : State), exec i s = .next t →
    ((∀ ck, i ≠ .clear true ck) → t.SameInput s)
    ∧ (i ≠ .derive → (∀ ci, i ≠ .clear ci true) → t.SameKey s)
    ∧ t.busyw = s.busyw ∧ t.ieDone = s.ieDone ∧ t.ieErr = s.ieErr ∧ t.cfg = s.cfg

/-! ## The bus -/

/-- R77, R73: what each location reads as while `BUSY = 0`, the windows little-endian. -/
def Obligations.IdleReadsShowTheState : Prop :=
  ∀ s : State, s.busy = false → s.cfg.Legal →
    busRead s 0x00000 = (0x4B440701, false)
    ∧ busRead s 0x00004 = (BitVec.ofNat 32 s.cfg.bufBytes, false)
    ∧ busRead s 0x00008 = (0, false)
    ∧ busRead s 0x0000C =
        (BitVec.ofNat 32 (2 * s.done.toNat + 4 * (if s.errCode = 0 then 0 else 1) + 8 * s.busyw.toNat), false)
    ∧ busRead s 0x00010 = (BitVec.ofNat 32 s.errCode.toNat, false)
    ∧ busRead s 0x00014 = (BitVec.ofNat 32 (s.ieDone.toNat + 2 * s.ieErr.toNat), false)
    ∧ busRead s 0x00018 = (s.inLen, false)
    ∧ busRead s 0x0001C = (s.outLen, false)
    ∧ busRead s 0x00020 = (s.keyLen, false)
    ∧ (∀ (a : BusAddr) (j : Nat), j < 8 → a.toNat = 0x00040 + 4 * j →
        (busRead s a).2 = false ∧ (busRead s a).1.toNat =
          (s.key.read (4 * j)).toNat + (s.key.read (4 * j + 1)).toNat * 2 ^ 8
            + (s.key.read (4 * j + 2)).toNat * 2 ^ 16 + (s.key.read (4 * j + 3)).toNat * 2 ^ 24)
    ∧ (∀ (a : BusAddr) (j : Nat), 4 * j < s.cfg.bufBytes → a.toNat = 0x10000 + 4 * j →
        (busRead s a).2 = false ∧ (busRead s a).1.toNat =
          (s.ibuf.read (4 * j)).toNat + (s.ibuf.read (4 * j + 1)).toNat * 2 ^ 8
            + (s.ibuf.read (4 * j + 2)).toNat * 2 ^ 16 + (s.ibuf.read (4 * j + 3)).toNat * 2 ^ 24)
    ∧ (∀ (a : BusAddr) (j : Nat), 4 * j < s.cfg.bufBytes → a.toNat = 0x20000 + 4 * j →
        (busRead s a).2 = false ∧ (busRead s a).1.toNat =
          (s.obuf.read (4 * j)).toNat + (s.obuf.read (4 * j + 1)).toNat * 2 ^ 8
            + (s.obuf.read (4 * j + 2)).toNat * 2 ^ 16 + (s.obuf.read (4 * j + 3)).toNat * 2 ^ 24)

/-- R82: while `BUSY = 1` the key bank and the two windows read 0 without a bus error, whatever they hold; the other
registers read as they do when idle (STATUS with `BUSY` in bit 0), and in every state of the invariant `DONE`, ERR and
OUT_LEN are then 0. -/
def Obligations.BusyReadsAreMasked : Prop :=
  ∀ s : State, s.busy = true → s.cfg.Legal →
    (∀ a : BusAddr, a.toNat % 4 = 0 →
      (0x40 ≤ a.toNat ∧ a.toNat < 0x60) ∨ (0x10000 ≤ a.toNat ∧ a.toNat < 0x10000 + s.cfg.bufBytes)
        ∨ (0x20000 ≤ a.toNat ∧ a.toNat < 0x20000 + s.cfg.bufBytes) →
      busRead s a = (0, false))
    ∧ busRead s 0x00000 = (0x4B440701, false)
    ∧ busRead s 0x00004 = (BitVec.ofNat 32 s.cfg.bufBytes, false)
    ∧ busRead s 0x00008 = (0, false)
    ∧ busRead s 0x0000C =
        (BitVec.ofNat 32 (1 + 2 * s.done.toNat + 4 * (if s.errCode = 0 then 0 else 1) + 8 * s.busyw.toNat), false)
    ∧ busRead s 0x00010 = (BitVec.ofNat 32 s.errCode.toNat, false)
    ∧ busRead s 0x00014 = (BitVec.ofNat 32 (s.ieDone.toNat + 2 * s.ieErr.toNat), false)
    ∧ busRead s 0x00018 = (s.inLen, false)
    ∧ busRead s 0x0001C = (s.outLen, false)
    ∧ busRead s 0x00020 = (s.keyLen, false)
    ∧ (s.Inv → s.done = false ∧ busRead s 0x00010 = (0, false) ∧ busRead s 0x0001C = (0, false))

/-- R80: a read, of any address and at any time, changes nothing but the response the host sees. -/
def Obligations.ReadsChangeNothing : Prop :=
  ∀ (s : State) (a : BusAddr) (rest : List Input), s.inputs = .bus (.read a) :: rest →
    step s = .next { s with inputs := rest, resp := some (.read (busRead s a).1 (busRead s a).2) }

/-- R74, R75: a transaction to a misaligned address or to one the map does not list answers `err = 1` (a read with data
0) and changes no state, whether or not an operation is in flight. The data 0 is what R74 and R75 say, against D26's "no
defined data" (the model's reading, notes/assumptions/7). -/
def Obligations.UnmappedAccessesAnswerError : Prop :=
  ∀ (s : State) (a : BusAddr) (v : Word) (rest : List Input), ¬MappedAddress s.cfg.bufBytes a.toNat →
    (s.inputs = .bus (.read a) :: rest →
      step s = .next { s with inputs := rest, resp := some (.read 0 true) })
    ∧ (s.inputs = .bus (.write a v) :: rest →
      step s = .next { s with inputs := rest, resp := some (.write true) })

/-- R24, R30, R78: writes to STATUS and IEN act whether or not an operation is in flight: STATUS bit 1 clears `DONE`, bit
3 clears `BUSYW`; IEN bits 0 and 1 are stored; no other bit and no other state is affected. -/
def Obligations.ControlWritesActAtAnyTime : Prop :=
  ∀ (s : State) (v : Word) (rest : List Input),
    (s.inputs = .bus (.write 0x0000C v) :: rest →
      step s = .next { s with
        inputs := rest
        resp := some (.write false)
        done := if v.toNat / 2 % 2 = 1 then false else s.done
        busyw := if v.toNat / 8 % 2 = 1 then false else s.busyw })
    ∧ (s.inputs = .bus (.write 0x00014 v) :: rest →
      step s = .next { s with
        inputs := rest
        resp := some (.write false)
        ieDone := decide (v.toNat % 2 = 1)
        ieErr := decide (v.toNat / 2 % 2 = 1) })

/-- R31, R33, R78: a write to `IN_LEN` or `KEY_LEN` of an idle machine stores all 32 bits and nothing else. -/
def Obligations.LengthWritesStoreTheWord : Prop :=
  ∀ (s : State) (v : Word) (rest : List Input), s.busy = false →
    (s.inputs = .bus (.write 0x00018 v) :: rest →
      step s = .next { s with inputs := rest, resp := some (.write false), inLen := v })
    ∧ (s.inputs = .bus (.write 0x00020 v) :: rest →
      step s = .next { s with inputs := rest, resp := some (.write false), keyLen := v })

/-- R73, R78: a write to word `j` of the key bank or of the IBUF window of an idle machine stores its four bytes, least
significant first, at the indices `4j` to `4j + 3`; every other byte and everything else stays. -/
def Obligations.WindowWritesStoreFourBytes : Prop :=
  ∀ (s : State) (a : BusAddr) (v : Word) (j : Nat) (rest : List Input), s.Inv → s.busy = false →
    s.inputs = .bus (.write a v) :: rest →
    (j < 8 → a.toNat = 0x00040 + 4 * j →
      ∃ t, step s = .next t ∧ t.inputs = rest ∧ t.resp = some (.write false)
        ∧ (∀ k, k < 4 → (t.key.read (4 * j + k)).toNat = v.toNat / 2 ^ (8 * k) % 256)
        ∧ (∀ i, i < 4 * j ∨ 4 * j + 4 ≤ i → t.key.read i = s.key.read i)
        ∧ t.keyLen = s.keyLen ∧ t.SameInput s ∧ t.SameOutput s ∧ t.SameControl s ∧ t.cfg = s.cfg
        ∧ t.freeCtr = s.freeCtr)
    ∧ (4 * j < s.cfg.bufBytes → a.toNat = 0x10000 + 4 * j →
      ∃ t, step s = .next t ∧ t.inputs = rest ∧ t.resp = some (.write false)
        ∧ (∀ k, k < 4 → (t.ibuf.read (4 * j + k)).toNat = v.toNat / 2 ^ (8 * k) % 256)
        ∧ (∀ i, i < 4 * j ∨ 4 * j + 4 ≤ i → t.ibuf.read i = s.ibuf.read i)
        ∧ t.inLen = s.inLen ∧ t.SameKey s ∧ t.SameOutput s ∧ t.SameControl s ∧ t.cfg = s.cfg
        ∧ t.freeCtr = s.freeCtr)

/-- R108, R73: the writes of the pseudo-operation `LDI b`, run by an idle machine, put the bytes of `b` into IBUF (zeros
up to the end of the last word, everything beyond as it was) and its length into `IN_LEN`; those of `LDK k` do the same
for the key bank and `KEY_LEN`; nothing else changes. -/
def Obligations.LoadingPlacesTheBytes : Prop :=
  ∀ (s : State) (b : List Byte) (rest : List Input), s.Inv → s.busy = false →
    let n := (b.length + 3) / 4
    (b.length ≤ s.cfg.bufBytes → s.inputs = hostEvents (DriverOp.ldi b).expand ++ rest →
      ∃ t : State, Host.Core.run Sys2Proof.core (n + 1) s = .next t ∧ t.inputs = rest ∧ t.inLen.toNat = b.length
        ∧ (∀ i, i < b.length → t.ibuf.read i = b.getD i 0)
        ∧ (∀ i, b.length ≤ i → i < 4 * n → t.ibuf.read i = 0)
        ∧ (∀ i, 4 * n ≤ i → t.ibuf.read i = s.ibuf.read i)
        ∧ t.SameKey s ∧ t.SameOutput s ∧ t.SameControl s ∧ t.cfg = s.cfg)
    ∧ (b.length ≤ 32 → s.inputs = hostEvents (DriverOp.ldk b).expand ++ rest →
      ∃ t : State, Host.Core.run Sys2Proof.core (n + 1) s = .next t ∧ t.inputs = rest ∧ t.keyLen.toNat = b.length
        ∧ (∀ i, i < b.length → t.key.read i = b.getD i 0)
        ∧ (∀ i, b.length ≤ i → i < 4 * n → t.key.read i = 0)
        ∧ (∀ i, 4 * n ≤ i → t.key.read i = s.key.read i)
        ∧ t.SameInput s ∧ t.SameOutput s ∧ t.SameControl s ∧ t.cfg = s.cfg)

/-- R79: a write to a read-only location answers `err = 0` and changes nothing, busy or not; it does not set `BUSYW`. -/
def Obligations.ReadOnlyWritesAreIgnored : Prop :=
  ∀ (s : State) (a : BusAddr) (v : Word) (rest : List Input), s.cfg.Legal →
    s.inputs = .bus (.write a v) :: rest → ReadOnlyAddress s.cfg.bufBytes a.toNat →
    step s = .next { s with inputs := rest, resp := some (.write false) }

/-- R81: while `BUSY = 1` a write to CMD, IN_LEN, KEY_LEN, the key bank or the IBUF window answers `err = 0`, sets
`BUSYW` and changes nothing else: no second command, no changed operand. -/
def Obligations.BusyWritesAreDropped : Prop :=
  ∀ (s : State) (a : BusAddr) (v : Word) (rest : List Input), s.cfg.Legal → s.busy = true →
    s.inputs = .bus (.write a v) :: rest → OperandAddress s.cfg.bufBytes a.toNat →
    step s = .next { s with inputs := rest, resp := some (.write false), busyw := true }

/-! ## The interrupt -/

/-- R260: with `IE_DONE` every completion raises `irq`, with `IE_ERR` alone only one with an error, with neither none. -/
def Obligations.CompletionRaisesInterrupt : Prop :=
  ∀ (i : Instr) (s t : State), exec i s = .next t → (i = .genkey → 32 ≤ s.scratch.drawn.length) →
    (s.ieDone = true → irq t = true)
    ∧ (s.ieDone = false → s.ieErr = true → (irq t = true ↔ t.errCode ≠ 0))
    ∧ (s.ieDone = false → s.ieErr = false → irq t = false)

/-- R41, R261: `irq` is low whenever `DONE = 0`, so a write of 1 to STATUS bit 1 and a start step drop it; writing IEN
bit 0 while `DONE = 1` raises it at once, and clearing both bits masks it without clearing `DONE`. -/
def Obligations.InterruptFollowsDoneAndEnables : Prop :=
  ∀ (s : State) (v : Word),
    (irq s = true ↔ s.done = true ∧ (s.ieDone = true ∨ (s.ieErr = true ∧ s.errCode ≠ 0)))
    ∧ (v.getLsbD 1 = true → irq (busWrite s 0x0000C v).1 = false)
    ∧ (s.busy = false → irq (busWrite s 0x00008 v).1 = false)
    ∧ (s.done = true → v.getLsbD 0 = true → irq (busWrite s 0x00014 v).1 = true)
    ∧ (v.getLsbD 0 = false → v.getLsbD 1 = false →
        irq (busWrite s 0x00014 v).1 = false ∧ (busWrite s 0x00014 v).1.done = s.done)

/-! ## Rules about the whole machine -/

/-- R25: nothing but a start step, a completion and reset changes `BUSY`. -/
def Obligations.OnlyThreeStepsChangeBusy : Prop :=
  ∀ s t : State, step s = .next t → t.busy ≠ s.busy →
    (s.busy = false ∧ ∃ w rest, s.inputs = .bus (.write 0x00008 w) :: rest ∧ t.cmdLatch = w)
    ∨ (s.busy = true ∧ t.done = true ∧ (s.inputs = [] ∨ ∃ rest, s.inputs = .engine :: rest))
    ∨ ∃ during rest, s.inputs = .reset during :: rest

/-- R28: `BUSYW` is set only by a dropped write, that is while `BUSY = 1` and to an operand or command location; it is
cleared only by a write of 1 to STATUS bit 3 and by reset. -/
def Obligations.OnlyDroppedWritesSetBusyw : Prop :=
  ∀ s t : State, step s = .next t →
    (s.busyw = false → t.busyw = true → s.busy = true
      ∧ ∃ a v rest, s.inputs = .bus (.write a v) :: rest ∧ OperandAddress s.cfg.bufBytes a.toNat)
    ∧ (s.busyw = true → t.busyw = false →
      (∃ v rest, s.inputs = .bus (.write 0x0000C v) :: rest ∧ v.getLsbD 3 = true)
      ∨ ∃ during rest, s.inputs = .reset during :: rest)

/-- R29, R258, R293: `ERR_CODE` is changed only by a start step (to 0), by a completion and by reset; in particular
clearing `DONE` leaves it. -/
def Obligations.OnlyCommandsChangeErrorCode : Prop :=
  ∀ s t : State, step s = .next t → t.errCode ≠ s.errCode →
    (s.busy = false ∧ t.busy = true ∧ t.errCode = 0)
    ∨ (s.busy = true ∧ t.busy = false ∧ t.done = true)
    ∨ ∃ during rest, s.inputs = .reset during :: rest

/-- R39, R81, R87: while an operation stays in flight no step changes its word or its operands, whatever the host
writes; nor does OBUF change before the commit (R86). -/
def Obligations.OperandsAreFixedInFlight : Prop :=
  ∀ s t : State, s.busy = true → step s = .next t → t.busy = true →
    t.cmdLatch = s.cmdLatch ∧ t.SameInput s ∧ t.SameKey s ∧ t.SameOutput s ∧ t.errCode = s.errCode

/-- No step but reset changes a key byte or `KEY_LEN` of an idle machine except a host write to the bank or to
`KEY_LEN`; a running machine's key changes only at a completion or at reset (R34, R232, R289). -/
def Obligations.OnlyNamedStepsChangeTheKey : Prop :=
  ∀ s t : State, step s = .next t → ¬t.SameKey s →
    (s.busy = false ∧ ∃ a v rest, s.inputs = .bus (.write a v) :: rest
      ∧ (a.toNat = 0x20 ∨ (0x40 ≤ a.toNat ∧ a.toNat < 0x60)))
    ∨ (s.busy = true ∧ t.busy = false ∧ (s.cmdLatch = 0x00000001 ∨ s.cmdLatch = 0x00000205 ∨ s.cmdLatch = 0x00000305))
    ∨ ∃ during rest, s.inputs = .reset during :: rest
end

