-- ==== Sys2Proof/Laws/State.lean ====
section
/-! SUPPORT. One lemma per field and update of the state, each true by definition, so that no proof unfolds a record
update. -/

namespace Sys2Proof.Machine

@[simp] theorem startStep_cfg (w : Word) (s : State) : (startStep w s).cfg = s.cfg := rfl
@[simp] theorem startStep_busy (w : Word) (s : State) : (startStep w s).busy = true := rfl
@[simp] theorem startStep_done (w : Word) (s : State) : (startStep w s).done = false := rfl
@[simp] theorem startStep_busyw (w : Word) (s : State) : (startStep w s).busyw = s.busyw := rfl
@[simp] theorem startStep_errCode (w : Word) (s : State) : (startStep w s).errCode = 0 := rfl
@[simp] theorem startStep_ieDone (w : Word) (s : State) : (startStep w s).ieDone = s.ieDone := rfl
@[simp] theorem startStep_ieErr (w : Word) (s : State) : (startStep w s).ieErr = s.ieErr := rfl
@[simp] theorem startStep_inLen (w : Word) (s : State) : (startStep w s).inLen = s.inLen := rfl
@[simp] theorem startStep_outLen (w : Word) (s : State) : (startStep w s).outLen = 0 := rfl
@[simp] theorem startStep_keyLen (w : Word) (s : State) : (startStep w s).keyLen = s.keyLen := rfl
@[simp] theorem startStep_key (w : Word) (s : State) : (startStep w s).key = s.key := rfl
@[simp] theorem startStep_ibuf (w : Word) (s : State) : (startStep w s).ibuf = s.ibuf := rfl
@[simp] theorem startStep_obuf (w : Word) (s : State) : (startStep w s).obuf = s.obuf := rfl
@[simp] theorem startStep_cmdLatch (w : Word) (s : State) : (startStep w s).cmdLatch = w := rfl
@[simp] theorem startStep_scratch (w : Word) (s : State) : (startStep w s).scratch = s.scratch := rfl
@[simp] theorem startStep_inputs (w : Word) (s : State) : (startStep w s).inputs = s.inputs := rfl
@[simp] theorem startStep_resp (w : Word) (s : State) : (startStep w s).resp = s.resp := rfl
@[simp] theorem startStep_freeCtr (w : Word) (s : State) : (startStep w s).freeCtr = s.freeCtr := rfl

@[simp] theorem commit_cfg (r : Result) (s : State) : (commit r s).cfg = s.cfg := rfl
@[simp] theorem commit_busy (r : Result) (s : State) : (commit r s).busy = false := rfl
@[simp] theorem commit_done (r : Result) (s : State) : (commit r s).done = true := rfl
@[simp] theorem commit_busyw (r : Result) (s : State) : (commit r s).busyw = s.busyw := rfl
@[simp] theorem commit_errCode (r : Result) (s : State) : (commit r s).errCode = errNumber r.err := rfl
@[simp] theorem commit_ieDone (r : Result) (s : State) : (commit r s).ieDone = s.ieDone := rfl
@[simp] theorem commit_ieErr (r : Result) (s : State) : (commit r s).ieErr = s.ieErr := rfl
@[simp] theorem commit_inLen (r : Result) (s : State) : (commit r s).inLen = if r.zeroIbuf then 0 else s.inLen := rfl
@[simp] theorem commit_outLen (r : Result) (s : State) : (commit r s).outLen = BitVec.ofNat 32 r.out.length := rfl
@[simp] theorem commit_keyLen (r : Result) (s : State) : (commit r s).keyLen = committedKeyLen r s := rfl
@[simp] theorem commit_key (r : Result) (s : State) : (commit r s).key = committedKey r s := rfl
@[simp] theorem commit_ibuf (r : Result) (s : State) : (commit r s).ibuf = if r.zeroIbuf then Memory.zeros else s.ibuf := rfl
@[simp] theorem commit_obuf (r : Result) (s : State) : (commit r s).obuf = Memory.ofBytes (r.out.take s.cfg.bufBytes) := rfl
@[simp] theorem commit_cmdLatch (r : Result) (s : State) : (commit r s).cmdLatch = 0 := rfl
@[simp] theorem commit_scratch (r : Result) (s : State) : (commit r s).scratch = Scratch.zero := rfl
@[simp] theorem commit_inputs (r : Result) (s : State) : (commit r s).inputs = s.inputs := rfl
@[simp] theorem commit_resp (r : Result) (s : State) : (commit r s).resp = s.resp := rfl
@[simp] theorem commit_freeCtr (r : Result) (s : State) : (commit r s).freeCtr = s.freeCtr := rfl

@[simp] theorem writeStatus_cfg (v : Word) (s : State) : (writeStatus v s).cfg = s.cfg := rfl
@[simp] theorem writeStatus_busy (v : Word) (s : State) : (writeStatus v s).busy = s.busy := rfl
@[simp] theorem writeStatus_done (v : Word) (s : State) : (writeStatus v s).done = (s.done && !v.getLsbD 1) := rfl
@[simp] theorem writeStatus_busyw (v : Word) (s : State) : (writeStatus v s).busyw = (s.busyw && !v.getLsbD 3) := rfl
@[simp] theorem writeStatus_errCode (v : Word) (s : State) : (writeStatus v s).errCode = s.errCode := rfl
@[simp] theorem writeStatus_ieDone (v : Word) (s : State) : (writeStatus v s).ieDone = s.ieDone := rfl
@[simp] theorem writeStatus_ieErr (v : Word) (s : State) : (writeStatus v s).ieErr = s.ieErr := rfl
@[simp] theorem writeStatus_inLen (v : Word) (s : State) : (writeStatus v s).inLen = s.inLen := rfl
@[simp] theorem writeStatus_outLen (v : Word) (s : State) : (writeStatus v s).outLen = s.outLen := rfl
@[simp] theorem writeStatus_keyLen (v : Word) (s : State) : (writeStatus v s).keyLen = s.keyLen := rfl
@[simp] theorem writeStatus_key (v : Word) (s : State) : (writeStatus v s).key = s.key := rfl
@[simp] theorem writeStatus_ibuf (v : Word) (s : State) : (writeStatus v s).ibuf = s.ibuf := rfl
@[simp] theorem writeStatus_obuf (v : Word) (s : State) : (writeStatus v s).obuf = s.obuf := rfl
@[simp] theorem writeStatus_cmdLatch (v : Word) (s : State) : (writeStatus v s).cmdLatch = s.cmdLatch := rfl
@[simp] theorem writeStatus_scratch (v : Word) (s : State) : (writeStatus v s).scratch = s.scratch := rfl
@[simp] theorem writeStatus_inputs (v : Word) (s : State) : (writeStatus v s).inputs = s.inputs := rfl
@[simp] theorem writeStatus_resp (v : Word) (s : State) : (writeStatus v s).resp = s.resp := rfl
@[simp] theorem writeStatus_freeCtr (v : Word) (s : State) : (writeStatus v s).freeCtr = s.freeCtr := rfl

@[simp] theorem writeIen_cfg (v : Word) (s : State) : (writeIen v s).cfg = s.cfg := rfl
@[simp] theorem writeIen_busy (v : Word) (s : State) : (writeIen v s).busy = s.busy := rfl
@[simp] theorem writeIen_done (v : Word) (s : State) : (writeIen v s).done = s.done := rfl
@[simp] theorem writeIen_busyw (v : Word) (s : State) : (writeIen v s).busyw = s.busyw := rfl
@[simp] theorem writeIen_errCode (v : Word) (s : State) : (writeIen v s).errCode = s.errCode := rfl
@[simp] theorem writeIen_ieDone (v : Word) (s : State) : (writeIen v s).ieDone = v.getLsbD 0 := rfl
@[simp] theorem writeIen_ieErr (v : Word) (s : State) : (writeIen v s).ieErr = v.getLsbD 1 := rfl
@[simp] theorem writeIen_inLen (v : Word) (s : State) : (writeIen v s).inLen = s.inLen := rfl
@[simp] theorem writeIen_outLen (v : Word) (s : State) : (writeIen v s).outLen = s.outLen := rfl
@[simp] theorem writeIen_keyLen (v : Word) (s : State) : (writeIen v s).keyLen = s.keyLen := rfl
@[simp] theorem writeIen_key (v : Word) (s : State) : (writeIen v s).key = s.key := rfl
@[simp] theorem writeIen_ibuf (v : Word) (s : State) : (writeIen v s).ibuf = s.ibuf := rfl
@[simp] theorem writeIen_obuf (v : Word) (s : State) : (writeIen v s).obuf = s.obuf := rfl
@[simp] theorem writeIen_cmdLatch (v : Word) (s : State) : (writeIen v s).cmdLatch = s.cmdLatch := rfl
@[simp] theorem writeIen_scratch (v : Word) (s : State) : (writeIen v s).scratch = s.scratch := rfl
@[simp] theorem writeIen_inputs (v : Word) (s : State) : (writeIen v s).inputs = s.inputs := rfl
@[simp] theorem writeIen_resp (v : Word) (s : State) : (writeIen v s).resp = s.resp := rfl
@[simp] theorem writeIen_freeCtr (v : Word) (s : State) : (writeIen v s).freeCtr = s.freeCtr := rfl

@[simp] theorem dropWrite_cfg (s : State) : (dropWrite s).cfg = s.cfg := rfl
@[simp] theorem dropWrite_busy (s : State) : (dropWrite s).busy = s.busy := rfl
@[simp] theorem dropWrite_done (s : State) : (dropWrite s).done = s.done := rfl
@[simp] theorem dropWrite_busyw (s : State) : (dropWrite s).busyw = true := rfl
@[simp] theorem dropWrite_errCode (s : State) : (dropWrite s).errCode = s.errCode := rfl
@[simp] theorem dropWrite_ieDone (s : State) : (dropWrite s).ieDone = s.ieDone := rfl
@[simp] theorem dropWrite_ieErr (s : State) : (dropWrite s).ieErr = s.ieErr := rfl
@[simp] theorem dropWrite_inLen (s : State) : (dropWrite s).inLen = s.inLen := rfl
@[simp] theorem dropWrite_outLen (s : State) : (dropWrite s).outLen = s.outLen := rfl
@[simp] theorem dropWrite_keyLen (s : State) : (dropWrite s).keyLen = s.keyLen := rfl
@[simp] theorem dropWrite_key (s : State) : (dropWrite s).key = s.key := rfl
@[simp] theorem dropWrite_ibuf (s : State) : (dropWrite s).ibuf = s.ibuf := rfl
@[simp] theorem dropWrite_obuf (s : State) : (dropWrite s).obuf = s.obuf := rfl
@[simp] theorem dropWrite_cmdLatch (s : State) : (dropWrite s).cmdLatch = s.cmdLatch := rfl
@[simp] theorem dropWrite_scratch (s : State) : (dropWrite s).scratch = s.scratch := rfl
@[simp] theorem dropWrite_inputs (s : State) : (dropWrite s).inputs = s.inputs := rfl
@[simp] theorem dropWrite_resp (s : State) : (dropWrite s).resp = s.resp := rfl
@[simp] theorem dropWrite_freeCtr (s : State) : (dropWrite s).freeCtr = s.freeCtr := rfl

@[simp] theorem resetStep_cfg (s : State) : (resetStep s).cfg = s.cfg := rfl
@[simp] theorem resetStep_busy (s : State) : (resetStep s).busy = false := rfl
@[simp] theorem resetStep_done (s : State) : (resetStep s).done = false := rfl
@[simp] theorem resetStep_busyw (s : State) : (resetStep s).busyw = false := rfl
@[simp] theorem resetStep_errCode (s : State) : (resetStep s).errCode = 0 := rfl
@[simp] theorem resetStep_ieDone (s : State) : (resetStep s).ieDone = false := rfl
@[simp] theorem resetStep_ieErr (s : State) : (resetStep s).ieErr = false := rfl
@[simp] theorem resetStep_inLen (s : State) : (resetStep s).inLen = 0 := rfl
@[simp] theorem resetStep_outLen (s : State) : (resetStep s).outLen = 0 := rfl
@[simp] theorem resetStep_keyLen (s : State) : (resetStep s).keyLen = 0 := rfl
@[simp] theorem resetStep_key (s : State) : (resetStep s).key = [] := rfl
@[simp] theorem resetStep_ibuf (s : State) : (resetStep s).ibuf = [] := rfl
@[simp] theorem resetStep_obuf (s : State) : (resetStep s).obuf = [] := rfl
@[simp] theorem resetStep_cmdLatch (s : State) : (resetStep s).cmdLatch = 0 := rfl
@[simp] theorem resetStep_scratch (s : State) : (resetStep s).scratch = Scratch.zero := rfl
@[simp] theorem resetStep_inputs (s : State) : (resetStep s).inputs = s.inputs := rfl
@[simp] theorem resetStep_resp (s : State) : (resetStep s).resp = none := rfl
@[simp] theorem resetStep_freeCtr (s : State) : (resetStep s).freeCtr = s.freeCtr := rfl

@[simp] theorem State.resetOf_cfg (c : Config) : (State.resetOf c).cfg = c := rfl
@[simp] theorem State.resetOf_busy (c : Config) : (State.resetOf c).busy = false := rfl
@[simp] theorem State.resetOf_done (c : Config) : (State.resetOf c).done = false := rfl
@[simp] theorem State.resetOf_busyw (c : Config) : (State.resetOf c).busyw = false := rfl
@[simp] theorem State.resetOf_errCode (c : Config) : (State.resetOf c).errCode = 0 := rfl
@[simp] theorem State.resetOf_ieDone (c : Config) : (State.resetOf c).ieDone = false := rfl
@[simp] theorem State.resetOf_ieErr (c : Config) : (State.resetOf c).ieErr = false := rfl
@[simp] theorem State.resetOf_inLen (c : Config) : (State.resetOf c).inLen = 0 := rfl
@[simp] theorem State.resetOf_outLen (c : Config) : (State.resetOf c).outLen = 0 := rfl
@[simp] theorem State.resetOf_keyLen (c : Config) : (State.resetOf c).keyLen = 0 := rfl
@[simp] theorem State.resetOf_key (c : Config) : (State.resetOf c).key = [] := rfl
@[simp] theorem State.resetOf_ibuf (c : Config) : (State.resetOf c).ibuf = [] := rfl
@[simp] theorem State.resetOf_obuf (c : Config) : (State.resetOf c).obuf = [] := rfl
@[simp] theorem State.resetOf_cmdLatch (c : Config) : (State.resetOf c).cmdLatch = 0 := rfl
@[simp] theorem State.resetOf_scratch (c : Config) : (State.resetOf c).scratch = Scratch.zero := rfl
@[simp] theorem State.resetOf_inputs (c : Config) : (State.resetOf c).inputs = [] := rfl
@[simp] theorem State.resetOf_resp (c : Config) : (State.resetOf c).resp = none := rfl
@[simp] theorem State.resetOf_freeCtr (c : Config) : (State.resetOf c).freeCtr = 0 := rfl

@[simp] theorem takeEntropy_cfg (b : Byte) (s : State) : (takeEntropy b s).cfg = s.cfg := by
  unfold takeEntropy; split <;> rfl
@[simp] theorem takeEntropy_busy (b : Byte) (s : State) : (takeEntropy b s).busy = s.busy := by
  unfold takeEntropy; split <;> rfl
@[simp] theorem takeEntropy_done (b : Byte) (s : State) : (takeEntropy b s).done = s.done := by
  unfold takeEntropy; split <;> rfl
@[simp] theorem takeEntropy_busyw (b : Byte) (s : State) : (takeEntropy b s).busyw = s.busyw := by
  unfold takeEntropy; split <;> rfl
@[simp] theorem takeEntropy_errCode (b : Byte) (s : State) : (takeEntropy b s).errCode = s.errCode := by
  unfold takeEntropy; split <;> rfl
@[simp] theorem takeEntropy_ieDone (b : Byte) (s : State) : (takeEntropy b s).ieDone = s.ieDone := by
  unfold takeEntropy; split <;> rfl
@[simp] theorem takeEntropy_ieErr (b : Byte) (s : State) : (takeEntropy b s).ieErr = s.ieErr := by
  unfold takeEntropy; split <;> rfl
@[simp] theorem takeEntropy_inLen (b : Byte) (s : State) : (takeEntropy b s).inLen = s.inLen := by
  unfold takeEntropy; split <;> rfl
@[simp] theorem takeEntropy_outLen (b : Byte) (s : State) : (takeEntropy b s).outLen = s.outLen := by
  unfold takeEntropy; split <;> rfl
@[simp] theorem takeEntropy_keyLen (b : Byte) (s : State) : (takeEntropy b s).keyLen = s.keyLen := by
  unfold takeEntropy; split <;> rfl
@[simp] theorem takeEntropy_key (b : Byte) (s : State) : (takeEntropy b s).key = s.key := by
  unfold takeEntropy; split <;> rfl
@[simp] theorem takeEntropy_ibuf (b : Byte) (s : State) : (takeEntropy b s).ibuf = s.ibuf := by
  unfold takeEntropy; split <;> rfl
@[simp] theorem takeEntropy_obuf (b : Byte) (s : State) : (takeEntropy b s).obuf = s.obuf := by
  unfold takeEntropy; split <;> rfl
@[simp] theorem takeEntropy_cmdLatch (b : Byte) (s : State) : (takeEntropy b s).cmdLatch = s.cmdLatch := by
  unfold takeEntropy; split <;> rfl
@[simp] theorem takeEntropy_inputs (b : Byte) (s : State) : (takeEntropy b s).inputs = s.inputs := by
  unfold takeEntropy; split <;> rfl
@[simp] theorem takeEntropy_resp (b : Byte) (s : State) : (takeEntropy b s).resp = s.resp := by
  unfold takeEntropy; split <;> rfl
@[simp] theorem takeEntropy_freeCtr (b : Byte) (s : State) : (takeEntropy b s).freeCtr = s.freeCtr := by
  unfold takeEntropy; split <;> rfl

theorem takeEntropy_scratch (b : Byte) (s : State) : (takeEntropy b s).scratch =
    if rndReq s then { s.scratch with drawn := s.scratch.drawn ++ [b] } else s.scratch := by
  unfold takeEntropy; split <;> rfl

theorem takeEntropy_drawn (b : Byte) (s : State) : (takeEntropy b s).scratch.drawn =
    if rndReq s then s.scratch.drawn ++ [b] else s.scratch.drawn := by
  rw [takeEntropy_scratch]; split <;> rfl

@[simp] theorem resetInput_cfg (d : Option BusOp) (s : State) : (resetInput d s).cfg = s.cfg := by
  cases d <;> rfl
@[simp] theorem resetInput_busy (d : Option BusOp) (s : State) : (resetInput d s).busy = false := by
  cases d <;> rfl
@[simp] theorem resetInput_done (d : Option BusOp) (s : State) : (resetInput d s).done = false := by
  cases d <;> rfl
@[simp] theorem resetInput_busyw (d : Option BusOp) (s : State) : (resetInput d s).busyw = false := by
  cases d <;> rfl
@[simp] theorem resetInput_errCode (d : Option BusOp) (s : State) : (resetInput d s).errCode = 0 := by
  cases d <;> rfl
@[simp] theorem resetInput_ieDone (d : Option BusOp) (s : State) : (resetInput d s).ieDone = false := by
  cases d <;> rfl
@[simp] theorem resetInput_ieErr (d : Option BusOp) (s : State) : (resetInput d s).ieErr = false := by
  cases d <;> rfl
@[simp] theorem resetInput_inLen (d : Option BusOp) (s : State) : (resetInput d s).inLen = 0 := by
  cases d <;> rfl
@[simp] theorem resetInput_outLen (d : Option BusOp) (s : State) : (resetInput d s).outLen = 0 := by
  cases d <;> rfl
@[simp] theorem resetInput_keyLen (d : Option BusOp) (s : State) : (resetInput d s).keyLen = 0 := by
  cases d <;> rfl
@[simp] theorem resetInput_key (d : Option BusOp) (s : State) : (resetInput d s).key = [] := by
  cases d <;> rfl
@[simp] theorem resetInput_ibuf (d : Option BusOp) (s : State) : (resetInput d s).ibuf = [] := by
  cases d <;> rfl
@[simp] theorem resetInput_obuf (d : Option BusOp) (s : State) : (resetInput d s).obuf = [] := by
  cases d <;> rfl
@[simp] theorem resetInput_cmdLatch (d : Option BusOp) (s : State) : (resetInput d s).cmdLatch = 0 := by
  cases d <;> rfl
@[simp] theorem resetInput_scratch (d : Option BusOp) (s : State) : (resetInput d s).scratch = Scratch.zero := by
  cases d <;> rfl
@[simp] theorem resetInput_inputs (d : Option BusOp) (s : State) : (resetInput d s).inputs = s.inputs := by
  cases d <;> rfl

/-! Where the two outcomes of a guarded write agree, so does the write. -/

theorem whenIdle_of_busy {s : State} (h : s.busy = true) (t : State) : whenIdle s t = dropWrite s := by
  simp [whenIdle, h]

theorem whenIdle_of_idle {s : State} (h : s.busy = false) (t : State) : whenIdle s t = t := by
  simp [whenIdle, h]

/-! The error numbers. -/

theorem errNumber_eq_zero (e : Err) : errNumber e = 0 ↔ e = .none := by cases e <;> decide

@[simp] theorem errNumber_eq_zero' (e : Err) : errNumber e = 0#4 ↔ e = .none := errNumber_eq_zero e

theorem errNumber_le (e : Err) : (errNumber e).toNat ≤ 7 := by cases e <;> decide

/-! The results of the shared result makers. -/

@[simp] theorem failResult_err (e : Err) : (failResult e).err = e := rfl
@[simp] theorem failResult_out (e : Err) : (failResult e).out = [] := rfl
@[simp] theorem failResult_keyw (e : Err) : (failResult e).keyw = none := rfl
@[simp] theorem failResult_zeroIbuf (e : Err) : (failResult e).zeroIbuf = false := rfl
@[simp] theorem deriveFail_err (e : Err) : (deriveFail e).err = e := rfl
@[simp] theorem deriveFail_out (e : Err) : (deriveFail e).out = [] := rfl
@[simp] theorem deriveFail_keyw (e : Err) : (deriveFail e).keyw = some (rep 0 32, 0) := rfl
@[simp] theorem deriveFail_zeroIbuf (e : Err) : (deriveFail e).zeroIbuf = false := rfl
@[simp] theorem outputResult_err (o : List Byte) : (outputResult o).err = .none := rfl
@[simp] theorem outputResult_out (o : List Byte) : (outputResult o).out = o := rfl
@[simp] theorem outputResult_keyw (o : List Byte) : (outputResult o).keyw = none := rfl
@[simp] theorem outputResult_zeroIbuf (o : List Byte) : (outputResult o).zeroIbuf = false := rfl
@[simp] theorem genkeyResult_err (r : List Byte) : (genkeyResult r).err = .none := rfl
@[simp] theorem genkeyResult_out (r : List Byte) : (genkeyResult r).out = hextext r := rfl
@[simp] theorem genkeyResult_keyw (r : List Byte) : (genkeyResult r).keyw = none := rfl
@[simp] theorem genkeyResult_zeroIbuf (r : List Byte) : (genkeyResult r).zeroIbuf = false := rfl
@[simp] theorem clearResult_err (ci ck : Bool) : (clearResult ci ck).err = .none := rfl
@[simp] theorem clearResult_out (ci ck : Bool) : (clearResult ci ck).out = [] := rfl
@[simp] theorem clearResult_keyw (ci ck : Bool) :
    (clearResult ci ck).keyw = if ck then some (rep 0 32, 0) else none := rfl
@[simp] theorem clearResult_zeroIbuf (ci ck : Bool) : (clearResult ci ck).zeroIbuf = ci := rfl

end Sys2Proof.Machine
end

