-- ==== Sys2Proof/Laws/Memory.lean ====
section
/-! SUPPORT. The laws of the byte arrays: what each operation reads as afterwards, that each keeps the canonical form and
the bounds, and what a read of several bytes is. -/

namespace Sys2Proof.Machine

@[simp] theorem Memory.read_nil (a : Nat) : Memory.read [] a = 0 := rfl

@[simp] theorem Memory.read_zeros (a : Nat) : Memory.read Memory.zeros a = 0 := rfl

theorem Memory.wf_nil : Memory.Wf [] := ⟨List.Pairwise.nil, fun _ h => absurd h List.not_mem_nil⟩

theorem Memory.wf_zeros : Memory.Wf Memory.zeros := Memory.wf_nil

theorem Memory.within_nil (n : Nat) : Memory.Within n [] := fun _ h => absurd h List.not_mem_nil

theorem Memory.within_zeros (n : Nat) : Memory.Within n Memory.zeros := Memory.within_nil n

theorem Memory.wf_tail {c : Host.Cell} {t : Memory} (h : Memory.Wf (c :: t)) : Memory.Wf t :=
  ⟨(List.pairwise_cons.mp h.1).2, fun x hx => h.2 x (List.mem_cons_of_mem _ hx)⟩

theorem Memory.wf_head_lt {c : Host.Cell} {t : Memory} (h : Memory.Wf (c :: t)) : ∀ x ∈ t, c.1 < x.1 :=
  (List.pairwise_cons.mp h.1).1

/-- Below its first entry a canonical array reads as zero. -/
theorem Memory.read_of_lt {m : Memory} {a : Nat} (h : ∀ c ∈ m, a < c.1) : m.read a = 0 := by
  induction m with
  | nil => rfl
  | cons c t ih =>
    obtain ⟨k, v⟩ := c
    have hk : a < k := h (k, v) (by simp)
    rw [Memory.read, if_neg (by omega)]
    exact ih fun x hx => h x (List.mem_cons_of_mem _ hx)

/-- Outside its bounds an array reads as zero. -/
theorem Memory.read_of_within {m : Memory} {n a : Nat} (h : m.Within n) (ha : n ≤ a) : m.read a = 0 := by
  induction m with
  | nil => rfl
  | cons c t ih =>
    obtain ⟨k, v⟩ := c
    have hk : k < n := h (k, v) (by simp)
    rw [Memory.read, if_neg (by omega)]
    exact ih fun x hx => h x (List.mem_cons_of_mem _ hx)

theorem Memory.read_cons {t : Memory} {a : Nat} (v : Byte) (b : Nat) (h : ∀ c ∈ t, a < c.1) :
    (Memory.cons a v t).read b = if b = a then v else t.read b := by
  unfold Memory.cons
  split
  · rename_i hv
    split
    · rename_i hb
      rw [hb, Memory.read_of_lt h, hv]; rfl
    · rfl
  · rw [Memory.read]
    by_cases hb : a = b
    · simp [hb]
    · simp [hb, Ne.symm hb]

theorem Memory.wf_cons {t : Memory} {a : Nat} (v : Byte) (ht : t.Wf) (h : ∀ c ∈ t, a < c.1) :
    (Memory.cons a v t).Wf := by
  unfold Memory.cons
  split
  · exact ht
  · rename_i hv
    refine ⟨List.pairwise_cons.mpr ⟨fun x hx => h x hx, ht.1⟩, ?_⟩
    intro c hc
    rcases List.mem_cons.mp hc with rfl | hc
    · exact hv
    · exact ht.2 c hc

theorem Memory.mem_cons {t : Memory} {a : Nat} {v : Byte} {c : Host.Cell} (h : c ∈ Memory.cons a v t) :
    c.1 = a ∨ c ∈ t := by
  unfold Memory.cons at h
  split at h
  · exact .inr h
  · rcases List.mem_cons.mp h with rfl | h
    · exact .inl rfl
    · exact .inr h

/-- A written array has entries only at the index written and where it had them. -/
theorem Memory.mem_write {m : Memory} {a : Nat} {v : Byte} {c : Host.Cell} (h : c ∈ m.write a v) :
    c.1 = a ∨ c ∈ m := by
  induction m with
  | nil => exact Memory.mem_cons h
  | cons d t ih =>
    obtain ⟨k, b⟩ := d
    simp only [Memory.write] at h
    split at h
    · exact Memory.mem_cons h
    · split at h
      · rcases Memory.mem_cons h with h | h
        · exact .inl h
        · exact .inr (List.mem_cons_of_mem _ h)
      · rcases List.mem_cons.mp h with rfl | h
        · exact .inr (by simp)
        · rcases ih h with h | h
          · exact .inl h
          · exact .inr (List.mem_cons_of_mem _ h)

/-- Reading after a write: the byte written at its index, the old byte everywhere else. -/
theorem Memory.read_write {m : Memory} (hm : m.Wf) (a : Nat) (v : Byte) (b : Nat) :
    (m.write a v).read b = if b = a then v else m.read b := by
  induction m with
  | nil => exact Memory.read_cons v b (by simp)
  | cons d t ih =>
    obtain ⟨k, w⟩ := d
    have hlt := Memory.wf_head_lt hm
    simp only [Memory.write]
    split
    · rename_i hak
      refine Memory.read_cons v b ?_
      intro c hc
      rcases List.mem_cons.mp hc with rfl | hc
      · exact hak
      · exact Nat.lt_trans hak (hlt c hc)
    · split
      · rename_i hak
        subst hak
        rw [Memory.read_cons v b hlt, Memory.read]
        by_cases hb : b = a
        · simp [hb]
        · simp [hb, Ne.symm hb]
      · rename_i h1 h2
        rw [Memory.read, Memory.read]
        by_cases hk : k = b
        · have hb : b ≠ a := by omega
          simp [hk, hb]
        · simp only [hk, if_false]
          exact ih (Memory.wf_tail hm)

/-- A write keeps the canonical form. -/
theorem Memory.wf_write {m : Memory} (hm : m.Wf) (a : Nat) (v : Byte) : (m.write a v).Wf := by
  induction m with
  | nil => exact Memory.wf_cons v Memory.wf_nil (by simp)
  | cons d t ih =>
    obtain ⟨k, w⟩ := d
    have hlt := Memory.wf_head_lt hm
    simp only [Memory.write]
    split
    · rename_i hak
      refine Memory.wf_cons v hm ?_
      intro c hc
      rcases List.mem_cons.mp hc with rfl | hc
      · exact hak
      · exact Nat.lt_trans hak (hlt c hc)
    · split
      · rename_i hak
        subst hak
        exact Memory.wf_cons v (Memory.wf_tail hm) hlt
      · rename_i h1 h2
        have ht := ih (Memory.wf_tail hm)
        refine ⟨List.pairwise_cons.mpr ⟨?_, ht.1⟩, ?_⟩
        · intro x hx
          rcases Memory.mem_write hx with h | h
          · show k < x.1
            omega
          · exact hlt x h
        · intro c hc
          rcases List.mem_cons.mp hc with rfl | hc
          · exact hm.2 (k, w) (by simp)
          · exact ht.2 c hc

/-- A write inside the bounds keeps the bounds. -/
theorem Memory.within_write {m : Memory} {n a : Nat} (hm : m.Within n) (ha : a < n) (v : Byte) :
    (m.write a v).Within n := by
  intro c hc
  rcases Memory.mem_write hc with h | h
  · omega
  · exact hm c h

theorem Memory.wf_writeBytes {m : Memory} (hm : m.Wf) (i : Nat) (b : List Byte) : (m.writeBytes i b).Wf := by
  induction b generalizing m i with
  | nil => exact hm
  | cons x t ih => exact ih (Memory.wf_write hm i x) (i + 1)

theorem Memory.within_writeBytes {m : Memory} {n : Nat} (hm : m.Within n) {i : Nat} {b : List Byte}
    (h : i + b.length ≤ n) : (m.writeBytes i b).Within n := by
  induction b generalizing m i with
  | nil => exact hm
  | cons x t ih =>
    simp only [List.length_cons] at h
    exact ih (Memory.within_write hm (by omega) x) (by omega)

/-- Reading after a write of several bytes. -/
theorem Memory.read_writeBytes {m : Memory} (hm : m.Wf) (i : Nat) (b : List Byte) (a : Nat) :
    (m.writeBytes i b).read a = if i ≤ a ∧ a < i + b.length then b.getD (a - i) 0 else m.read a := by
  induction b generalizing m i with
  | nil => rw [Memory.writeBytes, if_neg (by simp only [List.length_nil]; omega)]
  | cons x t ih =>
    rw [Memory.writeBytes, ih (Memory.wf_write hm i x), Memory.read_write hm, List.length_cons]
    by_cases h1 : a = i
    · subst h1
      rw [if_neg (by omega), if_pos rfl, if_pos (by omega)]
      simp
    · by_cases h2 : i + 1 ≤ a ∧ a < i + 1 + t.length
      · rw [if_pos h2, if_pos (by omega)]
        obtain ⟨j, rfl⟩ : ∃ j, a = i + 1 + j := ⟨a - (i + 1), by omega⟩
        rw [show i + 1 + j - (i + 1) = j by omega, show i + 1 + j - i = j + 1 by omega]
        rfl
      · rw [if_neg h2, if_neg h1, if_neg (by omega)]

theorem Memory.mem_ofBytesFrom {i : Nat} {b : List Byte} {c : Host.Cell} (h : c ∈ Memory.ofBytesFrom i b) :
    i ≤ c.1 ∧ c.1 < i + b.length := by
  induction b generalizing i with
  | nil => simp [Memory.ofBytesFrom] at h
  | cons x t ih =>
    rw [Memory.ofBytesFrom] at h
    rw [List.length_cons]
    rcases Memory.mem_cons h with h | h
    · omega
    · have := ih h
      omega

theorem Memory.wf_ofBytesFrom (i : Nat) (b : List Byte) : (Memory.ofBytesFrom i b).Wf := by
  induction b generalizing i with
  | nil => exact Memory.wf_nil
  | cons x t ih => exact Memory.wf_cons x (ih (i + 1)) fun c hc => by have := Memory.mem_ofBytesFrom hc; omega

theorem Memory.read_ofBytesFrom (i : Nat) (b : List Byte) (a : Nat) :
    (Memory.ofBytesFrom i b).read a = if i ≤ a then b.getD (a - i) 0 else 0 := by
  induction b generalizing i with
  | nil => rw [Memory.ofBytesFrom, Memory.read_nil]; simp
  | cons x t ih =>
    rw [Memory.ofBytesFrom, Memory.read_cons x a fun c hc => by have := Memory.mem_ofBytesFrom hc; omega, ih]
    by_cases h1 : a = i
    · subst h1
      simp
    · by_cases h2 : i + 1 ≤ a
      · obtain ⟨j, rfl⟩ : ∃ j, a = i + 1 + j := ⟨a - (i + 1), by omega⟩
        rw [if_neg h1, if_pos h2, if_pos (by omega), show i + 1 + j - (i + 1) = j by omega,
          show i + 1 + j - i = j + 1 by omega]
        rfl
      · rw [if_neg h1, if_neg h2, if_neg (by omega)]

/-- An array made from a byte string reads as the byte string, and as zero after it. -/
@[simp] theorem Memory.read_ofBytes (b : List Byte) (a : Nat) : (Memory.ofBytes b).read a = b.getD a 0 := by
  simp [Memory.ofBytes, Memory.read_ofBytesFrom]

theorem Memory.wf_ofBytes (b : List Byte) : (Memory.ofBytes b).Wf := Memory.wf_ofBytesFrom 0 b

theorem Memory.within_ofBytes {b : List Byte} {n : Nat} (h : b.length ≤ n) : (Memory.ofBytes b).Within n := by
  intro c hc
  have := Memory.mem_ofBytesFrom hc
  omega

/-- Reading `n` bytes reads them one by one. -/
theorem Memory.readBytes_eq (m : Memory) (i n : Nat) : m.readBytes i n = (List.range n).map fun k => m.read (i + k) := by
  induction n generalizing i with
  | zero => rfl
  | succ n ih =>
    rw [Memory.readBytes, ih, List.range_succ_eq_map, List.map_cons, List.map_map]
    refine congrArg₂ List.cons rfl (List.map_congr_left fun k _ => ?_)
    show m.read (i + 1 + k) = m.read (i + (k + 1))
    congr 1
    omega

theorem Memory.readBytes_zero_eq (m : Memory) (n : Nat) : m.readBytes 0 n = bytesOf m n := by
  simp [Memory.readBytes_eq, bytesOf]

@[simp] theorem bytesOf_length (m : Memory) (n : Nat) : (bytesOf m n).length = n := by simp [bytesOf]

theorem bytesOf_getD (m : Memory) (n a : Nat) : (bytesOf m n).getD a 0 = if a < n then m.read a else 0 := by
  unfold bytesOf
  by_cases h : a < n <;> simp [h, List.getD]

theorem mem_bytesOf {m : Memory} {n : Nat} {c : Byte} : c ∈ bytesOf m n ↔ ∃ i, i < n ∧ m.read i = c := by
  simp [bytesOf]

theorem bytesOf_congr {m m' : Memory} {n : Nat} (h : ∀ a, a < n → m.read a = m'.read a) : bytesOf m n = bytesOf m' n :=
  List.map_congr_left fun a ha => h a (List.mem_range.mp ha)

/-- Two canonical arrays that read the same are the same data. -/
theorem Memory.ext_of_wf {m m' : Memory} (hm : m.Wf) (hm' : m'.Wf) (h : ∀ a, m.read a = m'.read a) : m = m' := by
  induction m generalizing m' with
  | nil =>
    cases m' with
    | nil => rfl
    | cons c t =>
      have := h c.1
      rw [Memory.read_nil, Memory.read, if_pos rfl] at this
      exact absurd this.symm (hm'.2 c (by simp))
  | cons c t ih =>
    cases m' with
    | nil =>
      have := h c.1
      rw [Memory.read_nil, Memory.read, if_pos rfl] at this
      exact absurd this (hm.2 c (by simp))
    | cons d u =>
      obtain ⟨k, v⟩ := c
      obtain ⟨l, w⟩ := d
      have hkl : k = l := by
        rcases Nat.lt_trichotomy k l with hk | hk | hk
        · have e := h k
          rw [Memory.read, if_pos rfl, Memory.read_of_lt] at e
          · exact absurd e (hm.2 (k, v) (by simp))
          · intro x hx
            rcases List.mem_cons.mp hx with rfl | hx
            · exact hk
            · exact Nat.lt_trans hk (Memory.wf_head_lt hm' x hx)
        · exact hk
        · have e := h l
          rw [Memory.read_of_lt, Memory.read, if_pos rfl] at e
          · exact absurd e.symm (hm'.2 (l, w) (by simp))
          · intro x hx
            rcases List.mem_cons.mp hx with rfl | hx
            · exact hk
            · exact Nat.lt_trans hk (Memory.wf_head_lt hm x hx)
      subst hkl
      have hv := h k
      rw [Memory.read, if_pos rfl, Memory.read, if_pos rfl] at hv
      subst hv
      congr 1
      refine ih (Memory.wf_tail hm) (Memory.wf_tail hm') fun a => ?_
      by_cases ha : k = a
      · subst ha
        rw [Memory.read_of_lt (Memory.wf_head_lt hm), Memory.read_of_lt (Memory.wf_head_lt hm')]
      · have := h a
        rwa [Memory.read, if_neg ha, Memory.read, if_neg ha] at this

/-- The arrays of the reset state are canonical. -/
theorem State.reset_arrays_wf : State.reset.key.Wf ∧ State.reset.ibuf.Wf ∧ State.reset.obuf.Wf :=
  ⟨Memory.wf_nil, Memory.wf_nil, Memory.wf_nil⟩

end Sys2Proof.Machine
end

