-- ==== Sys2Proof/Laws/Bus.lean ====
section
/-! SUPPORT. The address map by cases, and what a transaction can do. -/

namespace Sys2Proof.Machine

@[simp] theorem locate_id (n : Nat) : locate n 0x00000 = some .id := rfl
@[simp] theorem locate_cap (n : Nat) : locate n 0x00004 = some .cap := rfl
@[simp] theorem locate_cmd (n : Nat) : locate n 0x00008 = some .cmd := rfl
@[simp] theorem locate_status (n : Nat) : locate n 0x0000C = some .status := rfl
@[simp] theorem locate_err (n : Nat) : locate n 0x00010 = some .err := rfl
@[simp] theorem locate_ien (n : Nat) : locate n 0x00014 = some .ien := rfl
@[simp] theorem locate_inLen (n : Nat) : locate n 0x00018 = some .inLen := rfl
@[simp] theorem locate_outLen (n : Nat) : locate n 0x0001C = some .outLen := rfl
@[simp] theorem locate_keyLen (n : Nat) : locate n 0x00020 = some .keyLen := rfl

/-- The address at which a location lies (R71). -/
def Loc.address : Loc → Nat
  | .id => 0x00
  | .cap => 0x04
  | .cmd => 0x08
  | .status => 0x0C
  | .err => 0x10
  | .ien => 0x14
  | .inLen => 0x18
  | .outLen => 0x1C
  | .keyLen => 0x20
  | .key off => 0x40 + off
  | .ibuf off => 0x10000 + off
  | .obuf off => 0x20000 + off

/-- A location lies inside its array (R71). -/
def Loc.Inside (n : Nat) : Loc → Prop
  | .key off => off < 32
  | .ibuf off => off < n
  | .obuf off => off < n
  | _ => True

/-- The inversion lemma of the map: a located address is aligned and is the location's, which lies inside its array. -/
theorem locate_cases {n : Nat} {a : BusAddr} {l : Loc} (h : locate n a = some l) :
    a.toNat % 4 = 0 ∧ a.toNat = l.address ∧ l.Inside n := by
  unfold locate at h
  split at h
  · rename_i h4
    refine ⟨h4, ?_⟩
    unfold locateAligned registerAt windowAt at h
    repeat' split at h
    all_goals first
      | (injection h with h; subst h; refine ⟨?_, ?_⟩ <;> simp only [Loc.address, Loc.Inside] <;> omega)
      | simp at h
  · simp at h

theorem registerAt_eq_none_iff {a : Nat} (h4 : a % 4 = 0) (h : a < 0x40) : registerAt a = none ↔ 0x20 < a := by
  obtain ⟨k, rfl⟩ : ∃ k, a = 4 * k := ⟨a / 4, by omega⟩
  have hk : k < 16 := by omega
  clear h h4
  revert k
  decide

theorem windowAt_eq_none_iff (n a : Nat) : windowAt n a = none ↔
    ¬((0x40 ≤ a ∧ a < 0x60) ∨ (0x10000 ≤ a ∧ a < 0x10000 + n) ∨ (0x20000 ≤ a ∧ a < 0x20000 + n)) := by
  unfold windowAt
  by_cases h1 : 0x40 ≤ a ∧ a < 0x60
  · rw [if_pos h1]
    exact iff_of_false (fun h => nomatch h) (fun h => h (Or.inl h1))
  · rw [if_neg h1]
    by_cases h2 : 0x10000 ≤ a ∧ a < 0x10000 + n
    · rw [if_pos h2]
      exact iff_of_false (fun h => nomatch h) (fun h => h (Or.inr (Or.inl h2)))
    · rw [if_neg h2]
      by_cases h3 : 0x20000 ≤ a ∧ a < 0x20000 + n
      · rw [if_pos h3]
        exact iff_of_false (fun h => nomatch h) (fun h => h (Or.inr (Or.inr h3)))
      · rw [if_neg h3]
        exact ⟨fun _ h => h.elim h1 fun h => h.elim h2 h3, fun _ => rfl⟩

/-- The map lists exactly the mapped addresses (R71, R74, R75). -/
theorem locate_eq_none_iff (n : Nat) (a : BusAddr) : locate n a = none ↔ ¬MappedAddress n a.toNat := by
  unfold locate locateAligned MappedAddress
  by_cases h4 : a.toNat % 4 = 0
  · rw [if_pos h4]
    by_cases h : a.toNat < 0x40
    · rw [if_pos h, registerAt_eq_none_iff h4 h]
      omega
    · rw [if_neg h, windowAt_eq_none_iff]
      omega
  · rw [if_neg h4]
    exact ⟨fun _ h => h4 h.1, fun _ => rfl⟩

theorem locate_key {n : Nat} {a : BusAddr} {off : Nat} (h4 : off % 4 = 0) (ho : off < 32)
    (ha : a.toNat = 0x40 + off) : locate n a = some (.key off) := by
  unfold locate locateAligned windowAt
  rw [ha, if_pos (by omega)]
  rw [if_neg (by omega)]
  rw [if_pos (by omega), Nat.add_sub_cancel_left]

theorem locate_ibuf {n : Nat} {a : BusAddr} {off : Nat} (h4 : off % 4 = 0) (ho : off < n)
    (ha : a.toNat = 0x10000 + off) : locate n a = some (.ibuf off) := by
  unfold locate locateAligned windowAt
  rw [ha, if_pos (by omega)]
  iterate 2 rw [if_neg (by omega)]
  rw [if_pos (by omega), Nat.add_sub_cancel_left]

theorem locate_obuf {n : Nat} {a : BusAddr} {off : Nat} (h4 : off % 4 = 0) (hn : n ≤ 65536) (ho : off < n)
    (ha : a.toNat = 0x20000 + off) : locate n a = some (.obuf off) := by
  unfold locate locateAligned windowAt
  rw [ha, if_pos (by omega)]
  iterate 3 rw [if_neg (by omega)]
  rw [if_pos (by omega), Nat.add_sub_cancel_left]

/-- What a write can do: nothing, be dropped, or one of the effects of R78. -/
theorem busWrite_cases (s : State) (a : BusAddr) (v : Word) :
    (busWrite s a v = (s, true) ∧ ¬MappedAddress s.cfg.bufBytes a.toNat)
    ∨ (busWrite s a v = (s, false) ∧ (a.toNat = 0x00 ∨ a.toNat = 0x04 ∨ a.toNat = 0x10 ∨ a.toNat = 0x1C
        ∨ (0x20000 ≤ a.toNat ∧ a.toNat < 0x20000 + s.cfg.bufBytes)))
    ∨ (busWrite s a v = (writeStatus v s, false) ∧ a.toNat = 0x0C)
    ∨ (busWrite s a v = (writeIen v s, false) ∧ a.toNat = 0x14)
    ∨ (s.busy = true ∧ busWrite s a v = (dropWrite s, false) ∧ OperandAddress s.cfg.bufBytes a.toNat)
    ∨ (s.busy = false ∧ busWrite s a v = (startStep v s, false) ∧ a.toNat = 0x08)
    ∨ (s.busy = false ∧ busWrite s a v = ({ s with inLen := v }, false) ∧ a.toNat = 0x18)
    ∨ (s.busy = false ∧ busWrite s a v = ({ s with keyLen := v }, false) ∧ a.toNat = 0x20)
    ∨ (∃ off, s.busy = false ∧ busWrite s a v = ({ s with key := s.key.writeBytes off (le32Bytes v) }, false)
        ∧ a.toNat = 0x40 + off ∧ off % 4 = 0 ∧ off < 32)
    ∨ (∃ off, s.busy = false ∧ busWrite s a v = ({ s with ibuf := s.ibuf.writeBytes off (le32Bytes v) }, false)
        ∧ a.toNat = 0x10000 + off ∧ off % 4 = 0 ∧ off < s.cfg.bufBytes) := by
  cases hl : locate s.cfg.bufBytes a with
  | none =>
    have hb : busWrite s a v = (s, true) := by simp only [busWrite, hl]
    exact .inl ⟨hb, (locate_eq_none_iff _ _).mp hl⟩
  | some l =>
    obtain ⟨h4, ha, hi⟩ := locate_cases hl
    have hb : busWrite s a v = (writeLoc s v l, false) := by simp only [busWrite, hl]
    cases l with
    | id => exact .inr (.inl ⟨hb, .inl ha⟩)
    | cap => exact .inr (.inl ⟨hb, .inr (.inl ha)⟩)
    | err => exact .inr (.inl ⟨hb, .inr (.inr (.inl ha))⟩)
    | outLen => exact .inr (.inl ⟨hb, .inr (.inr (.inr (.inl ha)))⟩)
    | obuf off =>
      simp only [Loc.address, Loc.Inside] at ha hi
      exact .inr (.inl ⟨hb, .inr (.inr (.inr (.inr (by omega))))⟩)
    | status => exact .inr (.inr (.inl ⟨hb, ha⟩))
    | ien => exact .inr (.inr (.inr (.inl ⟨hb, ha⟩)))
    | cmd =>
      rcases Bool.eq_false_or_eq_true s.busy with hbusy | hbusy
      rotate_left
      · exact .inr (.inr (.inr (.inr (.inr (.inl ⟨hbusy, by rw [hb, writeLoc, whenIdle_of_idle hbusy], ha⟩)))))
      · exact .inr (.inr (.inr (.inr (.inl ⟨hbusy, by rw [hb, writeLoc, whenIdle_of_busy hbusy],
          h4, .inl ha⟩))))
    | inLen =>
      rcases Bool.eq_false_or_eq_true s.busy with hbusy | hbusy
      rotate_left
      · exact .inr (.inr (.inr (.inr (.inr (.inr (.inl ⟨hbusy, by rw [hb, writeLoc, whenIdle_of_idle hbusy], ha⟩))))))
      · exact .inr (.inr (.inr (.inr (.inl ⟨hbusy, by rw [hb, writeLoc, whenIdle_of_busy hbusy],
          h4, .inr (.inl ha)⟩))))
    | keyLen =>
      rcases Bool.eq_false_or_eq_true s.busy with hbusy | hbusy
      rotate_left
      · exact .inr (.inr (.inr (.inr (.inr (.inr (.inr (.inl
          ⟨hbusy, by rw [hb, writeLoc, whenIdle_of_idle hbusy], ha⟩)))))))
      · exact .inr (.inr (.inr (.inr (.inl ⟨hbusy, by rw [hb, writeLoc, whenIdle_of_busy hbusy],
          h4, .inr (.inr (.inl ha))⟩))))
    | key off =>
      simp only [Loc.address, Loc.Inside] at ha hi
      rcases Bool.eq_false_or_eq_true s.busy with hbusy | hbusy
      rotate_left
      · exact .inr (.inr (.inr (.inr (.inr (.inr (.inr (.inr (.inl
          ⟨off, hbusy, by rw [hb, writeLoc, whenIdle_of_idle hbusy], ha, by omega, hi⟩))))))))
      · exact .inr (.inr (.inr (.inr (.inl ⟨hbusy, by rw [hb, writeLoc, whenIdle_of_busy hbusy],
          h4, .inr (.inr (.inr (.inl (by omega))))⟩))))
    | ibuf off =>
      simp only [Loc.address, Loc.Inside] at ha hi
      rcases Bool.eq_false_or_eq_true s.busy with hbusy | hbusy
      rotate_left
      · exact .inr (.inr (.inr (.inr (.inr (.inr (.inr (.inr (.inr
          ⟨off, hbusy, by rw [hb, writeLoc, whenIdle_of_idle hbusy], ha, by omega, hi⟩))))))))
      · exact .inr (.inr (.inr (.inr (.inl ⟨hbusy, by rw [hb, writeLoc, whenIdle_of_busy hbusy],
          h4, .inr (.inr (.inr (.inr (by omega))))⟩))))

end Sys2Proof.Machine
end

