-- ==== Sys2Proof/Laws/Bytes.lean ====
section
/-! SUPPORT. The laws of the operand forms: slices, the two byte orders, the characters of key-material text, padding and
the block-wise map. -/

namespace Sys2Proof.Machine

/-! ## Byte strings -/

@[simp] theorem rep_length (v : Byte) (k : Nat) : (rep v k).length = k := by simp [rep]

theorem rep_getD (v : Byte) (k i : Nat) : (rep v k).getD i 0 = if i < k then v else 0 := by
  unfold rep
  by_cases h : i < k <;> simp [h, List.getD]

theorem getD_eq_zero_of_le {b : List Byte} {i : Nat} (h : b.length ≤ i) : b.getD i 0 = 0 := by
  simp [List.getD, h]

theorem getD_append_left {a b : List Byte} {i : Nat} (h : i < a.length) : (a ++ b).getD i 0 = a.getD i 0 := by
  simp [List.getD, List.getElem?_append_left h]

theorem getD_append_right {a b : List Byte} {i : Nat} (h : a.length ≤ i) :
    (a ++ b).getD i 0 = b.getD (i - a.length) 0 := by
  simp [List.getD, List.getElem?_append_right h]

theorem slice_getD (b : List Byte) (i n k : Nat) : (slice b i n).getD k 0 = if k < n then b.getD (i + k) 0 else 0 := by
  unfold slice
  by_cases h : k < n <;> simp [h, List.getD, List.getElem?_drop]

theorem slice_length {b : List Byte} {i n : Nat} (h : i + n ≤ b.length) : (slice b i n).length = n := by
  simp [slice]; omega

theorem take_getD (b : List Byte) (n i : Nat) : (b.take n).getD i 0 = if i < n then b.getD i 0 else 0 := by
  by_cases h : i < n <;> simp [h, List.getD]

theorem map_range_getD (f : Nat → Byte) (n i : Nat) :
    ((List.range n).map f).getD i 0 = if i < n then f i else 0 := by
  by_cases h : i < n <;> simp [h, List.getD]

/-- A byte string is determined by its length and its bytes. -/
theorem bytes_ext {a b : List Byte} (hl : a.length = b.length) (h : ∀ i, i < a.length → a.getD i 0 = b.getD i 0) :
    a = b := by
  refine List.ext_getElem hl fun i h1 h2 => ?_
  have := h i h1
  rwa [List.getD_eq_getElem _ _ h1, List.getD_eq_getElem _ _ h2] at this

/-- A slice that lies inside the string, by its bytes. -/
theorem slice_eq_map {b : List Byte} {i n : Nat} (h : i + n ≤ b.length) :
    slice b i n = (List.range n).map fun k => b.getD (i + k) 0 := by
  refine bytes_ext (by simp [slice_length h]) fun k hk => ?_
  rw [slice_length h] at hk
  rw [slice_getD, map_range_getD]

/-! ## The two byte orders -/

theorem wordOfBytes_toNat (b3 b2 b1 b0 : Byte) : (wordOfBytes b3 b2 b1 b0).toNat =
    b3.toNat * 2 ^ 24 + b2.toNat * 2 ^ 16 + b1.toNat * 2 ^ 8 + b0.toNat := by
  have h0 := b0.isLt
  have h1 := b1.isLt
  have h2 := b2.isLt
  unfold wordOfBytes
  rw [BitVec.toNat_append, BitVec.toNat_append, BitVec.toNat_append, ← Nat.shiftLeft_add_eq_or_of_lt h0,
    ← Nat.shiftLeft_add_eq_or_of_lt h1, ← Nat.shiftLeft_add_eq_or_of_lt h2]
  simp only [Nat.shiftLeft_eq]
  omega

theorem le32_toNat (b : List Byte) : (le32 b).toNat = (b.getD 0 0).toNat + (b.getD 1 0).toNat * 2 ^ 8
    + (b.getD 2 0).toNat * 2 ^ 16 + (b.getD 3 0).toNat * 2 ^ 24 := by
  rw [le32, wordOfBytes_toNat]; omega

theorem be32_toNat (b : List Byte) : (be32 b).toNat = (b.getD 0 0).toNat * 2 ^ 24 + (b.getD 1 0).toNat * 2 ^ 16
    + (b.getD 2 0).toNat * 2 ^ 8 + (b.getD 3 0).toNat := by
  rw [be32, wordOfBytes_toNat]

theorem wordByte_toNat (v : Word) (i : Nat) : (wordByte v i).toNat = v.toNat / 2 ^ (8 * i) % 256 := by
  simp [wordByte, BitVec.extractLsb'_toNat, Nat.shiftRight_eq_div_pow]

@[simp] theorem le32Bytes_length (v : Word) : (le32Bytes v).length = 4 := rfl

@[simp] theorem be32Bytes_length (v : Word) : (be32Bytes v).length = 4 := rfl

@[simp] theorem be64Bytes_length (v : BitVec 64) : (be64Bytes v).length = 8 := rfl

theorem le32Bytes_getD (v : Word) {k : Nat} (h : k < 4) : (le32Bytes v).getD k 0 = wordByte v k := by
  interval_cases k <;> rfl

theorem windowWord_toNat (m : Memory) (off : Nat) : (windowWord m off).toNat =
    (m.read off).toNat + (m.read (off + 1)).toNat * 2 ^ 8 + (m.read (off + 2)).toNat * 2 ^ 16
      + (m.read (off + 3)).toNat * 2 ^ 24 := by
  rw [windowWord, le32_toNat]; rfl

/-! ## Key-material text -/

theorem not_isWS_of_isHex : ∀ c : Byte, isHex c = true → isWS c = false := by decide +kernel

theorem hexPair_toNat : ∀ hi lo : Byte, isHex hi = true → isHex lo = true →
    (hexPair hi lo).toNat = 16 * hexval hi + hexval lo := by
  have key : ∀ c : Byte, isHex c = true → hexval c < 16 := by decide +kernel
  intro hi lo h1 h2
  have := key hi h1
  have := key lo h2
  simp only [hexPair, BitVec.toNat_ofNat]
  omega

theorem hexDecode_length (t : List Byte) : (hexDecode t).length = t.length / 2 := by
  induction t using hexDecode.induct with
  | case1 hi lo t ih => simp only [hexDecode, List.length_cons, ih]; omega
  | case2 t h =>
    match t with
    | [] => rfl
    | [_] => simp [hexDecode]
    | a :: b :: u => exact absurd rfl (h a b u)

theorem hexDecode_getD (t : List Byte) (j : Nat) (h : 2 * j + 1 < t.length) :
    (hexDecode t).getD j 0 = hexPair (t.getD (2 * j) 0) (t.getD (2 * j + 1) 0) := by
  induction t using hexDecode.induct generalizing j with
  | case1 hi lo t ih =>
    cases j with
    | zero => rfl
    | succ j =>
      have := ih j (by simp only [List.length_cons] at h; omega)
      simpa [hexDecode, Nat.mul_add] using this
  | case2 t hn =>
    match t with
    | [] => simp at h
    | [_] => simp at h
    | a :: b :: u => exact absurd rfl (hn a b u)

@[simp] theorem hextext_length (r : List Byte) : (hextext r).length = 2 * r.length := by
  induction r with
  | nil => rfl
  | cons b t ih => simp only [hextext, List.length_cons, ih]; omega

theorem hextext_getD (r : List Byte) (k : Nat) (h : k < r.length) :
    (hextext r).getD (2 * k) 0 = hexchar ((r.getD k 0).toNat / 16)
    ∧ (hextext r).getD (2 * k + 1) 0 = hexchar ((r.getD k 0).toNat % 16) := by
  induction r generalizing k with
  | nil => simp at h
  | cons b t ih =>
    cases k with
    | zero => exact ⟨rfl, rfl⟩
    | succ k =>
      have := ih k (by simpa using h)
      simpa [hextext, Nat.mul_add] using this

theorem hexchar_isHex : ∀ v, v < 16 → isHex (hexchar v) = true ∧ hexval (hexchar v) = v := by decide

theorem hexPair_hexchar (b : Byte) : hexPair (hexchar (b.toNat / 16)) (hexchar (b.toNat % 16)) = b := by
  have hb := b.isLt
  obtain ⟨h1, h2⟩ := hexchar_isHex (b.toNat / 16) (by omega)
  obtain ⟨h3, h4⟩ := hexchar_isHex (b.toNat % 16) (by omega)
  apply BitVec.eq_of_toNat_eq
  rw [hexPair_toNat _ _ h1 h3, h2, h4]
  omega

/-- Decoding undoes the text form (R173, R135). -/
theorem hexDecode_hextext (r : List Byte) : hexDecode (hextext r) = r := by
  induction r with
  | nil => rfl
  | cons b t ih => rw [hextext, hexDecode, hexPair_hexchar, ih]

theorem isHex_of_mem_hextext {r : List Byte} {c : Byte} (h : c ∈ hextext r) : isHex c = true := by
  induction r with
  | nil => simp [hextext] at h
  | cons b t ih =>
    have hb := b.isLt
    simp only [hextext, List.mem_cons] at h
    rcases h with rfl | rfl | h
    · exact (hexchar_isHex _ (by omega)).1
    · exact (hexchar_isHex _ (by omega)).1
    · exact ih h

/-! ## Padding and blocks -/

theorem padLength_pos (n : Nat) : 1 ≤ padLength n ∧ padLength n ≤ 16 := by
  simp only [padLength, blockBytes]; omega

theorem pad_length (p : List Byte) : (pad p).length = 16 * (p.length / 16 + 1) := by
  simp only [pad, List.length_append, rep_length, padLength, blockBytes]; omega

theorem pad_getD (p : List Byte) (i : Nat) (h : i < (pad p).length) : (pad p).getD i 0 =
    if i < p.length then p.getD i 0 else BitVec.ofNat 8 (16 - p.length % 16) := by
  unfold pad at *
  by_cases hi : i < p.length
  · rw [if_pos hi, getD_append_left hi]
  · simp only [List.length_append, rep_length] at h
    rw [if_neg hi, getD_append_right (by omega), rep_getD, if_pos (by omega)]
    rfl

/-- The length of a block-wise map of a function that answers blocks of 16 bytes. -/
theorem mapBlocks_length {f : List Byte → List Byte} (hf : ∀ x, (f x).length = 16) (b : List Byte) :
    (mapBlocks f b).length = 16 * (b.length / 16) := by
  simp [mapBlocks, List.length_flatMap, hf, blockBytes, Nat.mul_comm]

/-- Byte `16 i + k` of a block-wise map is byte `k` of the function on block `i`. -/
theorem mapBlocks_getD {f : List Byte → List Byte} (hf : ∀ x, (f x).length = 16) (b : List Byte) {i k : Nat}
    (hi : i < b.length / 16) (hk : k < 16) :
    (mapBlocks f b).getD (16 * i + k) 0 = (f (slice b (16 * i) 16)).getD k 0 := by
  have gen : ∀ (g : Nat → List Byte), (∀ x, (g x).length = 16) → ∀ (n i : Nat), i < n →
      ((List.range n).flatMap g).getD (16 * i + k) 0 = (g i).getD k 0 := by
    intro g hg n
    induction n with
    | zero => intro i h; omega
    | succ n ih =>
      intro i h
      have hl : ((List.range n).flatMap g).length = 16 * n := by
        simp [List.length_flatMap, hg, Nat.mul_comm]
      rw [List.range_succ, List.flatMap_append, List.flatMap_singleton]
      by_cases hin : i < n
      · rw [getD_append_left (by omega), ih i hin]
      · have : i = n := by omega
        subst this
        rw [getD_append_right (by omega), hl]
        congr 1
        omega
  exact gen _ (fun x => hf _) _ i hi

@[simp] theorem aesColumn_bytes_length (x : AesColumn) : x.bytes.length = 4 := rfl

@[simp] theorem aesState_bytes_length (s : AesState) : s.bytes.length = 16 := rfl

@[simp] theorem cipher_length (b : List Byte) (w : List AesColumn) (nr : Nat) : (cipher b w nr).length = 16 := rfl

@[simp] theorem invCipher_length (b : List Byte) (w : List AesColumn) (nr : Nat) : (invCipher b w nr).length = 16 := rfl

/-- A state is the state of its bytes. -/
@[simp] theorem aesState_ofBytes_bytes (s : AesState) : AesState.ofBytes s.bytes = s := rfl

/-- A block of 16 bytes is the bytes of its state. -/
theorem aesState_bytes_ofBytes {b : List Byte} (h : b.length = 16) : (AesState.ofBytes b).bytes = b := by
  refine bytes_ext (by simp [h]) fun i hi => ?_
  simp only [aesState_bytes_length] at hi
  interval_cases i <;> rfl

theorem ecbEncrypt_length (p key : List Byte) : (ecbEncrypt p key).length = 16 * (p.length / 16) :=
  mapBlocks_length (f := fun b => cipher b (keyExpansion key) (keyRounds key)) (fun _ => rfl) p

theorem ecbDecrypt_length (c key : List Byte) : (ecbDecrypt c key).length = 16 * (c.length / 16) :=
  mapBlocks_length (f := fun b => invCipher b (keyExpansion key) (keyRounds key)) (fun _ => rfl) c

@[simp] theorem HashWords.bytes_length (x : HashWords) : x.bytes.length = 32 := rfl

@[simp] theorem sha256_length (m : List Byte) : (sha256 m).length = 32 := rfl

end Sys2Proof.Machine
end

