-- ==== Sys2Proof/Laws/Commands.lean ====
section
/-! SUPPORT. What a commit leaves, and what each command's result can be: one lemma for each, which proofs about commands
cite instead of unfolding them. -/

namespace Sys2Proof.Machine

/-! ## The commit -/

theorem commit_completed (r : Result) (s : State) : (commit r s).Completed s r.err :=
  ⟨rfl, rfl, rfl, rfl, rfl, rfl, rfl, rfl, rfl, rfl, rfl, rfl⟩

theorem commit_noOutput {r : Result} (h : r.out = []) (s : State) : (commit r s).NoOutput :=
  ⟨by rw [commit_outLen, h]; rfl, fun a => by rw [commit_obuf, h]; simp⟩

/-- A commit's output where it fits OBUF. -/
theorem commit_outputIs {r : Result} {s : State} (h : r.out.length ≤ s.cfg.bufBytes) (h' : r.out.length < 2 ^ 32) :
    (commit r s).OutputIs r.out := by
  refine ⟨?_, fun a => ?_⟩
  · rw [commit_outLen, BitVec.toNat_ofNat, Nat.mod_eq_of_lt h']
  · rw [commit_obuf, List.take_of_length_le h, Memory.read_ofBytes]

theorem commit_sameInput {r : Result} (h : r.zeroIbuf = false) (s : State) : (commit r s).SameInput s :=
  ⟨by rw [commit_inLen, h]; rfl, fun a => by rw [commit_ibuf, h]; rfl⟩

theorem commit_inputErased {r : Result} (h : r.zeroIbuf = true) (s : State) : (commit r s).InputErased :=
  ⟨by rw [commit_inLen, h]; rfl, fun a => by rw [commit_ibuf, h]; rfl⟩

theorem commit_sameKey {r : Result} (h : r.keyw = none) (s : State) : (commit r s).SameKey s :=
  ⟨by rw [commit_keyLen, committedKeyLen, h], fun a => by rw [commit_key, committedKey, h]⟩

theorem commit_keyIs {r : Result} {k : List Byte} {l : Word} (h : r.keyw = some (k, l)) (hk : k.length ≤ 32)
    (s : State) : (commit r s).KeyIs k l :=
  ⟨by rw [commit_keyLen, committedKeyLen, h], fun a => by
    rw [commit_key, committedKey, h]
    simp only
    rw [List.take_of_length_le hk, Memory.read_ofBytes]⟩

theorem commit_keyErased {r : Result} (h : r.keyw = some (rep 0 32, 0)) (s : State) : (commit r s).KeyErased := by
  have hk := commit_keyIs h (by simp) s
  exact ⟨hk.keyLen, fun a => by rw [hk.key, rep_getD, ite_self]⟩

theorem commit_deriveFail (e : Err) (s : State) : (commit (deriveFail e) s).DeriveFailed s e :=
  ⟨commit_completed _ _, commit_noOutput rfl _, commit_keyErased rfl _, commit_sameInput rfl _⟩

theorem commit_failResult (e : Err) (s : State) : (commit (failResult e) s).CommandFailed s e :=
  ⟨commit_completed _ _, commit_noOutput rfl _, commit_sameKey rfl _, commit_sameInput rfl _⟩

/-! ## The operands -/

theorem inputOperand_eq (s : State) : inputOperand s = bytesOf s.ibuf s.inLen.toNat := by
  rw [inputOperand, Memory.readBytes_zero_eq]

theorem keyOperand_eq (s : State) : keyOperand s = bytesOf s.key s.keyLen.toNat := by
  rw [keyOperand, Memory.readBytes_zero_eq]

theorem keyLenLegal_iff (s : State) : keyLenLegal s.keyLen = true ↔ s.KeyLenOk := by
  simp only [keyLenLegal, State.KeyLenOk, Bool.or_eq_true, beq_iff_eq, BitVec.toNat_eq, or_assoc]
  exact Iff.rfl

/-! ## The results, case by case -/

/-- What DERIVE's result can be: one of the three errors of R251, or a key of 32 bytes with length 32. -/
theorem deriveResult_cases (s : State) :
    (∃ e, deriveResult s = deriveFail e ∧ (e = .emptyKey ∨ e = .invalidKeyFormat ∨ e = .capacityExceeded))
    ∨ ∃ m, deriveResult s =
        { err := .none, out := [], keyw := some (sha256 m, 32), zeroIbuf := false } := by
  unfold deriveResult deriveText
  split
  · exact .inl ⟨_, rfl, by simp⟩
  · split
    · exact .inl ⟨_, rfl, by simp⟩
    · split
      · exact .inl ⟨_, rfl, by simp⟩
      · exact .inr ⟨_, rfl⟩

/-- What ENCRYPT's result can be. -/
theorem encryptResult_cases (s : State) :
    (encryptResult s = failResult .capacityExceeded ∧ s.cfg.bufBytes ≤ s.inLen.toNat)
    ∨ (encryptResult s = failResult .keyLengthMismatch ∧ s.inLen.toNat < s.cfg.bufBytes ∧ ¬s.KeyLenOk)
    ∨ (encryptResult s =
          outputResult (ecbEncrypt (pad (bytesOf s.ibuf s.inLen.toNat)) (bytesOf s.key s.keyLen.toNat))
        ∧ s.inLen.toNat < s.cfg.bufBytes ∧ s.KeyLenOk) := by
  unfold encryptResult
  split
  · exact .inl ⟨rfl, by assumption⟩
  · split
    · rename_i h1 h2
      refine .inr (.inl ⟨rfl, by omega, ?_⟩)
      rw [← keyLenLegal_iff]
      simpa using h2
    · rename_i h1 h2
      refine .inr (.inr ⟨by rw [inputOperand_eq, keyOperand_eq], by omega, ?_⟩)
      rw [← keyLenLegal_iff]
      simpa using h2

/-- What DECRYPT's result can be. -/
theorem decryptResult_cases (s : State) :
    (decryptResult s = failResult .capacityExceeded ∧ s.cfg.bufBytes < s.inLen.toNat)
    ∨ (decryptResult s = failResult .keyLengthMismatch ∧ s.inLen.toNat ≤ s.cfg.bufBytes ∧ ¬s.KeyLenOk)
    ∨ (decryptResult s = failResult .malformedCiphertext ∧ s.inLen.toNat ≤ s.cfg.bufBytes ∧ s.KeyLenOk
        ∧ (s.inLen.toNat = 0 ∨ s.inLen.toNat % 16 ≠ 0))
    ∨ (decryptResult s =
          decryptOutput (ecbDecrypt (bytesOf s.ibuf s.inLen.toNat) (bytesOf s.key s.keyLen.toNat))
        ∧ s.inLen.toNat ≤ s.cfg.bufBytes ∧ s.KeyLenOk ∧ s.inLen.toNat ≠ 0 ∧ s.inLen.toNat % 16 = 0) := by
  unfold decryptResult
  split
  · exact .inl ⟨rfl, by assumption⟩
  · split
    · rename_i h1 h2
      refine .inr (.inl ⟨rfl, by omega, ?_⟩)
      rw [← keyLenLegal_iff]
      simpa using h2
    · rename_i h1 h2
      have hk : s.KeyLenOk := by
        rw [← keyLenLegal_iff]
        simpa using h2
      split
      · exact .inr (.inr (.inl ⟨rfl, by omega, hk, by assumption⟩))
      · rename_i h3
        simp only [blockBytes] at h3
        exact .inr (.inr (.inr ⟨by rw [inputOperand_eq, keyOperand_eq], by omega, hk, by omega, by omega⟩))

/-- What the end of DECRYPT can be: the input less its padding, or InvalidPadding. -/
theorem decryptOutput_cases (d : List Byte) :
    (decryptOutput d = failResult .invalidPadding ∧ padValid d = false)
    ∨ (decryptOutput d = outputResult (d.take (d.length - (d.getD (d.length - 1) 0).toNat)) ∧ padValid d = true) := by
  unfold decryptOutput unpad
  cases h : padValid d
  · exact .inl ⟨rfl, rfl⟩
  · exact .inr ⟨rfl, rfl⟩

/-- The result of a command on a state (R39), for a GENKEY that has its 32 bytes. -/
def commandResult (i : Instr) (s : State) : Result :=
  match i with
  | .derive => deriveResult s
  | .genkey => genkeyResult (s.scratch.drawn.take randomBytes)
  | .encrypt => encryptResult s
  | .decrypt => decryptResult s
  | .clear ci ck => clearResult ci ck

/-- What `exec` answers, once for all commands: the commit of the command's result, but for a GENKEY that waits. -/
theorem exec_eq (i : Instr) (s : State) : exec i s =
    if i = .genkey ∧ s.scratch.drawn.length < randomBytes then .next s else .next (commit (commandResult i s) s) := by
  cases i with
  | genkey =>
    by_cases h : s.scratch.drawn.length < randomBytes
    · rw [if_pos ⟨rfl, h⟩]
      exact if_pos h
    · rw [if_neg fun hc => h hc.2]
      exact if_neg h
  | _ => exact (if_neg fun hc => nomatch hc.1).symm

theorem exec_of_ready {i : Instr} {s : State} (h : i = .genkey → 32 ≤ s.scratch.drawn.length) :
    exec i s = .next (commit (commandResult i s) s) := by
  rw [exec_eq, if_neg]
  rintro ⟨h1, h2⟩
  have := h h1
  simp only [randomBytes] at h2
  omega

/-- The inversion lemma of `exec`. -/
theorem exec_cases {i : Instr} {s t : State} (h : exec i s = .next t) :
    (i = .genkey ∧ s.scratch.drawn.length < 32 ∧ t = s) ∨ t = commit (commandResult i s) s := by
  rw [exec_eq] at h
  split at h
  · rename_i hc
    exact .inl ⟨hc.1, hc.2, (by injection h with h; exact h.symm)⟩
  · exact .inr (by injection h with h; exact h.symm)

/-- What a command's key write can be. -/
theorem commandResult_keyw (i : Instr) (s : State) :
    (commandResult i s).keyw = none ∨ (commandResult i s).keyw = some (rep 0 32, 0)
    ∨ ∃ m, (commandResult i s).keyw = some (sha256 m, 32) := by
  cases i with
  | derive =>
    rcases deriveResult_cases s with ⟨e, h, -⟩ | ⟨m, h⟩
    · exact .inr (.inl (by rw [commandResult, h]; rfl))
    · exact .inr (.inr ⟨m, by rw [commandResult, h]⟩)
  | genkey => exact .inl rfl
  | encrypt =>
    rcases encryptResult_cases s with ⟨h, -⟩ | ⟨h, -⟩ | ⟨h, -⟩ <;> exact .inl (by rw [commandResult, h]; rfl)
  | decrypt =>
    rcases decryptResult_cases s with ⟨h, -⟩ | ⟨h, -⟩ | ⟨h, -⟩ | ⟨h, -⟩
    · exact .inl (by rw [commandResult, h]; rfl)
    · exact .inl (by rw [commandResult, h]; rfl)
    · exact .inl (by rw [commandResult, h]; rfl)
    · rcases decryptOutput_cases (ecbDecrypt (bytesOf s.ibuf s.inLen.toNat) (bytesOf s.key s.keyLen.toNat))
        with ⟨h', -⟩ | ⟨h', -⟩ <;> exact .inl (by rw [commandResult, h, h']; rfl)
  | clear ci ck =>
    cases ck
    · exact .inl rfl
    · exact .inr (.inl rfl)

/-- Only CLEAR with CI erases the input. -/
theorem commandResult_zeroIbuf (i : Instr) (s : State) :
    (commandResult i s).zeroIbuf = true ↔ ∃ ck, i = .clear true ck := by
  cases i with
  | derive =>
    rcases deriveResult_cases s with ⟨e, h, -⟩ | ⟨m, h⟩ <;> rw [commandResult, h] <;> simp
  | genkey => simp [commandResult]
  | encrypt =>
    rcases encryptResult_cases s with ⟨h, -⟩ | ⟨h, -⟩ | ⟨h, -⟩ <;> rw [commandResult, h] <;> simp
  | decrypt =>
    rcases decryptResult_cases s with ⟨h, -⟩ | ⟨h, -⟩ | ⟨h, -⟩ | ⟨h, -⟩
    · rw [commandResult, h]; simp
    · rw [commandResult, h]; simp
    · rw [commandResult, h]; simp
    · rcases decryptOutput_cases (ecbDecrypt (bytesOf s.ibuf s.inLen.toNat) (bytesOf s.key s.keyLen.toNat))
        with ⟨h', -⟩ | ⟨h', -⟩ <;> rw [commandResult, h, h'] <;> simp
  | clear ci ck => cases ci <;> simp [commandResult]

/-- The commands that leave the key alone. -/
theorem commandResult_keyw_none {i : Instr} (h1 : i ≠ .derive) (h2 : ∀ ci, i ≠ .clear ci true) (s : State) :
    (commandResult i s).keyw = none := by
  cases i with
  | derive => exact absurd rfl h1
  | genkey => rfl
  | encrypt => rcases encryptResult_cases s with ⟨h, -⟩ | ⟨h, -⟩ | ⟨h, -⟩ <;> rw [commandResult, h] <;> rfl
  | decrypt =>
    rcases decryptResult_cases s with ⟨h, -⟩ | ⟨h, -⟩ | ⟨h, -⟩ | ⟨h, -⟩
    · rw [commandResult, h]; rfl
    · rw [commandResult, h]; rfl
    · rw [commandResult, h]; rfl
    · rcases decryptOutput_cases (ecbDecrypt (bytesOf s.ibuf s.inLen.toNat) (bytesOf s.key s.keyLen.toNat))
        with ⟨h', -⟩ | ⟨h', -⟩ <;> rw [commandResult, h, h'] <;> rfl
  | clear ci ck =>
    cases ck
    · rfl
    · exact absurd rfl (h2 ci)

/-- A command's output fits OBUF. -/
theorem commandResult_out_length {i : Instr} {s : State} (hc : s.cfg.Legal) :
    (commandResult i s).out.length ≤ s.cfg.bufBytes := by
  obtain ⟨h16, h64, -⟩ := hc
  cases i with
  | derive =>
    rcases deriveResult_cases s with ⟨e, h, -⟩ | ⟨m, h⟩ <;> (rw [commandResult, h]; exact Nat.zero_le _)
  | genkey =>
    simp only [commandResult, genkeyResult_out, hextext_length, List.length_take, randomBytes]
    omega
  | encrypt =>
    rcases encryptResult_cases s with ⟨h, -⟩ | ⟨h, -⟩ | ⟨h, hn, -⟩ <;> rw [commandResult, h]
    · exact Nat.zero_le _
    · exact Nat.zero_le _
    · simp only [outputResult_out, ecbEncrypt_length, pad_length, bytesOf_length]
      omega
  | decrypt =>
    rcases decryptResult_cases s with ⟨h, -⟩ | ⟨h, -⟩ | ⟨h, -⟩ | ⟨h, hn, -⟩
    · rw [commandResult, h]; exact Nat.zero_le _
    · rw [commandResult, h]; exact Nat.zero_le _
    · rw [commandResult, h]; exact Nat.zero_le _
    · rcases decryptOutput_cases (ecbDecrypt (bytesOf s.ibuf s.inLen.toNat) (bytesOf s.key s.keyLen.toNat))
        with ⟨h', -⟩ | ⟨h', -⟩ <;> rw [commandResult, h, h']
      · exact Nat.zero_le _
      · simp only [outputResult_out, List.length_take, ecbDecrypt_length, bytesOf_length]
        omega
  | clear ci ck => exact Nat.zero_le _

/-- A command that ends with an error has no output. -/
theorem commandResult_out_of_err {i : Instr} {s : State} (he : (commandResult i s).err ≠ .none) :
    (commandResult i s).out = [] := by
  cases i with
  | derive =>
    rcases deriveResult_cases s with ⟨e, h, -⟩ | ⟨m, h⟩
    · rw [commandResult, h]; rfl
    · rw [commandResult, h]
  | genkey => exact absurd rfl he
  | encrypt =>
    rcases encryptResult_cases s with ⟨h, -⟩ | ⟨h, -⟩ | ⟨h, -⟩ <;> rw [commandResult, h] at he ⊢
    · rfl
    · rfl
    · exact absurd rfl he
  | decrypt =>
    rcases decryptResult_cases s with ⟨h, -⟩ | ⟨h, -⟩ | ⟨h, -⟩ | ⟨h, -⟩
    · rw [commandResult, h]; rfl
    · rw [commandResult, h]; rfl
    · rw [commandResult, h]; rfl
    · rcases decryptOutput_cases (ecbDecrypt (bytesOf s.ibuf s.inLen.toNat) (bytesOf s.key s.keyLen.toNat))
        with ⟨h', -⟩ | ⟨h', -⟩ <;> rw [commandResult, h, h'] at he ⊢
      · rfl
      · exact absurd rfl he
  | clear ci ck => exact absurd rfl he

end Sys2Proof.Machine
end

