-- ==== Sys2Proof/Laws/Decode.lean ====
section
/-! SUPPORT. What the decoder can answer, once for all proofs. -/

namespace Sys2Proof

theorem rowMatches_full (w m : Word) : rowMatches w 0xFFFFFFFF m = true ↔ w = m := by
  have h : (0xFFFFFFFF : Word) = BitVec.allOnes 32 := by decide
  rw [rowMatches, h, BitVec.and_allOnes, beq_iff_eq]

theorem rowMatches_clear (w : Word) :
    rowMatches w 0xFFFFFCFF 0x00000005 = true ↔ w &&& 0xFFFFFCFF = 0x00000005 := by
  rw [rowMatches, beq_iff_eq]

/-- The inversion lemma of `decode` where it answers a command. -/
theorem decode_cases {w : Word} {i : Instr} (h : decode w = .ok i) :
    (w = 1 ∧ i = .derive) ∨ (w = 2 ∧ i = .genkey) ∨ (w = 3 ∧ i = .encrypt) ∨ (w = 4 ∧ i = .decrypt)
    ∨ (w &&& 0xFFFFFCFF = 5 ∧ i = .clear (w.getLsbD 8) (w.getLsbD 9)) := by
  unfold decode at h
  split at h
  · exact .inl ⟨(rowMatches_full _ _).mp (by assumption), by injection h with h; exact h.symm⟩
  split at h
  · exact .inr (.inl ⟨(rowMatches_full _ _).mp (by assumption), by injection h with h; exact h.symm⟩)
  split at h
  · exact .inr (.inr (.inl ⟨(rowMatches_full _ _).mp (by assumption), by injection h with h; exact h.symm⟩))
  split at h
  · exact .inr (.inr (.inr (.inl ⟨(rowMatches_full _ _).mp (by assumption), by injection h with h; exact h.symm⟩)))
  split at h
  · exact .inr (.inr (.inr (.inr ⟨(rowMatches_clear _).mp (by assumption), by injection h with h; exact h.symm⟩)))
  · exact nomatch h

/-- A word that decodes to GENKEY is the GENKEY word. -/
theorem eq_two_of_decode_genkey {w : Word} (h : decode w = .ok .genkey) : w = 2 := by
  rcases decode_cases h with ⟨-, h⟩ | ⟨h, -⟩ | ⟨-, h⟩ | ⟨-, h⟩ | ⟨-, h⟩
  · exact nomatch h
  · exact h
  · exact nomatch h
  · exact nomatch h
  · exact nomatch h

/-- The fields of every command are well-formed (R105: a command has no operand that could be illegal). -/
theorem wellFormed_of_instr (i : Instr) : i.wellFormed = true := by
  cases i with
  | clear ci ck => cases ci <;> cases ck <;> rfl
  | _ => rfl

end Sys2Proof
end

