-- ==== Sys2Proof/Laws/Driver.lean ====
section
/-! SUPPORT. The laws of the host's notation: the bytes of a padded word, where the named locations lie, and what
a `WAIT` that ends has seen. -/

namespace Sys2Proof.Machine

/-- Byte `k` of word `j` of a byte string, zero beyond its end. -/
theorem wordByte_paddedWord (b : List Byte) (j : Nat) {k : Nat} (hk : k < 4) :
    wordByte (paddedWord b j) k = b.getD (4 * j + k) 0 := by
  apply BitVec.eq_of_toNat_eq
  rw [wordByte_toNat, paddedWord, le32_toNat, slice_getD, slice_getD, slice_getD, slice_getD]
  simp only [Nat.reduceLT, if_true]
  have h0 := (b.getD (4 * j + 0) 0).isLt
  have h1 := (b.getD (4 * j + 1) 0).isLt
  have h2 := (b.getD (4 * j + 2) 0).isLt
  have h3 := (b.getD (4 * j + 3) 0).isLt
  interval_cases k <;> (try simp only [Nat.add_zero] at *) <;> omega

theorem busAddr_key_toNat {off : Nat} (h : off < 32) : (Loc.busAddr (.key off)).toNat = 0x40 + off := by
  simp only [Loc.busAddr, BitVec.toNat_ofNat]; omega

theorem busAddr_ibuf_toNat {off : Nat} (h : off < 65536) : (Loc.busAddr (.ibuf off)).toNat = 0x10000 + off := by
  simp only [Loc.busAddr, BitVec.toNat_ofNat]; omega

theorem busAddr_obuf_toNat {off : Nat} (h : off < 65536) : (Loc.busAddr (.obuf off)).toNat = 0x20000 + off := by
  simp only [Loc.busAddr, BitVec.toNat_ofNat]; omega

@[simp] theorem loadWindow_length (window : Nat → Loc) (b : List Byte) :
    (loadWindow window b).length = (b.length + 3) / 4 := by simp [loadWindow, wordsOf]

/-- Bit 0 of the word STATUS reads as is `BUSY` (R24). -/
theorem statusWord_getLsbD_zero (s : State) : (statusWord s).getLsbD 0 = s.busy := by
  unfold statusWord flagBit
  cases s.busy <;> cases s.done <;> cases errf s <;> cases s.busyw <;> rfl

theorem next_wait (seen : List Response) :
    DriverOp.wait.next seen = if waitOver seen then none else some (rd .status) := rfl

theorem waitOver_append_read (seen : List Response) (v : Word) (err : Bool) :
    waitOver (seen ++ [.read v err]) = !v.getLsbD 0 := by simp [waitOver]

/-- A read of STATUS answers its word and changes nothing but the response (R24, R80). -/
theorem busStep_rd_status (s : State) :
    busStep (rd .status) s = { s with resp := some (.read (statusWord s) false) } := rfl

/-- What the end of a `WAIT` says: it has just read STATUS with `BUSY = 0`, or it was over before it began (R108). -/
theorem perform_wait_over (gaps : List (List Input)) (seen seen' : List Response) (s t : State)
    (h : DriverOp.wait.perform gaps seen s = some (t, seen')) :
    waitOver seen' = true ∧ (seen' = seen ∧ t = s ∨ t.busy = false ∧ t.resp = some (.read (statusWord t) false)) := by
  induction gaps generalizing seen s with
  | nil =>
    simp only [DriverOp.perform, next_wait] at h
    split at h
    · simp_all
    · cases h
  | cons gap gaps ih =>
    simp only [DriverOp.perform, next_wait] at h
    by_cases hw : waitOver seen = true
    · simp_all
    · simp only [hw, Bool.false_eq_true, if_false] at h
      split at h
      · rename_i u _
        rw [busStep_rd_status] at h
        obtain ⟨h1, h2⟩ := ih _ _ h
        refine ⟨h1, .inr ?_⟩
        obtain ⟨rfl, rfl⟩ | h2 := h2
        · simp only [Option.toList_some, waitOver_append_read, statusWord_getLsbD_zero] at h1
          exact ⟨by simpa using h1, rfl⟩
        · exact h2
      · cases h

end Sys2Proof.Machine
end

