-- ==== Sys2Proof/Laws/PerInstr.lean ====
section
/-! SUPPORT. Families of statements made command by command. -/

namespace Sys2Proof.Laws

/-- The word of a command carries exactly the command's fields (R100), and they are the fields of a legal word (R103,
R104). -/
def EncodesItsFields.Statement (i : Instr) : Prop := fieldsOf (encode i) = i.fields ∧ i.wellFormed = true

theorem EncodesItsFields.derive : EncodesItsFields.Statement .derive := ⟨rfl, rfl⟩

theorem EncodesItsFields.genkey : EncodesItsFields.Statement .genkey := ⟨rfl, rfl⟩

theorem EncodesItsFields.encrypt : EncodesItsFields.Statement .encrypt := ⟨rfl, rfl⟩

theorem EncodesItsFields.decrypt : EncodesItsFields.Statement .decrypt := ⟨rfl, rfl⟩

theorem EncodesItsFields.clear (ci ck : Bool) : EncodesItsFields.Statement (.clear ci ck) := by
  cases ci <;> cases ck <;> exact ⟨rfl, rfl⟩

end Sys2Proof.Laws
end

