-- ==== Sys2Proof/Laws/Step.lean ====
section
/-! SUPPORT. What one step can do, once for all proofs about the whole machine. -/

namespace Sys2Proof.Machine

/-- The result of the latched word (R39): the command's, or BadCommand. -/
def latchedResult (s : State) : Result :=
  match decode s.cmdLatch with
  | .ok i => commandResult i s
  | .error _ => failResult .badCommand

/-- The state less its first pending event. -/
def State.popped (s : State) : State := { s with inputs := s.inputs.tail }

/-- It is the engine's turn: no event waits, or the first one is the engine's turn. -/
def State.EnginesTurn (s : State) : Prop := s.inputs = [] ∨ ∃ rest, s.inputs = .engine :: rest

/-- The completion of the latched word where it is no GENKEY that waits. -/
theorem runLatched_eq (s : State) (h : s.cmdLatch = genkeyWord → 32 ≤ s.scratch.drawn.length) :
    runLatched s = .next (commit (latchedResult s) s) := by
  unfold runLatched latchedResult
  cases hd : decode s.cmdLatch with
  | error e => rfl
  | ok i =>
    exact exec_of_ready fun hi => h (eq_two_of_decode_genkey (hi ▸ hd))

theorem runLatched_wait {s : State} (h : s.cmdLatch = genkeyWord) (hl : s.scratch.drawn.length < 32) :
    runLatched s = .next s := by
  have hd : decode s.cmdLatch = .ok .genkey := by rw [h]; rfl
  simp only [runLatched, hd, exec_eq, randomBytes, hl, and_self, if_true]

/-- The engine's turn, by cases. -/
theorem engineTurn_cases (s : State) :
    (s.busy = false ∧ engineTurn s = .next s)
    ∨ (s.busy = true ∧ s.cmdLatch = genkeyWord ∧ s.scratch.drawn.length < 32 ∧ engineTurn s = .next s)
    ∨ (s.busy = true ∧ (s.cmdLatch = genkeyWord → 32 ≤ s.scratch.drawn.length)
        ∧ engineTurn s = .next (commit (latchedResult s) s)) := by
  unfold engineTurn
  cases hb : s.busy
  · exact .inl ⟨rfl, rfl⟩
  · by_cases hw : s.cmdLatch = genkeyWord ∧ s.scratch.drawn.length < 32
    · exact .inr (.inl ⟨rfl, hw.1, hw.2, runLatched_wait hw.1 hw.2⟩)
    · have hr : s.cmdLatch = genkeyWord → 32 ≤ s.scratch.drawn.length := by
        intro hg
        by_contra hlt
        exact hw ⟨hg, by omega⟩
      exact .inr (.inr ⟨rfl, hr, runLatched_eq s hr⟩)

/-- The step where it is the engine's turn. -/
theorem step_enginesTurn {s : State} (h : s.EnginesTurn) : step s = engineTurn s.popped := by
  unfold step
  rcases h with h | ⟨rest, h⟩
  · have : s.popped = s := by
      cases s
      simp only at h
      subst h
      rfl
    rw [h, this]
  · simp only [h, takeInput, State.popped, List.tail_cons]

/-- The inversion lemma of `step`: everything one step can do. -/
theorem step_cases {s t : State} (h : step s = .next t) :
    (∃ op rest, s.inputs = .bus op :: rest ∧ t = busStep op s.popped)
    ∨ (∃ b rest, s.inputs = .entropy b :: rest ∧ t = takeEntropy b s.popped)
    ∨ (∃ during rest, s.inputs = .reset during :: rest ∧ t = resetInput during s.popped)
    ∨ (s.EnginesTurn ∧ s.busy = false ∧ t = s.popped)
    ∨ (s.EnginesTurn ∧ s.busy = true ∧ s.cmdLatch = genkeyWord ∧ s.scratch.drawn.length < 32 ∧ t = s.popped)
    ∨ (s.EnginesTurn ∧ s.busy = true ∧ (s.cmdLatch = genkeyWord → 32 ≤ s.scratch.drawn.length)
        ∧ t = commit (latchedResult s.popped) s.popped) := by
  have engine : s.EnginesTurn → (s.EnginesTurn ∧ s.busy = false ∧ t = s.popped)
      ∨ (s.EnginesTurn ∧ s.busy = true ∧ s.cmdLatch = genkeyWord ∧ s.scratch.drawn.length < 32 ∧ t = s.popped)
      ∨ (s.EnginesTurn ∧ s.busy = true ∧ (s.cmdLatch = genkeyWord → 32 ≤ s.scratch.drawn.length)
        ∧ t = commit (latchedResult s.popped) s.popped) := by
    intro ht
    rw [step_enginesTurn ht] at h
    rcases engineTurn_cases s.popped with ⟨hb, he⟩ | ⟨hb, hg, hl, he⟩ | ⟨hb, hr, he⟩ <;> rw [he] at h <;>
      injection h with h <;> subst h
    · exact .inl ⟨ht, hb, rfl⟩
    · exact .inr (.inl ⟨ht, hb, hg, hl, rfl⟩)
    · exact .inr (.inr ⟨ht, hb, hr, rfl⟩)
  match hi : s.inputs with
  | [] => exact .inr (.inr (.inr (engine (.inl hi))))
  | .engine :: rest => exact .inr (.inr (.inr (engine (.inr ⟨rest, hi⟩))))
  | .bus op :: rest =>
    simp only [step, hi, takeInput] at h
    injection h with h
    exact .inl ⟨op, rest, rfl, by rw [← h]; simp only [State.popped, hi, List.tail_cons]⟩
  | .entropy b :: rest =>
    simp only [step, hi, takeInput] at h
    injection h with h
    exact .inr (.inl ⟨b, rest, rfl, by rw [← h]; simp only [State.popped, hi, List.tail_cons]⟩)
  | .reset during :: rest =>
    simp only [step, hi, takeInput] at h
    injection h with h
    exact .inr (.inr (.inl ⟨during, rest, rfl, by rw [← h]; simp only [State.popped, hi, List.tail_cons]⟩))

end Sys2Proof.Machine
end

