-- ==== Sys2Proof/Tests/Slice0.lean ====
section
/-! SUPPORT. Small tests. The expected results come from spec/ (95_test_vectors.md and the examples of the rules named);
the `witness_` theorems show, for each statement with hypotheses, a state and operands that meet them all. -/

namespace Sys2Proof.Machine

/-! ## Helpers -/

/-- The next state, or the reset state where there is none. -/
def nextOf : Host.Outcome State Fault Refusal → State
  | .next s => s
  | _ => State.reset

/-- Every completion is a next state. -/
theorem exec_nextOf (i : Instr) (s : State) : exec i s = .next (nextOf (exec i s)) := by
  rw [exec_eq]
  split <;> rfl

/-- An idle machine with the bytes `b` as its input. -/
def withInput (b : List Byte) : State :=
  { State.reset with ibuf := Memory.ofBytes b, inLen := BitVec.ofNat 32 b.length }

/-- An idle machine with the input `b` and the key `k`. -/
def withKey (b k : List Byte) : State :=
  { withInput b with key := Memory.ofBytes k, keyLen := BitVec.ofNat 32 k.length }

/-- `s` with the word `w` in flight and the events `es` to come. -/
def running (w : Word) (es : List Input) (s : State) : State := { startStep w s with inputs := es }

/-- `s` with the events `es` to come. -/
def facing (es : List Input) (s : State) : State := { s with inputs := es }

/-- The bytes `00 01 02 …` (R199). -/
def countUp (n : Nat) : List Byte := (List.range n).map (BitVec.ofNat 8)

/-- ASCII `hello world` (R218). -/
def helloWorld : List Byte := [0x68, 0x65, 0x6c, 0x6c, 0x6f, 0x20, 0x77, 0x6f, 0x72, 0x6c, 0x64]

/-- The hash of 32 zero bytes, the key of the spec's end-to-end example (R143, R218). -/
def keyK0 : List Byte :=
  [0x66, 0x68, 0x7a, 0xad, 0xf8, 0x62, 0xbd, 0x77, 0x6c, 0x8f, 0xc1, 0x8b, 0x8e, 0x9f, 0x8e, 0x20]
  ++ [0x08, 0x97, 0x14, 0x85, 0x6e, 0xe2, 0x33, 0xb3, 0x90, 0x2a, 0x59, 0x1d, 0x0d, 0x5f, 0x29, 0x25]

/-- The AES-256 block `Cipher(16 bytes 10)` under 32 zero bytes (R199): the ciphertext of the empty plaintext. -/
def emptyCiphertext : List Byte :=
  [0x1f, 0x78, 0x8f, 0xe6, 0xd8, 0x6c, 0x31, 0x75, 0x49, 0x69, 0x7f, 0xbf, 0x0c, 0x07, 0xfa, 0x43]

/-- The AES-256 block `Cipher(16 bytes 00)` under 32 zero bytes (R199): no valid padding inside. -/
def zeroCiphertext : List Byte :=
  [0xdc, 0x95, 0xc0, 0x78, 0xa2, 0x40, 0x89, 0x89, 0xad, 0x48, 0xa2, 0x14, 0x92, 0x84, 0x20, 0x87]

/-- The 32 bytes `00 08 10 … f8` of the example of R178. -/
def exampleDraw : List Byte := (List.range 32).map fun k => BitVec.ofNat 8 (8 * k)

/-- A GENKEY in flight that has taken the bytes `r`. -/
def drawing (r : List Byte) (es : List Input) : State :=
  { running 0x00000002 es State.reset with scratch := { Scratch.zero with drawn := r } }

/-! ## Well-formedness: one ill-formed set of fields for each check (R100, R104) -/

theorem test_wf_refuses_op_zero :
    ({ op := 0, z0 := 0, ci := false, ck := false, z1 := 0 } : CommandFields).wellFormed = false := by decide

theorem test_wf_refuses_op_six :
    ({ op := 6, z0 := 0, ci := false, ck := false, z1 := 0 } : CommandFields).wellFormed = false := by decide

theorem test_wf_refuses_z0 :
    ({ op := 1, z0 := 1, ci := false, ck := false, z1 := 0 } : CommandFields).wellFormed = false := by decide

theorem test_wf_refuses_z1 :
    ({ op := 5, z0 := 0, ci := false, ck := false, z1 := 1 } : CommandFields).wellFormed = false := by decide

theorem test_wf_refuses_select_outside_clear :
    ({ op := 4, z0 := 0, ci := false, ck := true, z1 := 0 } : CommandFields).wellFormed = false := by decide

/-! ## Decoding: the words written out from the map of R103 and the examples of R104 -/

theorem test_decode_derive : decode 0b00000000000000000000000000000001 = .ok .derive := by decide

theorem test_decode_genkey : decode 0b00000000000000000000000000000010 = .ok .genkey := by decide

theorem test_decode_encrypt : decode 0b00000000000000000000000000000011 = .ok .encrypt := by decide

theorem test_decode_decrypt : decode 0b00000000000000000000000000000100 = .ok .decrypt := by decide

theorem test_decode_clear :
    decode 0b00000000000000000000000000000101 = .ok (.clear false false)
    ∧ decode 0b00000000000000000000000100000101 = .ok (.clear true false)
    ∧ decode 0b00000000000000000000001000000101 = .ok (.clear false true)
    ∧ decode 0b00000000000000000000001100000101 = .ok (.clear true true) := by decide

theorem test_decode_reserved :
    decode 0x00000000 = .error .reservedOp ∧ decode 0x00000006 = .error .reservedOp
    ∧ decode 0x0000000F = .error .reservedOp ∧ decode 0x00000011 = .error .nonzeroZ0
    ∧ decode 0x00000101 = .error .selectOutsideClear ∧ decode 0x00000403 = .error .nonzeroZ1
    ∧ decode 0x80000001 = .error .nonzeroZ1 ∧ decode 0x00000015 = .error .nonzeroZ0 := by decide

theorem test_decodeTableWord : decodeTableWord 32 0x00000305 = some (.clear true true)
    ∧ decodeTableWord 16 0x0105 = some (.clear true false) ∧ decodeTableWord 32 0x00000011 = none := by decide

/-- Every row's word, placed and stepped as the first command after reset, completes (R283). -/
theorem test_withFetchWord :
    (nextOf (step (State.reset.withFetchWord 32 0x00000001))).errCode = 1
    ∧ (nextOf (step (State.reset.withFetchWord 32 0x00000002))).outLen = 64
    ∧ (nextOf (step (State.reset.withFetchWord 32 0x00000003))).errCode = 3
    ∧ (nextOf (step (State.reset.withFetchWord 32 0x00000004))).errCode = 3
    ∧ (nextOf (step (State.reset.withFetchWord 32 0x00000305))).done = true := by decide +kernel

/-! ## The algorithms (R162, R199) -/

/-- A message of 56 bytes `00` takes two blocks (R162). -/
theorem test_sha256_two_blocks : sha256 (rep 0 56) =
    [0xd4, 0x81, 0x7a, 0xa5, 0x49, 0x76, 0x28, 0xe7, 0xc7, 0x7e, 0x6b, 0x60, 0x61, 0x07, 0x04, 0x2b]
    ++ [0xbb, 0xa3, 0x13, 0x08, 0x88, 0xc5, 0xf4, 0x7a, 0x37, 0x5e, 0x61, 0x79, 0xbe, 0x78, 0x9f, 0xbb] := by
  decide +kernel

/-- The standard's block under the 24-byte key `00 01 …`, and back (R199). -/
theorem test_aes192 :
    cipher [0x00, 0x11, 0x22, 0x33, 0x44, 0x55, 0x66, 0x77, 0x88, 0x99, 0xaa, 0xbb, 0xcc, 0xdd, 0xee, 0xff]
      (keyExpansion (countUp 24)) 12
    = [0xdd, 0xa9, 0x7c, 0xa4, 0x86, 0x4c, 0xdf, 0xe0, 0x6e, 0xaf, 0x70, 0xa0, 0xec, 0x0d, 0x71, 0x91]
    ∧ invCipher [0xdd, 0xa9, 0x7c, 0xa4, 0x86, 0x4c, 0xdf, 0xe0, 0x6e, 0xaf, 0x70, 0xa0, 0xec, 0x0d, 0x71, 0x91]
      (keyExpansion (countUp 24)) 12
    = [0x00, 0x11, 0x22, 0x33, 0x44, 0x55, 0x66, 0x77, 0x88, 0x99, 0xaa, 0xbb, 0xcc, 0xdd, 0xee, 0xff] := by
  decide +kernel

/-- Words of two key schedules: `w[4]` and `w[43]` of a 16-byte key, `w[8]` of a 32-byte key (R199). -/
theorem test_keyExpansion :
    (roundKeyWord (keyExpansion (countUp 16)) 4).bytes = [0xd6, 0xaa, 0x74, 0xfd]
    ∧ (roundKeyWord (keyExpansion (countUp 16)) 43).bytes = [0x4d, 0x2b, 0x30, 0xc5]
    ∧ (roundKeyWord (keyExpansion (countUp 32)) 8).bytes = [0xa5, 0x73, 0xc2, 0x9f] := by decide +kernel

/-- The column example of R187 and R188. -/
theorem test_mixColumn : mixColumn { r0 := 0xdb, r1 := 0x13, r2 := 0x53, r3 := 0x45 }
      = { r0 := 0x8e, r1 := 0x4d, r2 := 0xa1, r3 := 0xbc }
    ∧ invMixColumn { r0 := 0x8e, r1 := 0x4d, r2 := 0xa1, r3 := 0xbc }
      = { r0 := 0xdb, r1 := 0x13, r2 := 0x53, r3 := 0x45 } := by decide

/-! ## The commands -/

/-- The worked example of R143: the text `616263` gives the hash of "abc". -/
theorem test_derive_abc :
    (nextOf (exec .derive (withInput [0x36, 0x31, 0x36, 0x32, 0x36, 0x33]))).key.readBytes 0 32 =
    [0xba, 0x78, 0x16, 0xbf, 0x8f, 0x01, 0xcf, 0xea, 0x41, 0x41, 0x40, 0xde, 0x5d, 0xae, 0x22, 0x23]
    ++ [0xb0, 0x03, 0x61, 0xa3, 0x96, 0x17, 0x7a, 0x9c, 0xb4, 0x10, 0xff, 0x61, 0xf2, 0x00, 0x15, 0xad] := by
  decide +kernel

/-- `"zz"` is InvalidKeyFormat, `" "` is EmptyKey, and a key that was there is gone (R143, R138). -/
theorem test_derive_errors :
    (nextOf (exec .derive (withKey [0x7a, 0x7a] keyK0))).errCode = 2
    ∧ (nextOf (exec .derive (withKey [0x20] keyK0))).errCode = 1
    ∧ (nextOf (exec .derive (withKey [0x20] keyK0))).key = [] := by decide +kernel

/-- The worked example of R178: the first word read from OBUF, and `OUT_LEN`. -/
theorem test_genkey_text :
    busRead (nextOf (exec .genkey (drawing exampleDraw []))) 0x20000 = (0x38303030, false)
    ∧ busRead (nextOf (exec .genkey (drawing exampleDraw []))) 0x2003C = (0x38663066, false)
    ∧ (nextOf (exec .genkey (drawing exampleDraw []))).outLen = 64 := by decide +kernel

/-- The 32nd offered byte is the last one taken (R171). -/
theorem test_genkey_takes_32 :
    (takeEntropy 0xAA (drawing (rep 1 31) [])).scratch.drawn = rep 1 31 ++ [0xAA]
    ∧ (takeEntropy 0xAA (drawing (rep 1 32) [])).scratch.drawn = rep 1 32 := by decide

/-- The worked example of R218. -/
theorem test_encrypt_hello :
    (nextOf (exec .encrypt (withKey helloWorld keyK0))).obuf.readBytes 0 17 =
    [0x11, 0x5b, 0xf6, 0xc5, 0xc8, 0xb8, 0x80, 0x94, 0x5a, 0x2e, 0xae, 0x5f, 0x2b, 0xa8, 0xf2, 0x9a, 0x00] := by
  decide +kernel

/-- The 16-byte key of program P5 of 95_test_vectors.md. -/
theorem test_encrypt_short_key :
    (nextOf (exec .encrypt (withKey helloWorld (countUp 16)))).obuf.readBytes 0 16 =
    [0x92, 0x76, 0xfd, 0xf3, 0x84, 0xf3, 0x85, 0x18, 0xfa, 0x6c, 0x83, 0x10, 0xf1, 0x91, 0x67, 0x8d] := by
  decide +kernel

/-- Program P2 of 95_test_vectors.md: the ciphertext of `hello world` decrypts to it. -/
theorem test_decrypt_hello :
    (nextOf (exec .decrypt (withKey
      [0x11, 0x5b, 0xf6, 0xc5, 0xc8, 0xb8, 0x80, 0x94, 0x5a, 0x2e, 0xae, 0x5f, 0x2b, 0xa8, 0xf2, 0x9a] keyK0))).obuf
    = Memory.ofBytes helloWorld := by
  decide +kernel

/-- Program P3 of 95_test_vectors.md: bad padding, and the ciphertext of the empty plaintext (R199, R213). -/
theorem test_decrypt_padding :
    (nextOf (exec .decrypt (withKey zeroCiphertext (rep 0 32)))).errCode = 5
    ∧ (nextOf (exec .decrypt (withKey zeroCiphertext (rep 0 32)))).obuf = []
    ∧ (nextOf (exec .decrypt (withKey emptyCiphertext (rep 0 32)))).errCode = 0
    ∧ (nextOf (exec .decrypt (withKey emptyCiphertext (rep 0 32)))).outLen = 0 := by
  decide +kernel

/-- The worked example of R245: `CLEAR I` erases the text and keeps the key. -/
theorem test_clear_input :
    (nextOf (exec (.clear true false) (withKey (rep 0x30 64) keyK0))).ibuf = []
    ∧ (nextOf (exec (.clear true false) (withKey (rep 0x30 64) keyK0))).inLen = 0
    ∧ (nextOf (exec (.clear true false) (withKey (rep 0x30 64) keyK0))).key = Memory.ofBytes keyK0
    ∧ (nextOf (exec (.clear true false) (withKey (rep 0x30 64) keyK0))).keyLen = 32 := by decide +kernel

/-- `CLEAR K` keeps the text; STATUS then reads `DONE` alone. -/
theorem test_clear_key :
    (nextOf (exec (.clear false true) (withKey [0x30] keyK0))).key = []
    ∧ (nextOf (exec (.clear false true) (withKey [0x30] keyK0))).ibuf = [(0, 0x30)]
    ∧ busRead (nextOf (exec (.clear false true) (withKey [0x30] keyK0))) 0x0000C = (2, false) := by decide +kernel

/-! ## The bus -/

/-- Part 2 of 95_test_vectors.md: a window write is little-endian (R73). -/
theorem test_window_write :
    (busWrite State.reset 0x10000 0x44332211).1.ibuf = [(0, 0x11), (1, 0x22), (2, 0x33), (3, 0x44)]
    ∧ (busWrite State.reset 0x00040 0xad7a6866).1.key = [(0, 0x66), (1, 0x68), (2, 0x7a), (3, 0xad)] := by decide

/-- Program P5 of 95_test_vectors.md: bus errors, a dropped write, a masked read. -/
theorem test_bus_errors :
    (busWrite State.reset 0x00030 0).2 = true ∧ busRead State.reset 0x00060 = (0, true)
    ∧ (busWrite State.reset 0x0001A 0).2 = true ∧ busRead State.reset 0x11000 = (0, true)
    ∧ busWrite State.reset 0x20000 0x12345678 = (State.reset, false) := by decide

theorem test_busy_accesses :
    (busWrite (running 0x00000003 [] (withInput [1])) 0x00018 5).1.inLen = 1
    ∧ (busWrite (running 0x00000003 [] (withInput [1])) 0x00018 5).1.busyw = true
    ∧ busRead (running 0x00000003 [] (withInput [1])) 0x10000 = (0, false)
    ∧ busRead (running 0x00000003 [] (withInput [1])) 0x0000C = (1, false) := by decide

/-- The first two transactions of `LDI "hello world"` as program P1 of 95_test_vectors.md writes them. -/
theorem test_driver_ldi : (DriverOp.ldi helloWorld).expand =
    [.write 0x10000 0x6C6C6568, .write 0x10004 0x6F77206F, .write 0x10008 0x00646C72, .write 0x00018 0x0000000B] := by
  decide

/-- `WAIT` reads STATUS again while `BUSY = 1` and ends with the first read of bit 0 = 0; with no turn of the engine it
does not end (R108). -/
theorem test_driver_wait :
    (DriverOp.wait.perform [[], [.engine], []] [] (startStep 0x00000001 State.reset)).map Prod.snd
      = some [.read 0x00000001 false, .read 0x00000006 false]
    ∧ (DriverOp.wait.perform [[], []] [] (startStep 0x00000001 State.reset)).isNone = true := by decide +kernel

/-! ## Witnesses: steps -/

/-- A CLEAR in flight with the engine next to move. -/
def clearing : State := running 0x00000305 [] (withKey [0x30] keyK0)

theorem witness_ResetSatisfiesInvariant : ({ bufBytes := 64 } : Config).Legal := by decide

theorem witness_StepKeepsInvariant : clearing.Inv ∧ step clearing = .next (nextOf (step clearing)) := by
  refine ⟨?_, rfl⟩
  decide

theorem witness_LegalWordsAreTheEight : decode 0x00000305 = .ok (.clear true true) := by decide

theorem witness_StepRunsTheLatchedCommand_no_event :
    clearing.busy = true ∧ decode clearing.cmdLatch = .ok (.clear true true) ∧ clearing.inputs = [] := by decide

theorem witness_StepRunsTheLatchedCommand_engine_event :
    (facing [.engine, .entropy 0] clearing).busy = true
    ∧ decode (facing [.engine, .entropy 0] clearing).cmdLatch = .ok (.clear true true)
    ∧ (facing [.engine, .entropy 0] clearing).inputs = .engine :: [.entropy 0] := by decide

theorem witness_CommandWriteStartsOperation :
    (facing [.bus (.write 0x00008 0)] State.reset).inputs = .bus (.write 0x00008 0) :: []
    ∧ (facing [.bus (.write 0x00008 0)] State.reset).busy = false := by decide

theorem witness_EveryOtherCommandCompletes :
    clearing.busy = true ∧ clearing.cmdLatch ≠ 0x00000002 ∧ clearing.inputs = [] := by decide

theorem witness_ResetEndsEverything :
    (facing [.reset (some (.write 0x00018 5))] clearing).inputs = .reset (some (.write 0x00018 5)) :: []
    ∧ (facing [.reset none] clearing).inputs = .reset none :: [] := by decide

/-! ## Witnesses: DERIVE and the hash -/

/-- The text `"00"`, whose decoding is one zero byte (R143). -/
def textZero : State := withInput [0x30, 0x30]

theorem witness_DeriveStoresDigest : textZero.inLen.toNat ≤ textZero.cfg.bufBytes ∧ ([0] : List Byte) ≠ []
    ∧ textZero.inLen.toNat = 2 * [(0 : Byte)].length
    ∧ (∀ i, i < textZero.inLen.toNat → isHex (textZero.ibuf.read i) = true)
    ∧ (∀ j, j < [(0 : Byte)].length → ([(0 : Byte)].getD j 0).toNat
        = 16 * hexval (textZero.ibuf.read (2 * j)) + hexval (textZero.ibuf.read (2 * j + 1))) := by decide

theorem witness_DeriveRefusesLongText :
    ({ State.reset with inLen := 4097 } : State).cfg.bufBytes < ({ State.reset with inLen := 4097 } : State).inLen.toNat := by
  decide

theorem witness_DeriveRefusesBlankText_empty : State.reset.inLen.toNat ≤ State.reset.cfg.bufBytes
    ∧ ∀ i, i < State.reset.inLen.toNat → isWS (State.reset.ibuf.read i) = true := by decide

theorem witness_DeriveRefusesBlankText_blank : (withInput [0x20, 0x0D]).inLen.toNat ≤ (withInput [0x20, 0x0D]).cfg.bufBytes
    ∧ ∀ i, i < (withInput [0x20, 0x0D]).inLen.toNat → isWS ((withInput [0x20, 0x0D]).ibuf.read i) = true := by decide

theorem witness_DeriveRefusesBadText_odd : (withInput [0x30]).inLen.toNat ≤ (withInput [0x30]).cfg.bufBytes
    ∧ (0 < (withInput [0x30]).inLen.toNat ∧ isWS ((withInput [0x30]).ibuf.read 0) = false)
    ∧ (withInput [0x30]).inLen.toNat % 2 = 1 := by decide

theorem witness_DeriveRefusesBadText_no_digit : (withInput [0x30, 0x67]).inLen.toNat ≤ (withInput [0x30, 0x67]).cfg.bufBytes
    ∧ (0 < (withInput [0x30, 0x67]).inLen.toNat ∧ isWS ((withInput [0x30, 0x67]).ibuf.read 0) = false)
    ∧ (1 < (withInput [0x30, 0x67]).inLen.toNat ∧ isHex ((withInput [0x30, 0x67]).ibuf.read 1) = false) := by decide

/-- The text `"Af00"`, whose letters are the two ends of the range. -/
def textUpperLower : State := withInput [0x41, 0x66, 0x30, 0x30]

/-- The same text with the case of both letters changed. -/
def textLowerUpper : State := withInput [0x61, 0x46, 0x30, 0x30]

theorem witness_DeriveIgnoresDigitCase : textLowerUpper.cfg = textUpperLower.cfg
    ∧ textLowerUpper.inLen = textUpperLower.inLen
    ∧ (∀ i, i < textUpperLower.inLen.toNat →
        textLowerUpper.ibuf.read i = textUpperLower.ibuf.read i
        ∨ (0x41 ≤ (textUpperLower.ibuf.read i).toNat ∧ (textUpperLower.ibuf.read i).toNat ≤ 0x46
            ∧ textLowerUpper.ibuf.read i = textUpperLower.ibuf.read i + 0x20)
        ∨ (0x41 ≤ (textLowerUpper.ibuf.read i).toNat ∧ (textLowerUpper.ibuf.read i).toNat ≤ 0x46
            ∧ textUpperLower.ibuf.read i = textLowerUpper.ibuf.read i + 0x20))
    ∧ exec .derive textUpperLower = .next (nextOf (exec .derive textUpperLower))
    ∧ exec .derive textLowerUpper = .next (nextOf (exec .derive textLowerUpper)) :=
  ⟨rfl, rfl, by decide, exec_nextOf _ _, exec_nextOf _ _⟩

theorem witness_NoKeyAfterFailedDerive :
    exec .derive State.reset = .next (nextOf (exec .derive State.reset))
    ∧ (nextOf (exec .derive State.reset)).errCode ≠ 0
    ∧ ({ State.reset with inLen := 4095 } : State).keyLen = (nextOf (exec .derive State.reset)).keyLen
    ∧ ({ State.reset with inLen := 4095 } : State).inLen.toNat < ({ State.reset with inLen := 4095 } : State).cfg.bufBytes
    ∧ ({ State.reset with inLen := 4096 } : State).keyLen = (nextOf (exec .derive State.reset)).keyLen
    ∧ ({ State.reset with inLen := 4096 } : State).inLen.toNat
      ≤ ({ State.reset with inLen := 4096 } : State).cfg.bufBytes := ⟨exec_nextOf _ _, by decide, by decide, by decide, by decide, by decide⟩

theorem witness_HashPaddingLayout : 8 * (rep 0 56).length < 2 ^ 64 := by decide

/-! ## Witnesses: GENKEY and the entropy port -/

theorem witness_GenkeyReturnsHexText :
    (drawing exampleDraw []).cfg.Legal ∧ (drawing exampleDraw []).scratch.drawn.length = 32 := by decide

theorem witness_GenkeyWaitsForEntropy_no_event : (drawing (rep 0 31) []).busy = true
    ∧ (drawing (rep 0 31) []).cmdLatch = 0x00000002 ∧ (drawing (rep 0 31) []).scratch.drawn.length < 32
    ∧ (drawing (rep 0 31) []).inputs = [] := by decide

theorem witness_GenkeyWaitsForEntropy_engine_event : (drawing [] [.engine]).busy = true
    ∧ (drawing [] [.engine]).cmdLatch = 0x00000002 ∧ (drawing [] [.engine]).scratch.drawn.length < 32
    ∧ (drawing [] [.engine]).inputs = .engine :: [] := by decide

theorem witness_EntropyTakenOnlyOnRequest_taken : (drawing (rep 0 31) [.entropy 7]).inputs = .entropy 7 :: []
    ∧ ((drawing (rep 0 31) [.entropy 7]).busy = true ∧ (drawing (rep 0 31) [.entropy 7]).cmdLatch = 0x00000002
      ∧ (drawing (rep 0 31) [.entropy 7]).scratch.drawn.length < 32) := by decide

theorem witness_EntropyTakenOnlyOnRequest_not_taken : (drawing (rep 0 32) [.entropy 7]).inputs = .entropy 7 :: []
    ∧ ¬((drawing (rep 0 32) [.entropy 7]).busy = true ∧ (drawing (rep 0 32) [.entropy 7]).cmdLatch = 0x00000002
      ∧ (drawing (rep 0 32) [.entropy 7]).scratch.drawn.length < 32) := by decide

theorem witness_GeneratedTextDerivesItsDraw : (withInput (hextext exampleDraw)).cfg.Legal ∧ exampleDraw.length = 32
    ∧ (withInput (hextext exampleDraw)).inLen.toNat = 64
    ∧ ∀ k, k < 32 →
      (withInput (hextext exampleDraw)).ibuf.read (2 * k) = hexchar ((exampleDraw.getD k 0).toNat / 16)
      ∧ (withInput (hextext exampleDraw)).ibuf.read (2 * k + 1) = hexchar ((exampleDraw.getD k 0).toNat % 16) := by
  decide +kernel

/-! ## Witnesses: ciphers -/

theorem witness_KeyScheduleRecurrence : (countUp 16).length = 16 ∧ (countUp 24).length = 24 ∧ (countUp 32).length = 32 := by
  decide

theorem witness_CipherAndInverseUndoEachOther :
    ((countUp 16).length = 16 ∨ (countUp 16).length = 24 ∨ (countUp 16).length = 32) ∧ (countUp 16).length = 16 := by
  decide

/-- The longest plaintext that ENCRYPT takes, `BUF_BYTES - 1` bytes (R218), under a 24-byte key. -/
def longestPlaintext : State := { withKey [] (countUp 24) with inLen := 4095 }

theorem witness_EncryptTransformsPaddedBlocks : longestPlaintext.cfg.Legal
    ∧ longestPlaintext.inLen.toNat < longestPlaintext.cfg.bufBytes ∧ longestPlaintext.KeyLenOk := by decide

theorem witness_EncryptChecksCapacityThenKeyLength_capacity :
    ({ longestPlaintext with inLen := 4096 } : State).cfg.bufBytes
      ≤ ({ longestPlaintext with inLen := 4096 } : State).inLen.toNat := by decide

theorem witness_EncryptChecksCapacityThenKeyLength_key_length :
    ({ longestPlaintext with keyLen := 0x00010010 } : State).inLen.toNat
      < ({ longestPlaintext with keyLen := 0x00010010 } : State).cfg.bufBytes
    ∧ ¬({ longestPlaintext with keyLen := 0x00010010 } : State).KeyLenOk := by decide

theorem witness_CiphertextLengthLaw : (withKey [] (rep 0 16)).cfg.Legal
    ∧ exec .encrypt (withKey [] (rep 0 16)) = .next (nextOf (exec .encrypt (withKey [] (rep 0 16))))
    ∧ (nextOf (exec .encrypt (withKey [] (rep 0 16)))).errCode = 0 := ⟨by decide, exec_nextOf _ _, by decide +kernel⟩

/-- A plaintext of 17 bytes `0f` has two equal blocks after padding: byte 16 and its 15 pad bytes are `0f` too (R213). -/
def twoEqualBlocks : State := withKey (rep 0x0f 17) (rep 0 16)

theorem witness_EqualBlocksEncryptEqually : twoEqualBlocks.cfg.Legal
    ∧ exec .encrypt twoEqualBlocks = .next (nextOf (exec .encrypt twoEqualBlocks))
    ∧ (nextOf (exec .encrypt twoEqualBlocks)).errCode = 0
    ∧ 0 ≤ twoEqualBlocks.inLen.toNat / 16 ∧ 1 ≤ twoEqualBlocks.inLen.toNat / 16
    ∧ ∀ k, k < 16 → twoEqualBlocks.paddedByte (16 * 0 + k) = twoEqualBlocks.paddedByte (16 * 1 + k) :=
  ⟨by decide, exec_nextOf _ _, by decide +kernel, by decide, by decide, by decide⟩

/-- A ciphertext whose inverse transform is 15 zero bytes and one pad byte `01`. -/
def shortestPadding : State :=
  withKey (cipher (rep 0 15 ++ [1]) (keyExpansion (rep 0 16)) 10) (rep 0 16)

theorem shortestPadding_foundPad : shortestPadding.foundPad = 1 := by decide +kernel

theorem witness_DecryptStripsPadding : shortestPadding.cfg.Legal
    ∧ shortestPadding.inLen.toNat ≤ shortestPadding.cfg.bufBytes ∧ shortestPadding.KeyLenOk
    ∧ shortestPadding.inLen.toNat ≠ 0 ∧ shortestPadding.inLen.toNat % 16 = 0 ∧ shortestPadding.PadOk := by
  refine ⟨by decide, by decide +kernel, by decide +kernel, by decide +kernel, by decide +kernel, ?_⟩
  refine ⟨by rw [shortestPadding_foundPad], by rw [shortestPadding_foundPad]; decide, fun i h1 h2 => ?_⟩
  rw [shortestPadding_foundPad] at h2
  have h : i = 1 := by omega
  rw [h]
  rfl

/-- A ciphertext whose inverse transform is all zero (program P3 of 95_test_vectors.md). -/
def noPadding : State := withKey zeroCiphertext (rep 0 32)

theorem witness_DecryptRefusesBadPadding : noPadding.inLen.toNat ≤ noPadding.cfg.bufBytes ∧ noPadding.KeyLenOk
    ∧ noPadding.inLen.toNat ≠ 0 ∧ noPadding.inLen.toNat % 16 = 0 ∧ ¬noPadding.PadOk := by
  have h : noPadding.foundPad = 0 := by decide +kernel
  refine ⟨by decide, by decide, by decide, by decide, fun hp => ?_⟩
  have := hp.1
  omega

theorem witness_DecryptChecksBeforeTheTransform_capacity :
    ({ noPadding with inLen := 4097 } : State).cfg.bufBytes < ({ noPadding with inLen := 4097 } : State).inLen.toNat := by
  decide

theorem witness_DecryptChecksBeforeTheTransform_key_length :
    ({ noPadding with inLen := 4096, keyLen := 31 } : State).inLen.toNat
      ≤ ({ noPadding with inLen := 4096, keyLen := 31 } : State).cfg.bufBytes
    ∧ ¬({ noPadding with inLen := 4096, keyLen := 31 } : State).KeyLenOk := by decide

theorem witness_DecryptChecksBeforeTheTransform_length_zero :
    ({ noPadding with inLen := 0 } : State).inLen.toNat ≤ ({ noPadding with inLen := 0 } : State).cfg.bufBytes
    ∧ ({ noPadding with inLen := 0 } : State).KeyLenOk ∧ ({ noPadding with inLen := 0 } : State).inLen.toNat = 0 := by
  decide

theorem witness_DecryptChecksBeforeTheTransform_length_fifteen :
    ({ noPadding with inLen := 15 } : State).inLen.toNat ≤ ({ noPadding with inLen := 15 } : State).cfg.bufBytes
    ∧ ({ noPadding with inLen := 15 } : State).KeyLenOk
    ∧ ({ noPadding with inLen := 15 } : State).inLen.toNat % 16 ≠ 0 := by decide

/-- The state in which the output of an ENCRYPT of `s` has been copied to IBUF. -/
def copiedBack (s : State) : State :=
  { s with ibuf := (nextOf (exec .encrypt s)).obuf, inLen := (nextOf (exec .encrypt s)).outLen }

theorem copiedBack_spec (s : State) : (copiedBack s).cfg = s.cfg
    ∧ (copiedBack s).inLen = (nextOf (exec .encrypt s)).outLen
    ∧ (∀ a, a < (nextOf (exec .encrypt s)).outLen.toNat →
        (copiedBack s).ibuf.read a = (nextOf (exec .encrypt s)).obuf.read a)
    ∧ (copiedBack s).keyLen = s.keyLen ∧ ∀ a, a < s.keyLen.toNat → (copiedBack s).key.read a = s.key.read a :=
  ⟨rfl, rfl, fun _ _ => rfl, rfl, fun _ _ => rfl⟩

theorem witness_DecryptReturnsThePlaintext : longestPlaintext.cfg.Legal
    ∧ longestPlaintext.inLen.toNat < longestPlaintext.cfg.bufBytes ∧ longestPlaintext.KeyLenOk
    ∧ exec .encrypt longestPlaintext = .next (nextOf (exec .encrypt longestPlaintext))
    ∧ (copiedBack longestPlaintext).cfg = longestPlaintext.cfg
    ∧ (copiedBack longestPlaintext).inLen = (nextOf (exec .encrypt longestPlaintext)).outLen
    ∧ (∀ a, a < (nextOf (exec .encrypt longestPlaintext)).outLen.toNat →
        (copiedBack longestPlaintext).ibuf.read a = (nextOf (exec .encrypt longestPlaintext)).obuf.read a)
    ∧ (copiedBack longestPlaintext).keyLen = longestPlaintext.keyLen
    ∧ ∀ a, a < longestPlaintext.keyLen.toNat → (copiedBack longestPlaintext).key.read a = longestPlaintext.key.read a :=
  ⟨by decide, by decide, by decide, exec_nextOf _ _, copiedBack_spec _⟩

/-! ## Witnesses: reserved words, errors, footprints -/

theorem not_decode_zero : ∀ i, decode 0x00000000 ≠ .ok i := fun i h => by
  have e : decode 0x00000000 = .error .reservedOp := by decide
  rw [e] at h
  exact nomatch h

theorem witness_ReservedWordEndsInBadCommand :
    (facing [.bus (.write 0x00008 0), .engine] State.reset).busy = false ∧ (∀ i, decode 0x00000000 ≠ .ok i)
    ∧ (facing [.bus (.write 0x00008 0), .engine] State.reset).inputs = .bus (.write 0x00008 0) :: .engine :: [] :=
  ⟨rfl, not_decode_zero, rfl⟩

theorem witness_ErrorCodesOfEachCommand :
    exec .derive State.reset = .next (nextOf (exec .derive State.reset))
    ∧ exec .genkey (drawing exampleDraw []) = .next (nextOf (exec .genkey (drawing exampleDraw [])))
    ∧ 32 ≤ (drawing exampleDraw []).scratch.drawn.length
    ∧ exec .encrypt State.reset = .next (nextOf (exec .encrypt State.reset))
    ∧ exec .decrypt State.reset = .next (nextOf (exec .decrypt State.reset))
    ∧ exec (.clear true false) State.reset = .next (nextOf (exec (.clear true false) State.reset)) :=
  ⟨exec_nextOf _ _, exec_nextOf _ _, by decide, exec_nextOf _ _, exec_nextOf _ _, exec_nextOf _ _⟩

/-- A DERIVE, an ENCRYPT and a reserved word that fail. -/
theorem witness_FailureLeavesNoTrace :
    (running 0x00000001 [] State.reset).busy = true ∧ (running 0x00000001 [] State.reset).inputs = []
    ∧ step (running 0x00000001 [] State.reset) = .next (nextOf (step (running 0x00000001 [] State.reset)))
    ∧ (nextOf (step (running 0x00000001 [] State.reset))).busy = false
    ∧ (nextOf (step (running 0x00000001 [] State.reset))).errCode ≠ 0
    ∧ (nextOf (step (running 0x00000003 [] State.reset))).errCode ≠ 0
    ∧ (nextOf (step (running 0x00000000 [] State.reset))).errCode ≠ 0 :=
  ⟨rfl, rfl, rfl, by decide, by decide, by decide, by decide⟩

/-- The smallest and the largest instance (R9). -/
theorem witness_FirstCommandAfterReset : ({ bufBytes := 64 } : Config).Legal ∧ ({ bufBytes := 65536 } : Config).Legal
    ∧ exampleDraw.length = 32 ∧ (∀ i, decode 0x00000000 ≠ .ok i) := ⟨by decide, by decide, by decide, not_decode_zero⟩

/-- A machine with one input byte and a key of 16 bytes. -/
def plainOperands : State := withKey [1] (rep 3 16)

/-- The same operands, with another byte of IBUF at index `IN_LEN` and another byte of KEY at index `KEY_LEN`. -/
def plainOperandsAndMore : State := { withKey [1, 2] (rep 3 17) with inLen := 1, keyLen := 16 }

theorem witness_CommandsReadOnlyTheirOperands : plainOperandsAndMore.cfg = plainOperands.cfg
    ∧ plainOperandsAndMore.inLen = plainOperands.inLen ∧ plainOperandsAndMore.keyLen = plainOperands.keyLen
    ∧ (∀ a, a < plainOperands.inLen.toNat → plainOperandsAndMore.ibuf.read a = plainOperands.ibuf.read a)
    ∧ (∀ a, a < plainOperands.keyLen.toNat → plainOperandsAndMore.key.read a = plainOperands.key.read a)
    ∧ exec .encrypt plainOperands = .next (nextOf (exec .encrypt plainOperands))
    ∧ exec .encrypt plainOperandsAndMore = .next (nextOf (exec .encrypt plainOperandsAndMore)) :=
  ⟨rfl, rfl, rfl, by decide, by decide, exec_nextOf _ _, exec_nextOf _ _⟩

theorem witness_CommandsWriteOnlyTheirResults :
    exec .encrypt State.reset = .next (nextOf (exec .encrypt State.reset))
    ∧ (∀ ck, Instr.encrypt ≠ .clear true ck) ∧ Instr.encrypt ≠ .derive ∧ (∀ ci, Instr.encrypt ≠ .clear ci true) :=
  ⟨exec_nextOf _ _, fun _ h => (nomatch h), fun h => (nomatch h), fun _ h => (nomatch h)⟩

/-! ## Witnesses: the bus -/

/-- The last words of the three windows of the default instance. -/
theorem witness_IdleReadsShowTheState : State.reset.busy = false ∧ State.reset.cfg.Legal
    ∧ (7 < 8 ∧ (0x0005C : BusAddr).toNat = 0x00040 + 4 * 7)
    ∧ (4 * 1023 < State.reset.cfg.bufBytes ∧ (0x10FFC : BusAddr).toNat = 0x10000 + 4 * 1023)
    ∧ (4 * 1023 < State.reset.cfg.bufBytes ∧ (0x20FFC : BusAddr).toNat = 0x20000 + 4 * 1023) := by decide

theorem witness_BusyReadsAreMasked : clearing.busy = true ∧ clearing.cfg.Legal ∧ clearing.Inv
    ∧ (0x0005C : BusAddr).toNat % 4 = 0 ∧ (0x40 ≤ (0x0005C : BusAddr).toNat ∧ (0x0005C : BusAddr).toNat < 0x60)
    ∧ (0x10FFC : BusAddr).toNat % 4 = 0
    ∧ (0x10000 ≤ (0x10FFC : BusAddr).toNat ∧ (0x10FFC : BusAddr).toNat < 0x10000 + clearing.cfg.bufBytes)
    ∧ (0x20FFC : BusAddr).toNat % 4 = 0
    ∧ (0x20000 ≤ (0x20FFC : BusAddr).toNat ∧ (0x20FFC : BusAddr).toNat < 0x20000 + clearing.cfg.bufBytes) := by decide

theorem witness_ReadsChangeNothing :
    (facing [.bus (.read 0x3FFFF)] clearing).inputs = .bus (.read 0x3FFFF) :: [] := by decide

/-- A misaligned address, the first address after the registers, and the first after the IBUF window. -/
theorem witness_UnmappedAccessesAnswerError :
    ¬MappedAddress 4096 (0x0001A : BusAddr).toNat ∧ ¬MappedAddress 4096 (0x00024 : BusAddr).toNat
    ∧ ¬MappedAddress 4096 (0x11000 : BusAddr).toNat
    ∧ (facing [.bus (.read 0x11000)] clearing).inputs = .bus (.read 0x11000) :: []
    ∧ (facing [.bus (.write 0x11000 1)] clearing).inputs = .bus (.write 0x11000 1) :: [] := by
  refine ⟨?_, ?_, ?_, rfl, rfl⟩ <;> unfold MappedAddress <;> decide

theorem witness_ControlWritesActAtAnyTime :
    (facing [.bus (.write 0x0000C 0xA)] clearing).inputs = .bus (.write 0x0000C 0xA) :: []
    ∧ (facing [.bus (.write 0x00014 3)] clearing).inputs = .bus (.write 0x00014 3) :: [] := by decide

theorem witness_LengthWritesStoreTheWord :
    (facing [.bus (.write 0x00018 0xFFFFFFFF)] State.reset).busy = false
    ∧ (facing [.bus (.write 0x00018 0xFFFFFFFF)] State.reset).inputs = .bus (.write 0x00018 0xFFFFFFFF) :: []
    ∧ (facing [.bus (.write 0x00020 0xFFFFFFFF)] State.reset).inputs = .bus (.write 0x00020 0xFFFFFFFF) :: [] := by
  decide

theorem witness_WindowWritesStoreFourBytes_key : (facing [.bus (.write 0x0005C 5)] State.reset).Inv
    ∧ (facing [.bus (.write 0x0005C 5)] State.reset).busy = false
    ∧ (facing [.bus (.write 0x0005C 5)] State.reset).inputs = .bus (.write 0x0005C 5) :: []
    ∧ 7 < 8 ∧ (0x0005C : BusAddr).toNat = 0x00040 + 4 * 7 := by decide

theorem witness_WindowWritesStoreFourBytes_ibuf : (facing [.bus (.write 0x10FFC 5)] State.reset).Inv
    ∧ (facing [.bus (.write 0x10FFC 5)] State.reset).busy = false
    ∧ (facing [.bus (.write 0x10FFC 5)] State.reset).inputs = .bus (.write 0x10FFC 5) :: []
    ∧ 4 * 1023 < (facing [.bus (.write 0x10FFC 5)] State.reset).cfg.bufBytes
    ∧ (0x10FFC : BusAddr).toNat = 0x10000 + 4 * 1023 := by decide

theorem witness_LoadingPlacesTheBytes_ldi :
    (facing (hostEvents (DriverOp.ldi helloWorld).expand) State.reset).Inv
    ∧ (facing (hostEvents (DriverOp.ldi helloWorld).expand) State.reset).busy = false
    ∧ helloWorld.length ≤ (facing (hostEvents (DriverOp.ldi helloWorld).expand) State.reset).cfg.bufBytes
    ∧ (facing (hostEvents (DriverOp.ldi helloWorld).expand) State.reset).inputs
      = hostEvents (DriverOp.ldi helloWorld).expand ++ [] := by decide

theorem witness_LoadingPlacesTheBytes_ldk :
    (facing (hostEvents (DriverOp.ldk keyK0).expand) State.reset).Inv
    ∧ (facing (hostEvents (DriverOp.ldk keyK0).expand) State.reset).busy = false ∧ keyK0.length ≤ 32
    ∧ (facing (hostEvents (DriverOp.ldk keyK0).expand) State.reset).inputs
      = hostEvents (DriverOp.ldk keyK0).expand ++ [] := by decide

theorem witness_ReadOnlyWritesAreIgnored : clearing.cfg.Legal
    ∧ (facing [.bus (.write 0x20FFC 5)] clearing).inputs = .bus (.write 0x20FFC 5) :: []
    ∧ ReadOnlyAddress clearing.cfg.bufBytes (0x20FFC : BusAddr).toNat
    ∧ ReadOnlyAddress clearing.cfg.bufBytes (0x00000 : BusAddr).toNat := by
  refine ⟨by decide, rfl, ?_, ?_⟩ <;> unfold ReadOnlyAddress <;> decide

theorem witness_BusyWritesAreDropped : clearing.cfg.Legal ∧ clearing.busy = true
    ∧ (facing [.bus (.write 0x10FFC 5)] clearing).inputs = .bus (.write 0x10FFC 5) :: []
    ∧ OperandAddress clearing.cfg.bufBytes (0x10FFC : BusAddr).toNat
    ∧ OperandAddress clearing.cfg.bufBytes (0x00008 : BusAddr).toNat := by
  refine ⟨by decide, rfl, rfl, ?_, ?_⟩ <;> unfold OperandAddress <;> decide

/-! ## Witnesses: the interrupt and the whole machine -/

theorem witness_CompletionRaisesInterrupt :
    exec .encrypt State.reset = .next (nextOf (exec .encrypt State.reset))
    ∧ (Instr.encrypt = .genkey → 32 ≤ State.reset.scratch.drawn.length)
    ∧ State.reset.ieDone = false ∧ State.reset.ieErr = false
    ∧ ({ State.reset with ieDone := true } : State).ieDone = true
    ∧ ({ State.reset with ieErr := true } : State).ieErr = true := ⟨exec_nextOf _ _, fun h => (nomatch h), rfl, rfl, rfl, rfl⟩

theorem witness_InterruptFollowsDoneAndEnables : (0x2 : Word).getLsbD 1 = true ∧ State.reset.busy = false
    ∧ ({ State.reset with done := true } : State).done = true ∧ (0x1 : Word).getLsbD 0 = true
    ∧ (0x4 : Word).getLsbD 0 = false ∧ (0x4 : Word).getLsbD 1 = false := by decide

/-- An idle machine that is about to be given a DERIVE. -/
def starting : State := facing [.bus (.write 0x00008 1)] State.reset

/-- A machine with an operation in flight that is about to be reset. -/
def resetting : State := facing [.reset none] clearing

/-- The steps of the witnesses below are next states. -/
theorem steps_nextOf : step starting = .next (nextOf (step starting))
    ∧ step clearing = .next (nextOf (step clearing)) ∧ step resetting = .next (nextOf (step resetting)) := ⟨rfl, rfl, rfl⟩

/-- A start, a completion and a reset that change `BUSY`. -/
theorem witness_OnlyThreeStepsChangeBusy : (nextOf (step starting)).busy ≠ starting.busy
    ∧ (nextOf (step clearing)).busy ≠ clearing.busy ∧ (nextOf (step resetting)).busy ≠ resetting.busy := by decide

/-- A machine that has dropped a write, about to have the record of it cleared. -/
def acknowledging : State := facing [.bus (.write 0x0000C 8)] { clearing with busyw := true }

/-- A machine about to drop a write. -/
def dropping : State := facing [.bus (.write 0x00018 1)] clearing

theorem witness_OnlyDroppedWritesSetBusyw :
    step dropping = .next (nextOf (step dropping)) ∧ dropping.busyw = false ∧ (nextOf (step dropping)).busyw = true
    ∧ step acknowledging = .next (nextOf (step acknowledging))
    ∧ acknowledging.busyw = true ∧ (nextOf (step acknowledging)).busyw = false :=
  ⟨rfl, by decide, by decide, rfl, by decide, by decide⟩

/-- A reserved word in flight. -/
def failing : State := running 0x00000000 [] State.reset

/-- A machine with an error, about to start an operation. -/
def restarting : State := facing [.bus (.write 0x00008 1)] { State.reset with errCode := 7 }

theorem witness_OnlyCommandsChangeErrorCode :
    step failing = .next (nextOf (step failing)) ∧ (nextOf (step failing)).errCode ≠ failing.errCode
    ∧ step restarting = .next (nextOf (step restarting)) ∧ (nextOf (step restarting)).errCode ≠ restarting.errCode :=
  ⟨rfl, by decide, rfl, by decide⟩

theorem witness_OperandsAreFixedInFlight : clearing.busy = true
    ∧ step (facing [.bus (.write 0x00018 1)] clearing) = .next (nextOf (step (facing [.bus (.write 0x00018 1)] clearing)))
    ∧ (nextOf (step (facing [.bus (.write 0x00018 1)] clearing))).busy = true := ⟨rfl, rfl, by decide⟩

/-- An idle machine about to have a key byte written. -/
def keyWriting : State := facing [.bus (.write 0x0005C 1)] State.reset

/-- A host write, a completion and a reset that change the key. -/
theorem witness_OnlyNamedStepsChangeTheKey : step keyWriting = .next (nextOf (step keyWriting))
    ∧ ¬(nextOf (step keyWriting)).SameKey keyWriting
    ∧ ¬(nextOf (step clearing)).SameKey clearing ∧ ¬(nextOf (step resetting)).SameKey resetting := by
  refine ⟨rfl, fun h => ?_, fun h => ?_, fun h => ?_⟩
  · have := h.key 28
    revert this
    decide
  · have := h.keyLen
    revert this
    decide
  · have := h.keyLen
    revert this
    decide

end Sys2Proof.Machine
end

-- The state record: start, reset, and which steps change BUSY (10_state.md).
section
/-! SUPPORT. The rules of the bus registers and of the start step that the statements about 10_state.md use, and the
proofs of those statements. -/

namespace Sys2Proof.Machine

/-! ## What ID, CAP and STATUS read as -/

theorem busRead_id (s : State) : busRead s 0x00000 = (idWord, false) := by
  simp only [busRead, locate_id, readLoc]

theorem busRead_cap (s : State) : busRead s 0x00004 = (BitVec.ofNat 32 s.cfg.bufBytes, false) := by
  simp only [busRead, locate_cap, readLoc]

theorem busRead_status (s : State) : busRead s 0x0000C = (statusWord s, false) := by
  simp only [busRead, locate_status, readLoc]

/-- STATUS reads 0 when none of its four flags is set (R24). -/
theorem statusWord_eq_zero {s : State} (hbusy : s.busy = false) (hdone : s.done = false) (herr : s.errCode = 0)
    (hbusyw : s.busyw = false) : statusWord s = 0 := by
  simp [statusWord, errf, flagBit, hbusy, hdone, herr, hbusyw]

/-- `irq` is low while `DONE = 0` (R41). -/
theorem irq_of_not_done {s : State} (hdone : s.done = false) : irq s = false := by
  simp [irq, hdone]

/-- Settles O1: every element of the reset record is zero by definition, and the three reads follow. -/
theorem resetLeavesEveryElementZero : Obligations.ResetLeavesEveryElementZero := by
  intro c s
  have hstatus : busRead s 0x0000C = (0, false) := by
    rw [busRead_status, statusWord_eq_zero rfl rfl rfl rfl]
  exact ⟨rfl, rfl, rfl, rfl, rfl, rfl, rfl, rfl, rfl, Memory.read_nil, Memory.read_nil, Memory.read_nil, rfl, rfl,
    busRead_id s, busRead_cap s, hstatus, irq_of_not_done rfl⟩

/-! ## The host's transaction as a step -/

/-- A waiting transaction is the step (R84). -/
theorem step_bus {s : State} {op : BusOp} {rest : List Input} (h : s.inputs = .bus op :: rest) :
    step s = .next (busStep op s.popped) := by
  simp only [step, h, takeInput, State.popped, List.tail_cons]

/-- A write to CMD of an idle machine is the start step (R37). -/
theorem busWrite_cmd_of_idle {s : State} (h : s.busy = false) (w : Word) :
    busWrite s 0x00008 w = (startStep w s, false) := by
  simp only [busWrite, locate_cmd, writeLoc, whenIdle_of_idle h]

/-- Settles O10: the step is the start step on the state less its first event, with the response `err = 0`. -/
theorem commandWriteStartsOperation : Obligations.CommandWriteStartsOperation := by
  intro s w rest hinputs hidle
  have hwrite : busWrite s.popped 0x00008 w = (startStep w s.popped, false) :=
    busWrite_cmd_of_idle (s := s.popped) hidle w
  have hstep : step s = .next { startStep w s.popped with resp := some (.write false) } := by
    rw [step_bus hinputs, busStep, hwrite]
  have hrest : s.popped.inputs = rest := by rw [State.popped, hinputs, List.tail_cons]
  exact ⟨_, hstep, rfl, rfl, rfl, rfl, rfl, ⟨rfl, fun _ => rfl⟩, ⟨rfl, fun _ => rfl⟩, fun _ => rfl,
    rfl, rfl, rfl, rfl, rfl, hrest, rfl, rfl⟩

/-! ## Which steps change BUSY -/

/-- The only write that changes `BUSY` is one to CMD of an idle machine (R25, R78). -/
theorem busWrite_changes_busy {s : State} {a : BusAddr} {v : Word} (h : (busWrite s a v).1.busy ≠ s.busy) :
    s.busy = false ∧ a = 0x00008 ∧ (busWrite s a v).1 = startStep v s := by
  rcases busWrite_cases s a v with ⟨hw, -⟩ | ⟨hw, -⟩ | ⟨hw, -⟩ | ⟨hw, -⟩ | ⟨-, hw, -⟩ | ⟨hidle, hw, ha⟩ | ⟨-, hw, -⟩
    | ⟨-, hw, -⟩ | ⟨_, -, hw, -⟩ | ⟨_, -, hw, -⟩
  -- the start step; every other effect of a write keeps `BUSY`
  case inr.inr.inr.inr.inr.inl => exact ⟨hidle, BitVec.eq_of_toNat_eq ha, by rw [hw]⟩
  all_goals
    rw [hw] at h
    exact absurd rfl h

/-- The only transaction that changes `BUSY` is the start step, which latches the word written (R25, R37). -/
theorem busStep_changes_busy {s : State} {op : BusOp} (h : (busStep op s).busy ≠ s.busy) :
    s.busy = false ∧ ∃ w, op = .write 0x00008 w ∧ (busStep op s).cmdLatch = w := by
  cases op with
  | read a => exact absurd rfl h
  | write a v =>
    obtain ⟨hidle, rfl, hstart⟩ := busWrite_changes_busy h
    exact ⟨hidle, v, rfl, congrArg State.cmdLatch hstart⟩

/-- Settles O56, by cases on what the step did: entropy and an engine's turn without a completion keep `BUSY`. -/
theorem onlyThreeStepsChangeBusy : Obligations.OnlyThreeStepsChangeBusy := by
  intro s t hstep hchange
  rcases step_cases hstep with ⟨op, rest, hinputs, rfl⟩ | ⟨b, rest, -, rfl⟩ | ⟨during, rest, hinputs, -⟩
    | ⟨-, -, rfl⟩ | ⟨-, -, -, -, rfl⟩ | ⟨hturn, hbusy, -, rfl⟩
  · -- a transaction
    obtain ⟨hidle, w, rfl, hlatch⟩ := busStep_changes_busy (s := s.popped) hchange
    exact .inl ⟨hidle, w, rest, hinputs, hlatch⟩
  · -- an entropy byte
    exact absurd (takeEntropy_busy b s.popped) hchange
  · -- reset
    exact .inr (.inr ⟨during, rest, hinputs⟩)
  · -- the engine's turn, idle
    exact absurd rfl hchange
  · -- the engine's turn, a GENKEY that waits
    exact absurd rfl hchange
  · -- a completion
    exact .inr (.inl ⟨hbusy, commit_done _ _, hturn⟩)

end Sys2Proof.Machine
end

-- Reads over the bus: what an address reads as while idle and while busy, and that no read changes state (20_memory.md).
section
/-! SUPPORT. The words of the registers as numbers and the guarded words of the windows, which the statements about the
reads of 20_memory.md use, and the proofs of those statements. -/

namespace Sys2Proof.Machine

/-! ## The words of STATUS, ERR and IEN as numbers -/

/-- STATUS is the sum of its flags by weight (R24, R77). -/
theorem statusWord_eq_ofNat (s : State) : statusWord s = BitVec.ofNat 32
    (s.busy.toNat + 2 * s.done.toNat + 4 * (if s.errCode = 0 then 0 else 1) + 8 * s.busyw.toNat) := by
  have herrf : (errf s).toNat = if s.errCode = 0 then 0 else 1 := by
    by_cases h : s.errCode = 0
    · rw [errf, h, if_pos rfl]; rfl
    · rw [errf, bne_iff_ne.mpr h, if_neg h]; rfl
  simp only [statusWord, flagBit, ← BitVec.ofNat_add, herrf]
  congr 1
  omega

theorem statusWord_of_idle {s : State} (h : s.busy = false) : statusWord s = BitVec.ofNat 32
    (2 * s.done.toNat + 4 * (if s.errCode = 0 then 0 else 1) + 8 * s.busyw.toNat) := by
  rw [statusWord_eq_ofNat, h, Bool.toNat_false, Nat.zero_add]

theorem statusWord_of_busy {s : State} (h : s.busy = true) : statusWord s = BitVec.ofNat 32
    (1 + 2 * s.done.toNat + 4 * (if s.errCode = 0 then 0 else 1) + 8 * s.busyw.toNat) := by
  rw [statusWord_eq_ofNat, h, Bool.toNat_true]

/-- ERR holds `ERR_CODE` and nothing above it (R29). -/
theorem errWord_eq_ofNat (s : State) : errWord s = BitVec.ofNat 32 s.errCode.toNat :=
  (BitVec.ofNat_toNat 32 s.errCode).symm

/-- IEN is the sum of its two enables by weight (R30, R77). -/
theorem ienWord_eq_ofNat (s : State) : ienWord s = BitVec.ofNat 32 (s.ieDone.toNat + 2 * s.ieErr.toNat) := by
  simp only [ienWord, flagBit, ← BitVec.ofNat_add]
  congr 1
  omega

/-! ## What a mapped address reads as -/

/-- A read of a mapped address answers with the location's word, and never with a bus error (R72). -/
theorem busRead_of_locate {s : State} {a : BusAddr} {l : Loc} (h : locate s.cfg.bufBytes a = some l) :
    busRead s a = (readLoc s l, false) := by
  simp only [busRead, h]

theorem busRead_cmd (s : State) : busRead s 0x00008 = (0, false) := busRead_of_locate (locate_cmd _)

theorem busRead_err (s : State) : busRead s 0x00010 = (BitVec.ofNat 32 s.errCode.toNat, false) := by
  rw [busRead_of_locate (locate_err _), readLoc, errWord_eq_ofNat]

theorem busRead_ien (s : State) :
    busRead s 0x00014 = (BitVec.ofNat 32 (s.ieDone.toNat + 2 * s.ieErr.toNat), false) := by
  rw [busRead_of_locate (locate_ien _), readLoc, ienWord_eq_ofNat]

theorem busRead_inLen (s : State) : busRead s 0x00018 = (s.inLen, false) := busRead_of_locate (locate_inLen _)

theorem busRead_outLen (s : State) : busRead s 0x0001C = (s.outLen, false) := busRead_of_locate (locate_outLen _)

theorem busRead_keyLen (s : State) : busRead s 0x00020 = (s.keyLen, false) := busRead_of_locate (locate_keyLen _)

/-! ## The key bank and the two windows -/

theorem guardedWord_of_idle {s : State} (h : s.busy = false) (m : Memory) (off : Nat) :
    guardedWord s m off = windowWord m off := by
  simp [guardedWord, h]

theorem guardedWord_of_busy {s : State} (h : s.busy = true) (m : Memory) (off : Nat) : guardedWord s m off = 0 := by
  simp [guardedWord, h]

/-- While idle a location that reads a guarded word of `m` shows its four bytes, little-endian (R73, R77). -/
theorem busRead_window_of_idle {s : State} {a : BusAddr} {l : Loc} {m : Memory} {off : Nat} (hidle : s.busy = false)
    (hloc : locate s.cfg.bufBytes a = some l) (hword : readLoc s l = guardedWord s m off) :
    (busRead s a).2 = false ∧ (busRead s a).1.toNat =
      (m.read off).toNat + (m.read (off + 1)).toNat * 2 ^ 8 + (m.read (off + 2)).toNat * 2 ^ 16
        + (m.read (off + 3)).toNat * 2 ^ 24 := by
  rw [busRead_of_locate hloc, hword, guardedWord_of_idle hidle]
  exact ⟨rfl, windowWord_toNat m off⟩

/-- While busy a location that reads a guarded word answers 0 without bus error (R82). -/
theorem busRead_window_of_busy {s : State} {a : BusAddr} {l : Loc} {m : Memory} {off : Nat} (hbusy : s.busy = true)
    (hloc : locate s.cfg.bufBytes a = some l) (hword : readLoc s l = guardedWord s m off) :
    busRead s a = (0, false) := by
  rw [busRead_of_locate hloc, hword, guardedWord_of_busy hbusy]

/-- Settles O44: each register by its read rule, each window by its place in the map. The capacity bound of R9 keeps the
IBUF window, which the map tries first, below the OBUF window. -/
theorem idleReadsShowTheState : Obligations.IdleReadsShowTheState := by
  intro s hidle ⟨_, _, hcap⟩
  have hstatus := busRead_status s
  rw [statusWord_of_idle hidle] at hstatus
  refine ⟨busRead_id s, busRead_cap s, busRead_cmd s, hstatus, busRead_err s, busRead_ien s, busRead_inLen s,
    busRead_outLen s, busRead_keyLen s, fun a j hj ha => ?key, fun a j hj ha => ?ibuf, fun a j hj ha => ?obuf⟩
  case key => exact busRead_window_of_idle hidle (locate_key (by omega) (by omega) ha) rfl
  case ibuf => exact busRead_window_of_idle hidle (locate_ibuf (by omega) hj ha) rfl
  case obuf => exact busRead_window_of_idle hidle (locate_obuf (by omega) hcap hj ha) rfl

/-! ## Reads while an operation is in flight -/

/-- The invariant's share in R82: an operation in flight shows no `DONE`, no error and no output (R26, R37). -/
theorem State.Inv.clear_of_busy {s : State} (h : s.Inv) (hbusy : s.busy = true) :
    s.done = false ∧ s.errCode = 0 ∧ s.outLen = 0 := by
  obtain ⟨-, -, -, -, -, -, hexcl, -, -, hrun, -, -⟩ := h
  obtain ⟨herr, hout⟩ := hrun hbusy
  exact ⟨Bool.eq_false_iff.mpr fun hdone => hexcl ⟨hbusy, hdone⟩, herr, hout⟩

/-- R82's masking: an aligned address of the key bank or of a window reads 0 while an operation is in flight. -/
theorem busRead_masked {s : State} (hbusy : s.busy = true) (hcap : s.cfg.bufBytes ≤ 65536) {a : BusAddr}
    (h4 : a.toNat % 4 = 0)
    (ha : (0x40 ≤ a.toNat ∧ a.toNat < 0x60) ∨ (0x10000 ≤ a.toNat ∧ a.toNat < 0x10000 + s.cfg.bufBytes)
      ∨ (0x20000 ≤ a.toNat ∧ a.toNat < 0x20000 + s.cfg.bufBytes)) : busRead s a = (0, false) := by
  rcases ha with ⟨hlo, hhi⟩ | ⟨hlo, hhi⟩ | ⟨hlo, hhi⟩ <;> obtain ⟨off, hoff⟩ := Nat.exists_eq_add_of_le hlo
  · exact busRead_window_of_busy hbusy (locate_key (by omega) (by omega) hoff) rfl
  · exact busRead_window_of_busy hbusy (locate_ibuf (by omega) (by omega) hoff) rfl
  · exact busRead_window_of_busy hbusy (locate_obuf (by omega) hcap (by omega) hoff) rfl

/-- Settles O45: the masking, the registers by the same read rules as when idle, and the invariant. -/
theorem busyReadsAreMasked : Obligations.BusyReadsAreMasked := by
  intro s hbusy ⟨_, _, hcap⟩
  have hstatus := busRead_status s
  rw [statusWord_of_busy hbusy] at hstatus
  refine ⟨fun a h4 ha => busRead_masked hbusy hcap h4 ha, busRead_id s, busRead_cap s, busRead_cmd s, hstatus,
    busRead_err s, busRead_ien s, busRead_inLen s, busRead_outLen s, busRead_keyLen s, fun hinv => ?_⟩
  obtain ⟨hdone, herr, hout⟩ := hinv.clear_of_busy hbusy
  have herrRead := busRead_err s
  have houtRead := busRead_outLen s
  rw [herr] at herrRead
  rw [hout] at houtRead
  exact ⟨hdone, herrRead, houtRead⟩

/-! ## Reads as steps -/

/-- What a read answers does not depend on the events that wait. -/
theorem busRead_popped (s : State) (a : BusAddr) : busRead s.popped a = busRead s a := rfl

/-- Settles O46: the step is the transaction on the state less its first event, and a read sets only the response. -/
theorem readsChangeNothing : Obligations.ReadsChangeNothing := by
  intro s a rest hinputs
  have hpopped : s.popped = { s with inputs := rest } := by rw [State.popped, hinputs, List.tail_cons]
  rw [step_bus hinputs, busStep, busRead_popped, hpopped]

end Sys2Proof.Machine
end

-- Command words: which words decode to a command, and that they are the eight of the map (30_encoding.md).
section
/-! SUPPORT. A word decodes to a command exactly when it is that command's encoding (R103), and the proof of the statement
that lists the legal words. -/

namespace Sys2Proof

/-! ## A word and its fields -/

theorem ofBool_getLsbD (w : Word) (k : Nat) : BitVec.ofBool (w.getLsbD k) = w.extractLsb' k 1 := by
  rw [BitVec.getLsbD_eq_extractLsb']
  generalize w.extractLsb' k 1 = b
  revert b
  decide

/-- Every word is the word of its own fields: the five fields of format C cover it (R100). -/
theorem wordOf_fieldsOf (w : Word) : wordOf (fieldsOf w) = w := by
  simp only [wordOf, fieldsOf, ofBool_getLsbD, BitVec.extractLsb'_append_extractLsb'_eq_extractLsb']
  exact BitVec.extractLsb'_eq_self

/-- The mask of CLEAR's row clears the two select bits and keeps every other field (R103). -/
theorem fieldsOf_and_clearMask (w : Word) :
    fieldsOf (w &&& 0xFFFFFCFF) = { fieldsOf w with ci := false, ck := false } := by
  have hmask : fieldsOf 0xFFFFFCFF =
      { op := BitVec.allOnes 4, z0 := BitVec.allOnes 4, ci := false, ck := false, z1 := BitVec.allOnes 22 } := by decide
  simp only [fieldsOf, CommandFields.mk.injEq] at hmask
  obtain ⟨hop, hz0, hci, hck, hz1⟩ := hmask
  simp only [fieldsOf, BitVec.extractLsb'_and, BitVec.getLsbD_and, hop, hz0, hci, hck, hz1, BitVec.and_allOnes,
    Bool.and_false]

/-! ## Decoding and encoding -/

/-- A word that CLEAR's row matches has the fields of CLEAR with the word's own select bits, so it is their word. -/
theorem eq_encode_clear_of_masked {w : Word} (h : w &&& 0xFFFFFCFF = 0x00000005) :
    w = encode (.clear (w.getLsbD 8) (w.getLsbD 9)) := by
  have hfields : fieldsOf w = (Instr.clear (w.getLsbD 8) (w.getLsbD 9)).fields :=
    calc fieldsOf w
      _ = { fieldsOf (w &&& 0xFFFFFCFF) with ci := w.getLsbD 8, ck := w.getLsbD 9 } := by
        rw [fieldsOf_and_clearMask]; rfl
      _ = { fieldsOf 0x00000005 with ci := w.getLsbD 8, ck := w.getLsbD 9 } := by rw [h]
      _ = (Instr.clear (w.getLsbD 8) (w.getLsbD 9)).fields := rfl
  rw [encode, ← hfields, wordOf_fieldsOf]

theorem eq_encode_of_decode {w : Word} {i : Instr} (h : decode w = .ok i) : w = encode i := by
  rcases decode_cases h with ⟨rfl, rfl⟩ | ⟨rfl, rfl⟩ | ⟨rfl, rfl⟩ | ⟨rfl, rfl⟩ | ⟨hmasked, rfl⟩
  case inr.inr.inr.inr => exact eq_encode_clear_of_masked hmasked
  all_goals rfl

theorem decode_encode (i : Instr) : decode (encode i) = .ok i := by
  cases i with
  | clear ci ck => revert ci ck; decide
  | _ => rfl

/-! ## The eight legal words -/

theorem encode_eq_legal_word (i : Instr) :
    encode i = 0x00000001 ∨ encode i = 0x00000002 ∨ encode i = 0x00000003 ∨ encode i = 0x00000004
    ∨ encode i = 0x00000005 ∨ encode i = 0x00000105 ∨ encode i = 0x00000205 ∨ encode i = 0x00000305 := by
  cases i with
  | clear ci ck => revert ci ck; decide
  | _ => decide

/-- Settles O6: each of the eight words is the encoding of its command, and a word that decodes is an encoding. -/
theorem legalWordsAreTheEight : Obligations.LegalWordsAreTheEight := by
  refine ⟨decode_encode .derive, decode_encode .genkey, decode_encode .encrypt, decode_encode .decrypt,
    decode_encode (.clear false false), decode_encode (.clear true false), decode_encode (.clear false true),
    decode_encode (.clear true true), fun w i h => ?_⟩
  rw [eq_encode_of_decode h]
  exact encode_eq_legal_word i

end Sys2Proof
end

-- DERIVE: which texts fail, that the case of a digit does not matter, and that a failure leaves no key (40_key_deriver.md).
section
/-! SUPPORT. DERIVE's result on each kind of text and on texts that differ in the case of their digits, and the proofs of
the statements of 40_key_deriver.md. -/

namespace Sys2Proof.Machine

/-! ## DERIVE's result by the kind of its text -/

/-- The capacity check comes first (R132). -/
theorem deriveResult_of_long {s : State} (h : s.cfg.bufBytes < s.inLen.toNat) :
    deriveResult s = deriveFail .capacityExceeded := by
  rw [deriveResult, if_pos h]

theorem deriveResult_of_fits {s : State} (h : s.inLen.toNat ≤ s.cfg.bufBytes) :
    deriveResult s = deriveText (bytesOf s.ibuf s.inLen.toNat) := by
  rw [deriveResult, if_neg (Nat.not_lt.mpr h), Memory.readBytes_zero_eq]

/-- Check 1 (R133). -/
theorem deriveText_of_blank {t : List Byte} (h : ∀ c ∈ t, isWS c = true) : deriveText t = deriveFail .emptyKey := by
  rw [deriveText, if_pos (List.all_eq_true.mpr h)]

/-- Check 2, reached only by a text that is not blank (R134). -/
theorem deriveText_of_bad {t : List Byte} (hink : ∃ c ∈ t, isWS c = false)
    (hbad : t.length % 2 = 1 ∨ ∃ c ∈ t, isHex c = false) : deriveText t = deriveFail .invalidKeyFormat := by
  have hnot_blank : ¬t.all isWS = true := by
    obtain ⟨c, hc, hws⟩ := hink
    exact fun hall => Bool.false_ne_true (hws.symm.trans (List.all_eq_true.mp hall c hc))
  have hcheck : t.length % 2 = 1 ∨ t.any (fun c => !isHex c) = true := by simpa using hbad
  rw [deriveText, if_neg hnot_blank, if_pos hcheck]

/-! ## The completion of DERIVE -/

theorem exec_derive_eq (s : State) : exec .derive s = .next (commit (deriveResult s) s) :=
  exec_of_ready nofun

theorem exec_derive_fails {s : State} {e : Err} (h : deriveResult s = deriveFail e) :
    ∃ t, exec .derive s = .next t ∧ t.DeriveFailed s e :=
  ⟨_, exec_derive_eq s, h ▸ commit_deriveFail e s⟩

/-- Settles O14: the capacity check comes before every other. -/
theorem deriveRefusesLongText : Obligations.DeriveRefusesLongText :=
  fun _ hlong => exec_derive_fails (deriveResult_of_long hlong)

/-- Settles O15: the text fits, and it is the bytes that the premise calls whitespace. -/
theorem deriveRefusesBlankText : Obligations.DeriveRefusesBlankText := by
  intro s hfits hblank
  apply exec_derive_fails
  rw [deriveResult_of_fits hfits]
  apply deriveText_of_blank
  intro c hc
  obtain ⟨i, hi, rfl⟩ := mem_bytesOf.mp hc
  exact hblank i hi

/-- Settles O16: the text fits and passes check 1, and either cause of the premise fails check 2. -/
theorem deriveRefusesBadText : Obligations.DeriveRefusesBadText := by
  intro s hfits ⟨i, hi, hws⟩ hbad
  apply exec_derive_fails
  rw [deriveResult_of_fits hfits]
  refine deriveText_of_bad ⟨_, mem_bytesOf.mpr ⟨i, hi, rfl⟩, hws⟩ ?_
  rcases hbad with hodd | ⟨j, hj, hhex⟩
  · exact .inl (by rwa [bytesOf_length])
  · exact .inr ⟨_, mem_bytesOf.mpr ⟨j, hj, rfl⟩, hhex⟩

/-! ## No key after a failure -/

/-- DERIVE ends with an error code only where it failed, and then it has erased the key (R138). -/
theorem exec_derive_keyErased {s t : State} (h : exec .derive s = .next t) (herr : t.errCode ≠ 0) : t.KeyErased := by
  rw [exec_derive_eq] at h
  injection h with ht
  subst ht
  rcases deriveResult_cases s with ⟨e, hfail, -⟩ | ⟨m, hkey⟩
  · rw [hfail]
    exact (commit_deriveFail e s).key
  · rw [commit_errCode, hkey] at herr
    exact absurd rfl herr

/-- ENCRYPT's second check (R212). -/
theorem encryptResult_of_not_keyLenOk {s : State} (hfits : s.inLen.toNat < s.cfg.bufBytes) (hkey : ¬s.KeyLenOk) :
    encryptResult s = failResult .keyLengthMismatch := by
  rcases encryptResult_cases s with ⟨-, hcap⟩ | ⟨hres, -⟩ | ⟨-, -, hok⟩
  · omega
  · exact hres
  · exact absurd hok hkey

/-- DECRYPT's second check (R222). -/
theorem decryptResult_of_not_keyLenOk {s : State} (hfits : s.inLen.toNat ≤ s.cfg.bufBytes) (hkey : ¬s.KeyLenOk) :
    decryptResult s = failResult .keyLengthMismatch := by
  rcases decryptResult_cases s with ⟨-, hcap⟩ | ⟨hres, -⟩ | ⟨-, -, hok, -⟩ | ⟨-, -, hok, -⟩
  · omega
  · exact hres
  all_goals exact absurd hok hkey

/-- A failing command, other than the GENKEY that may wait, and the state it leaves (R256). -/
theorem exec_fails {i : Instr} {s : State} {e : Err} (hi : i ≠ .genkey) (h : commandResult i s = failResult e) :
    ∃ t, exec i s = .next t ∧ t.CommandFailed s e :=
  ⟨_, exec_of_ready fun hgen => absurd hgen hi, h ▸ commit_failResult e s⟩

/-- Settles O18: the failure erases the key, and a `KEY_LEN` of 0 is no legal key length. -/
theorem noKeyAfterFailedDerive : Obligations.NoKeyAfterFailedDerive := by
  intro s t u hexec herr
  have herased : t.KeyErased := exec_derive_keyErased hexec herr
  refine ⟨herased, fun hlen => ?_⟩
  have hkey : ¬u.KeyLenOk := by
    rw [State.KeyLenOk, hlen, herased.keyLen]
    decide
  exact ⟨fun hfits => exec_fails nofun (encryptResult_of_not_keyLenOk hfits hkey),
    fun hfits => exec_fails nofun (decryptResult_of_not_keyLenOk hfits hkey)⟩

/-! ## The case of a digit -/

/-- `A` to `F`. -/
abbrev IsUpperDigit (c : Byte) : Prop := 0x41 ≤ c.toNat ∧ c.toNat ≤ 0x46

/-- The letters `A` to `F` in lower case, every other byte as it is. -/
def lowerDigit (c : Byte) : Byte := if IsUpperDigit c then c + 0x20 else c

theorem lowerDigit_of_upper {c : Byte} (h : IsUpperDigit c) : lowerDigit c = c + 0x20 := if_pos h

theorem lowerDigit_of_not_upper {c : Byte} (h : ¬IsUpperDigit c) : lowerDigit c = c := if_neg h

theorem add_0x20_toNat {c : Byte} (h : IsUpperDigit c) : (c + 0x20).toNat = c.toNat + 0x20 := by
  obtain ⟨-, hhi⟩ := h
  bv_omega

/-- Both forms of a letter have one lower-case form. -/
theorem lowerDigit_add_0x20 {c : Byte} (h : IsUpperDigit c) : lowerDigit (c + 0x20) = lowerDigit c := by
  have hnot : ¬IsUpperDigit (c + 0x20) := by
    rw [IsUpperDigit, add_0x20_toNat h]
    omega
  rw [lowerDigit_of_not_upper hnot, lowerDigit_of_upper h]

theorem isHex_of_upper {c : Byte} (h : IsUpperDigit c) : isHex c = true := by
  simp [isHex, h]

theorem isHex_add_0x20 {c : Byte} (h : IsUpperDigit c) : isHex (c + 0x20) = true := by
  simp only [isHex, add_0x20_toNat h, Bool.or_eq_true, Bool.and_eq_true, decide_eq_true_eq]
  omega

theorem isHex_lowerDigit (c : Byte) : isHex (lowerDigit c) = isHex c := by
  by_cases h : IsUpperDigit c
  · rw [lowerDigit_of_upper h, isHex_of_upper h, isHex_add_0x20 h]
  · rw [lowerDigit_of_not_upper h]

theorem isWS_lowerDigit (c : Byte) : isWS (lowerDigit c) = isWS c := by
  by_cases h : IsUpperDigit c
  · rw [lowerDigit_of_upper h, not_isWS_of_isHex _ (isHex_of_upper h), not_isWS_of_isHex _ (isHex_add_0x20 h)]
  · rw [lowerDigit_of_not_upper h]

theorem hexval_lowerDigit (c : Byte) : hexval (lowerDigit c) = hexval c := by
  by_cases h : IsUpperDigit c
  · rw [lowerDigit_of_upper h]
    simp only [hexval, add_0x20_toNat h]
    split_ifs <;> omega
  · rw [lowerDigit_of_not_upper h]

/-! ## Texts that differ in the case of their digits -/

theorem hexDecode_map_lowerDigit (t : List Byte) : hexDecode (t.map lowerDigit) = hexDecode t := by
  induction t using hexDecode.induct with
  | case1 hi lo t ih => simp only [List.map_cons, hexDecode, hexPair, hexval_lowerDigit, ih]
  | case2 t hshort =>
    match t with
    | [] => rfl
    | [_] => rfl
    | a :: b :: u => exact absurd rfl (hshort a b u)

/-- DERIVE sees the same text in lower case: both checks and the decoded bytes read a byte by its class and value. -/
theorem deriveText_map_lowerDigit (t : List Byte) : deriveText (t.map lowerDigit) = deriveText t := by
  have hws : isWS ∘ lowerDigit = isWS := funext isWS_lowerDigit
  have hhex : (fun c => !isHex c) ∘ lowerDigit = fun c => !isHex c :=
    funext fun c => congrArg not (isHex_lowerDigit c)
  simp only [deriveText, List.all_map, List.any_map, List.length_map, hws, hhex, hexDecode_map_lowerDigit]

theorem bytesOf_map_lowerDigit_congr {m m' : Memory} {n : Nat}
    (h : ∀ i, i < n → lowerDigit (m'.read i) = lowerDigit (m.read i)) :
    (bytesOf m' n).map lowerDigit = (bytesOf m n).map lowerDigit := by
  simp only [bytesOf, List.map_map]
  exact List.map_congr_left fun i hi => h i (List.mem_range.mp hi)

/-- DERIVE's result depends on the capacity, `IN_LEN` and the text in lower case alone (R139, R141). -/
theorem deriveResult_congr {s s' : State} (hcfg : s'.cfg = s.cfg) (hlen : s'.inLen = s.inLen)
    (htext : ∀ i, i < s.inLen.toNat → lowerDigit (s'.ibuf.read i) = lowerDigit (s.ibuf.read i)) :
    deriveResult s' = deriveResult s := by
  by_cases hlong : s.cfg.bufBytes < s.inLen.toNat
  · rw [deriveResult_of_long hlong, deriveResult_of_long (by rwa [hcfg, hlen])]
  · have hfits : s.inLen.toNat ≤ s.cfg.bufBytes := Nat.not_lt.mp hlong
    have hfits' : s'.inLen.toNat ≤ s'.cfg.bufBytes := by rwa [hcfg, hlen]
    calc deriveResult s'
      _ = deriveText ((bytesOf s'.ibuf s.inLen.toNat).map lowerDigit) := by
        rw [deriveResult_of_fits hfits', hlen, deriveText_map_lowerDigit]
      _ = deriveText ((bytesOf s.ibuf s.inLen.toNat).map lowerDigit) := by
        rw [bytesOf_map_lowerDigit_congr htext]
      _ = deriveResult s := by rw [deriveText_map_lowerDigit, deriveResult_of_fits hfits]

/-- Every DERIVE writes the key bank, so none of the old key is left in it (R38, R137). -/
theorem deriveResult_keyw (s : State) : ∃ k l, (deriveResult s).keyw = some (k, l) ∧ k.length ≤ 32 := by
  rcases deriveResult_cases s with ⟨e, hfail, -⟩ | ⟨m, hkey⟩
  · exact ⟨rep 0 32, 0, by rw [hfail]; rfl, (rep_length 0 32).le⟩
  · exact ⟨sha256 m, 32, by rw [hkey], (sha256_length m).le⟩

/-- Settles O17: the two texts are one text in lower case, so the results agree, and a result fixes the whole key. -/
theorem deriveIgnoresDigitCase : Obligations.DeriveIgnoresDigitCase := by
  intro s s' t t' hcfg hlen htext hexec hexec'
  have hlower : ∀ i, i < s.inLen.toNat → lowerDigit (s'.ibuf.read i) = lowerDigit (s.ibuf.read i) := by
    intro i hi
    rcases htext i hi with heq | ⟨hlo, hhi, heq⟩ | ⟨hlo, hhi, heq⟩
    · rw [heq]
    · rw [heq, lowerDigit_add_0x20 ⟨hlo, hhi⟩]
    · rw [heq, lowerDigit_add_0x20 ⟨hlo, hhi⟩]
  rw [exec_derive_eq] at hexec
  rw [exec_derive_eq, deriveResult_congr hcfg hlen hlower] at hexec'
  injection hexec with ht
  injection hexec' with ht'
  subst ht ht'
  obtain ⟨k, l, hkeyw, hk⟩ := deriveResult_keyw s
  have hkey := commit_keyIs hkeyw hk s
  have hkey' := commit_keyIs hkeyw hk s'
  exact ⟨rfl, hkey'.keyLen.trans hkey.keyLen.symm, fun a => (hkey'.key a).trans (hkey.key a).symm⟩

end Sys2Proof.Machine
end

-- SHA-256: the layout of the padded message and the recurrence of the message schedule (41_sha256.md).
section
/-! SUPPORT. The parts of the padded message, one after the other, and the words of the message schedule, and the proofs of
the statements of 41_sha256.md. -/

namespace Sys2Proof.Machine

/-! ## The padded message -/

/-- The zero bytes fill the message, its mark and its length up to whole blocks (R154). -/
theorem add_sha256PadZeros (len : Nat) : len + 9 + sha256PadZeros len = 64 * ((len + 9 + 63) / 64) := by
  unfold sha256PadZeros; omega

theorem sha256PadZeros_lt (len : Nat) : sha256PadZeros len < 64 := Nat.mod_lt _ (by decide)

theorem sha256Pad_length (m : List Byte) : (sha256Pad m).length = m.length + 9 + sha256PadZeros m.length := by
  simp only [sha256Pad, List.length_append, List.length_singleton, rep_length, be64Bytes_length]; omega

theorem sha256Pad_getD_message {m : List Byte} {i : Nat} (h : i < m.length) :
    (sha256Pad m).getD i 0 = m.getD i 0 := by
  rw [sha256Pad, List.append_assoc, List.append_assoc, getD_append_left h]

/-- Past the message stand the mark, the zero bytes and the length. -/
theorem sha256Pad_getD_add (m : List Byte) (j : Nat) : (sha256Pad m).getD (m.length + j) 0 =
    ([0x80] ++ (rep 0 (sha256PadZeros m.length) ++ be64Bytes (BitVec.ofNat 64 (8 * m.length)))).getD j 0 := by
  rw [sha256Pad, List.append_assoc, List.append_assoc, getD_append_right (Nat.le_add_right _ _),
    Nat.add_sub_cancel_left]

theorem sha256Pad_getD_mark (m : List Byte) : (sha256Pad m).getD m.length 0 = 0x80 := sha256Pad_getD_add m 0

theorem sha256Pad_getD_zero (m : List Byte) {j : Nat} (h : j < sha256PadZeros m.length) :
    (sha256Pad m).getD (m.length + 1 + j) 0 = 0 := by
  rw [Nat.add_assoc, sha256Pad_getD_add, getD_append_right (by simp), getD_append_left (by simpa using h), rep_getD,
    ite_self]

/-- The last eight bytes are the bit count. -/
theorem sha256Pad_getD_bitCount (m : List Byte) (j : Nat) :
    (sha256Pad m).getD (m.length + 1 + sha256PadZeros m.length + j) 0 =
      (be64Bytes (BitVec.ofNat 64 (8 * m.length))).getD j 0 := by
  rw [Nat.add_assoc, Nat.add_assoc, sha256Pad_getD_add, getD_append_right (by simp),
    getD_append_right (by simp)]
  congr 1
  simp only [List.length_singleton, rep_length]; omega

/-- Counted from the end, the bytes of a big-endian 64-bit value are its digits to base 256 (R12). -/
theorem be64Bytes_getD_toNat (v : BitVec 64) {k : Nat} (h : k < 8) :
    ((be64Bytes v).getD (7 - k) 0).toNat = v.toNat / 2 ^ (8 * k) % 256 := by
  have hbyte : (be64Bytes v).getD (7 - k) 0 = v.extractLsb' (8 * k) 8 := by interval_cases k <;> rfl
  rw [hbyte, BitVec.extractLsb'_toNat, Nat.shiftRight_eq_div_pow]

/-- Settles O19: each part of the padded message read at its place, where the zero bytes end eight bytes before the last
block does. -/
theorem hashPaddingLayout : Obligations.HashPaddingLayout := by
  intro m hbits pm n
  have hn : m.length + 9 + sha256PadZeros m.length = 64 * n := add_sha256PadZeros m.length
  have hz := sha256PadZeros_lt m.length
  refine ⟨(sha256Pad_length m).trans hn, by omega, by omega, fun i => sha256Pad_getD_message, sha256Pad_getD_mark m,
    fun i hlo hhi => ?_, fun k hk => ?_⟩
  · obtain ⟨j, rfl⟩ := Nat.exists_eq_add_of_le hlo
    exact sha256Pad_getD_zero m (by omega)
  · have hplace : 64 * n - 1 - k = m.length + 1 + sha256PadZeros m.length + (7 - k) := by omega
    rw [hplace, sha256Pad_getD_bitCount, be64Bytes_getD_toNat _ hk, BitVec.toNat_ofNat, Nat.mod_eq_of_lt hbits]

/-! ## The message schedule -/

theorem sha256BlockWords_length (block : List Byte) : (sha256BlockWords block).length = 16 := by
  simp [sha256BlockWords]

theorem sha256BlockWords_getD (block : List Byte) {t : Nat} (h : t < 16) :
    (sha256BlockWords block).getD t 0 = be32 (slice block (4 * t) 4) := by
  simp [sha256BlockWords, List.getD, h]

theorem be32_slice_toNat (b : List Byte) (i : Nat) : (be32 (slice b i 4)).toNat =
    (b.getD i 0).toNat * 2 ^ 24 + (b.getD (i + 1) 0).toNat * 2 ^ 16
      + (b.getD (i + 2) 0).toNat * 2 ^ 8 + (b.getD (i + 3) 0).toNat := by
  rw [be32_toNat, slice_getD, slice_getD, slice_getD, slice_getD]; rfl

theorem sha256Extend_length (n : Nat) (ws : List Word) : (sha256Extend n ws).length = ws.length + n := by
  induction n generalizing ws with
  | zero => rfl
  | succ n ih => rw [sha256Extend, ih, List.length_append, List.length_singleton]; omega

/-- The words already there stay as they are. -/
theorem sha256Extend_getD_of_lt (n : Nat) {ws : List Word} {t : Nat} (h : t < ws.length) :
    (sha256Extend n ws).getD t 0 = ws.getD t 0 := by
  induction n generalizing ws with
  | zero => rfl
  | succ n ih => rw [sha256Extend, ih (by simp; omega), List.getD_append _ _ _ _ h]

/-- Word `t` depends on the words before it alone (R156). -/
theorem sha256NextWord_congr {ws ws' : List Word} {t : Nat} (ht : 0 < t)
    (h : ∀ i, i < t → ws'.getD i 0 = ws.getD i 0) : sha256NextWord ws' t = sha256NextWord ws t := by
  rw [sha256NextWord, h (t - 2) (by omega), h (t - 7) (by omega), h (t - 15) (by omega), h (t - 16) (by omega),
    sha256NextWord]

/-- Every word added obeys the recurrence in the whole schedule, not only in the part it was made from. -/
theorem sha256Extend_getD_eq_nextWord {n : Nat} {ws : List Word} {t : Nat} (hpos : 0 < ws.length)
    (hlo : ws.length ≤ t) (hhi : t < ws.length + n) :
    (sha256Extend n ws).getD t 0 = sha256NextWord (sha256Extend n ws) t := by
  induction n generalizing ws with
  | zero => omega
  | succ n ih =>
    rcases Nat.eq_or_lt_of_le hlo with rfl | hlt
    · calc (sha256Extend (n + 1) ws).getD ws.length 0
        _ = (ws ++ [sha256NextWord ws ws.length]).getD ws.length 0 := sha256Extend_getD_of_lt n (by simp)
        _ = sha256NextWord ws ws.length := by simp
        _ = sha256NextWord (sha256Extend (n + 1) ws) ws.length :=
          (sha256NextWord_congr hpos fun _ hi => sha256Extend_getD_of_lt (n + 1) hi).symm
    · have hlen : (ws ++ [sha256NextWord ws ws.length]).length = ws.length + 1 := by simp
      exact ih (by omega) (by omega) (by omega)

/-- Settles O20: the schedule keeps the block's sixteen words and extends them by 48 words of the recurrence. -/
theorem hashScheduleRecurrence : Obligations.HashScheduleRecurrence := by
  intro block w
  have hlen := sha256BlockWords_length block
  refine ⟨?_, fun t ht => ?_, fun t hlo hhi => ?_⟩
  · exact (sha256Extend_length 48 (sha256BlockWords block)).trans (by rw [hlen])
  · have hword : w.getD t 0 = be32 (slice block (4 * t) 4) :=
      (sha256Extend_getD_of_lt 48 (by omega)).trans (sha256BlockWords_getD block ht)
    rw [hword, be32_slice_toNat]
  · exact sha256Extend_getD_eq_nextWord (by omega) (by omega) (by omega)

end Sys2Proof.Machine
end

-- GENKEY: the text of a draw, and DERIVE of that text (42_random_key.md).
section
/-! SUPPORT. The text of a draw as the one string with its digits, DERIVE's result on a text of digits, and the proofs
of the statements of 42_random_key.md. -/

namespace Sys2Proof.Machine

/-! ## GENKEY with its bytes drawn -/

/-- With exactly its 32 bytes taken, GENKEY makes its text of all of them (R174). -/
theorem exec_genkey_of_drawn {s : State} (h : s.scratch.drawn.length = 32) :
    exec .genkey s = .next (commit (genkeyResult s.scratch.drawn) s) := by
  have htake : s.scratch.drawn.take randomBytes = s.scratch.drawn := List.take_of_length_le h.le
  rw [exec_of_ready fun _ => h.ge, commandResult, htake]

/-- Settles O21: the output is the text of the draw, 64 bytes long, which every legal OBUF holds. -/
theorem genkeyReturnsHexText : Obligations.GenkeyReturnsHexText := by
  intro s ⟨_, hcap, _⟩ hdrawn
  have hlen : (hextext s.scratch.drawn).length = 64 := by rw [hextext_length, hdrawn]
  have hout : (commit (genkeyResult s.scratch.drawn) s).OutputIs (hextext s.scratch.drawn) :=
    commit_outputIs (hlen.trans_le hcap) (hlen.trans_lt (by decide))
  refine ⟨_, exec_genkey_of_drawn hdrawn, commit_completed _ s, hout.outLen.trans hlen, fun k hk => ?_, fun a ha => ?_,
    commit_sameInput rfl s, commit_sameKey rfl s⟩
  · rw [hout.obuf, hout.obuf]
    exact hextext_getD _ k (hdrawn.symm ▸ hk)
  · rw [hout.obuf]
    exact getD_eq_zero_of_le (hlen.trans_le ha)

/-! ## The text of a draw, given to DERIVE -/

/-- The text of a draw is the one string that has its digits at the even and at the odd places. -/
theorem eq_hextext_of_getD {t r : List Byte} (hlen : t.length = 2 * r.length)
    (hdigits : ∀ k, k < r.length → t.getD (2 * k) 0 = hexchar ((r.getD k 0).toNat / 16)
      ∧ t.getD (2 * k + 1) 0 = hexchar ((r.getD k 0).toNat % 16)) : t = hextext r := by
  refine bytes_ext (hlen.trans (hextext_length r).symm) fun i hi => ?_
  obtain ⟨k, rfl | rfl⟩ := Nat.even_or_odd' i
  · have hk : k < r.length := by omega
    exact (hdigits k hk).1.trans (hextext_getD r k hk).1.symm
  · have hk : k < r.length := by omega
    exact (hdigits k hk).2.trans (hextext_getD r k hk).2.symm

/-- What a DERIVE that accepts a text decoded to `m` returns: no output, and the digest of `m` as the key (R136). -/
def digestResult (m : List Byte) : Result := { err := .none, out := [], keyw := some (sha256 m, 32), zeroIbuf := false }

/-- A text of digits that is not empty and of even length passes both checks (R133, R134), and its bytes are hashed
(R135, R136). -/
theorem deriveText_of_hex {t : List Byte} (hne : t ≠ []) (heven : t.length % 2 = 0)
    (hhex : ∀ c ∈ t, isHex c = true) : deriveText t = digestResult (hexDecode t) := by
  have hnot_blank : ¬t.all isWS = true := by
    obtain ⟨c, hc⟩ := List.exists_mem_of_ne_nil t hne
    simpa using ⟨c, hc, not_isWS_of_isHex c (hhex c hc)⟩
  have hnot_bad : ¬(t.length % 2 = 1 ∨ t.any (fun c => !isHex c) = true) := by
    simpa [heven] using hhex
  rw [deriveText, if_neg hnot_blank, if_neg hnot_bad, digestResult]

/-- DERIVE of the text of a draw makes the hash of the draw the key (R176). -/
theorem deriveText_hextext {r : List Byte} (hr : r ≠ []) : deriveText (hextext r) = digestResult r := by
  have hpos : 0 < (hextext r).length := by
    rw [hextext_length]
    exact Nat.mul_pos Nat.two_pos (List.length_pos_of_ne_nil hr)
  have heven : (hextext r).length % 2 = 0 := by rw [hextext_length, Nat.mul_mod_right]
  rw [deriveText_of_hex (List.ne_nil_of_length_pos hpos) heven fun _ => isHex_of_mem_hextext, hexDecode_hextext]

/-- Settles O24: the input is the text of the draw, whose bytes are all digits, and it decodes to the draw. -/
theorem generatedTextDerivesItsDraw : Obligations.GeneratedTextDerivesItsDraw := by
  intro s r ⟨_, hcap, _⟩ hr hlen hdigits
  have htext : bytesOf s.ibuf 64 = hextext r := by
    refine eq_hextext_of_getD (by rw [bytesOf_length, hr]) fun k hk => ?_
    rw [bytesOf_getD, bytesOf_getD, if_pos (by omega), if_pos (by omega)]
    exact hdigits k (hr ▸ hk)
  have hhex : ∀ i, i < 64 → isHex (s.ibuf.read i) = true := fun i hi =>
    isHex_of_mem_hextext (htext ▸ mem_bytesOf.mpr ⟨i, hi, rfl⟩)
  have hne : r ≠ [] := List.ne_nil_of_length_pos (by omega)
  have hresult : deriveResult s = digestResult r := by
    rw [deriveResult_of_fits (hlen.trans_le hcap), hlen, htext, deriveText_hextext hne]
  refine ⟨fun i hi => ⟨hhex i hi, not_isWS_of_isHex _ (hhex i hi)⟩, _, exec_derive_eq s, ?_⟩
  rw [hresult]
  exact ⟨commit_completed _ s, commit_keyIs rfl (sha256_length r).le s, commit_sameInput rfl s⟩

end Sys2Proof.Machine
end

-- AES: each step of the inverse cipher undoes one of the cipher, and the recurrence of the key schedule (43_aes_core.md).
section
/-! SUPPORT. The inverse of each step of a round, the rounds of the cipher undone one by one, the words of the key
schedule, and the proofs of the statements of 43_aes_core.md. -/

namespace Sys2Proof.Machine

open Function

/-! ## Substitution and shifting -/

/-- Entry by entry, over the 256 bytes of the tables (R184). -/
theorem isbox_sbox : LeftInverse isbox sbox := by
  unfold LeftInverse
  decide +kernel

/-- An injective map of bytes is onto, so `ISBOX` is the inverse on both sides. -/
theorem sbox_isbox : LeftInverse sbox isbox :=
  isbox_sbox.rightInverse_of_surjective (Finite.surjective_of_injective isbox_sbox.injective)

theorem AesColumn.map_leftInverse {f g : Byte → Byte} (h : LeftInverse g f) :
    LeftInverse (AesColumn.map g) (AesColumn.map f) := fun x => by
  simp only [AesColumn.map, h _]

theorem AesState.map_leftInverse {f g : AesColumn → AesColumn} (h : LeftInverse g f) :
    LeftInverse (AesState.map g) (AesState.map f) := fun s => by
  simp only [AesState.map, h _]

@[simp] theorem invSubBytes_subBytes (s : AesState) : invSubBytes (subBytes s) = s :=
  AesState.map_leftInverse (AesColumn.map_leftInverse isbox_sbox) s

@[simp] theorem subBytes_invSubBytes (s : AesState) : subBytes (invSubBytes s) = s :=
  AesState.map_leftInverse (AesColumn.map_leftInverse sbox_isbox) s

@[simp] theorem invShiftRows_shiftRows (s : AesState) : invShiftRows (shiftRows s) = s := rfl

@[simp] theorem shiftRows_invShiftRows (s : AesState) : shiftRows (invShiftRows s) = s := rfl

/-! ## Mixing of columns -/

/-- Multiplication by `x` is linear (R182): where both bytes overflow, the two reductions cancel. -/
theorem xtime_xor (a b : Byte) : xtime (a ^^^ b) = xtime a ^^^ xtime b := by
  rw [xtime, xtime, xtime, BitVec.getLsbD_xor, BitVec.shiftLeft_xor_distrib]
  cases a.getLsbD 7 <;> cases b.getLsbD 7 <;> simp
  case false.true => ac_rfl
  case true.false => ac_rfl
  case true.true => ac_nf; simp

/-! The factors of `InvMixColumns` (R188) as sums of powers of `x`. -/

theorem gmul_0x09 (a : Byte) : gmul a 0x09 = a ^^^ xtime (xtime (xtime a)) := by
  simp [gmul, gmulFrom]

theorem gmul_0x0b (a : Byte) : gmul a 0x0b = a ^^^ xtime a ^^^ xtime (xtime (xtime a)) := by
  simp [gmul, gmulFrom]

theorem gmul_0x0d (a : Byte) : gmul a 0x0d = a ^^^ xtime (xtime a) ^^^ xtime (xtime (xtime a)) := by
  simp [gmul, gmulFrom]

theorem gmul_0x0e (a : Byte) : gmul a 0x0e = xtime a ^^^ xtime (xtime a) ^^^ xtime (xtime (xtime a)) := by
  simp [gmul, gmulFrom]

/-- What `MixColumns` does to a column in two turns: every row is 5 times itself and 4 times the row two further on. -/
def mixColumnTwice (x : AesColumn) : AesColumn :=
  { r0 := x.r0 ^^^ xtime (xtime (x.r0 ^^^ x.r2))
    r1 := x.r1 ^^^ xtime (xtime (x.r1 ^^^ x.r3))
    r2 := x.r2 ^^^ xtime (xtime (x.r2 ^^^ x.r0))
    r3 := x.r3 ^^^ xtime (xtime (x.r3 ^^^ x.r1)) }

theorem mixColumn_mixColumn (x : AesColumn) : mixColumn (mixColumn x) = mixColumnTwice x := by
  simp only [mixColumn, mixColumnTwice, gmulThree, xtime_xor]
  ac_nf
  simp

/-- Four turns of `MixColumns` leave a column as it was. -/
theorem mixColumnTwice_involutive : Involutive mixColumnTwice := fun x => by
  simp only [mixColumnTwice, xtime_xor]
  ac_nf
  simp

/-- `InvMixColumns` is `MixColumns` in three turns. -/
theorem invMixColumn_eq (x : AesColumn) : invMixColumn x = mixColumn (mixColumnTwice x) := by
  simp only [invMixColumn, mixColumn, mixColumnTwice, gmulThree, gmul_0x09, gmul_0x0b, gmul_0x0d, gmul_0x0e, xtime_xor]
  ac_nf
  simp

theorem invMixColumn_mixColumn : LeftInverse invMixColumn mixColumn := fun x => by
  rw [invMixColumn_eq, ← mixColumn_mixColumn, mixColumn_mixColumn, mixColumn_mixColumn, mixColumnTwice_involutive]

theorem mixColumn_invMixColumn : LeftInverse mixColumn invMixColumn := fun x => by
  rw [invMixColumn_eq, mixColumn_mixColumn, mixColumnTwice_involutive]

@[simp] theorem invMixColumns_mixColumns (s : AesState) : invMixColumns (mixColumns s) = s :=
  AesState.map_leftInverse invMixColumn_mixColumn s

@[simp] theorem mixColumns_invMixColumns (s : AesState) : mixColumns (invMixColumns s) = s :=
  AesState.map_leftInverse mixColumn_invMixColumn s

/-! ## The rounds of the cipher and of its inverse -/

@[simp] theorem AesColumn.xor_xor_cancel_right (x k : AesColumn) : (x.xor k).xor k = x := by
  simp [AesColumn.xor]

/-- A round key added twice cancels (R189). -/
@[simp] theorem addRoundKey_addRoundKey (s : AesState) (w : List AesColumn) (rd : Nat) :
    addRoundKey (addRoundKey s w rd) w rd = s := by
  simp [addRoundKey]

/-- A round of the inverse cipher undoes one of the cipher that stands between two layers of substitution and shifting. -/
theorem invCipherRound_cipherRound (w : List AesColumn) (rd : Nat) (s : AesState) :
    invCipherRound w rd (shiftRows (subBytes (cipherRound w rd s))) = shiftRows (subBytes s) := by
  simp [invCipherRound, cipherRound]

theorem cipherRound_invCipherRound (w : List AesColumn) (rd : Nat) (s : AesState) :
    cipherRound w rd (invSubBytes (invShiftRows (invCipherRound w rd s))) = invSubBytes (invShiftRows s) := by
  simp [invCipherRound, cipherRound]

/-- The rounds `n` down to 1 of the inverse cipher undo the rounds 1 to `n` of the cipher, the last one first. -/
theorem invCipherRounds_cipherRounds (w : List AesColumn) (n : Nat) (s : AesState) :
    invCipherRounds w n (shiftRows (subBytes (cipherRounds w n s))) = shiftRows (subBytes s) := by
  induction n with
  | zero => rfl
  | succ n ih => rw [invCipherRounds, cipherRounds, invCipherRound_cipherRound, ih]

theorem cipherRounds_invCipherRounds (w : List AesColumn) (n : Nat) (s : AesState) :
    cipherRounds w n (invSubBytes (invShiftRows (invCipherRounds w n s))) = invSubBytes (invShiftRows s) := by
  induction n generalizing s with
  | zero => rfl
  | succ n ih => rw [invCipherRounds, cipherRounds, ih, cipherRound_invCipherRound]

/-- The inverse law on states, for any schedule and any number of rounds (R195). -/
theorem invCipherState_cipherState (s : AesState) (w : List AesColumn) (nr : Nat) :
    invCipherState (cipherState s w nr) w nr = s := by
  simp [invCipherState, cipherState, invCipherRounds_cipherRounds]

theorem cipherState_invCipherState (s : AesState) (w : List AesColumn) (nr : Nat) :
    cipherState (invCipherState s w nr) w nr = s := by
  simp [invCipherState, cipherState, cipherRounds_invCipherRounds]

theorem invCipher_cipher {x : List Byte} (h : x.length = 16) (w : List AesColumn) (nr : Nat) :
    invCipher (cipher x w nr) w nr = x := by
  rw [invCipher, cipher, aesState_ofBytes_bytes, invCipherState_cipherState, aesState_bytes_ofBytes h]

theorem cipher_invCipher {x : List Byte} (h : x.length = 16) (w : List AesColumn) (nr : Nat) :
    cipher (invCipher x w nr) w nr = x := by
  rw [invCipher, cipher, aesState_ofBytes_bytes, cipherState_invCipherState, aesState_bytes_ofBytes h]

/-- Settles O28: the law holds for every schedule and number of rounds, so for those of the key. -/
theorem cipherAndInverseUndoEachOther : Obligations.CipherAndInverseUndoEachOther :=
  fun _ _ _ hx => ⟨invCipher_cipher hx _ _, cipher_invCipher hx _ _⟩

/-! ## The key schedule -/

/-- Word `i` of the schedule as the words before it give it (R192). -/
def keyNextWord (nk : Nat) (ws : List AesColumn) (i : Nat) : AesColumn :=
  (roundKeyWord ws (i - nk)).xor (keyTemp nk i (roundKeyWord ws (i - 1)))

theorem keyExtend_succ (nk n : Nat) (ws : List AesColumn) :
    keyExtend nk (n + 1) ws = keyExtend nk n (ws ++ [keyNextWord nk ws ws.length]) := rfl

theorem keyExtend_length (nk n : Nat) (ws : List AesColumn) : (keyExtend nk n ws).length = ws.length + n := by
  induction n generalizing ws with
  | zero => rfl
  | succ n ih => rw [keyExtend_succ, ih, List.length_append, List.length_singleton]; omega

/-- The words already there stay as they are. -/
theorem roundKeyWord_keyExtend_of_lt (nk n : Nat) {ws : List AesColumn} {i : Nat} (h : i < ws.length) :
    roundKeyWord (keyExtend nk n ws) i = roundKeyWord ws i := by
  induction n generalizing ws with
  | zero => rfl
  | succ n ih => rw [keyExtend_succ, ih (by simp; omega), roundKeyWord, List.getD_append _ _ _ _ h, roundKeyWord]

theorem roundKeyWord_append_length (ws : List AesColumn) (x : AesColumn) : roundKeyWord (ws ++ [x]) ws.length = x := by
  simp [roundKeyWord]

/-- Word `i` depends on the words before it alone. -/
theorem keyNextWord_congr {nk i : Nat} {ws ws' : List AesColumn} (hnk : 0 < nk) (hi : 0 < i)
    (h : ∀ j, j < i → roundKeyWord ws' j = roundKeyWord ws j) : keyNextWord nk ws' i = keyNextWord nk ws i := by
  rw [keyNextWord, h (i - nk) (by omega), h (i - 1) (by omega), keyNextWord]

/-- Every word added obeys the recurrence in the whole schedule, not only in the part it was made from. -/
theorem roundKeyWord_keyExtend {nk n i : Nat} {ws : List AesColumn} (hnk : 0 < nk) (hpos : 0 < ws.length)
    (hlo : ws.length ≤ i) (hhi : i < ws.length + n) :
    roundKeyWord (keyExtend nk n ws) i = keyNextWord nk (keyExtend nk n ws) i := by
  induction n generalizing ws with
  | zero => omega
  | succ n ih =>
    rcases Nat.eq_or_lt_of_le hlo with rfl | hlt
    · calc roundKeyWord (keyExtend nk (n + 1) ws) ws.length
        _ = roundKeyWord (ws ++ [keyNextWord nk ws ws.length]) ws.length := roundKeyWord_keyExtend_of_lt nk n (by simp)
        _ = keyNextWord nk ws ws.length := roundKeyWord_append_length _ _
        _ = keyNextWord nk (keyExtend nk (n + 1) ws) ws.length :=
          (keyNextWord_congr hnk hpos fun _ hj => roundKeyWord_keyExtend_of_lt nk (n + 1) hj).symm
    · have hlen : (ws ++ [keyNextWord nk ws ws.length]).length = ws.length + 1 := by simp
      rw [keyExtend_succ]
      exact ih (by omega) (by omega) (by omega)

/-- The words of the key itself, with which the schedule begins. -/
def keyColumns (key : List Byte) : List AesColumn :=
  (List.range (keyWords key)).map fun i => AesColumn.ofBytes key (4 * i)

theorem keyExpansion_eq (key : List Byte) : keyExpansion key =
    keyExtend (keyWords key) (4 * (keyRounds key + 1) - keyWords key) (keyColumns key) := rfl

theorem keyColumns_length (key : List Byte) : (keyColumns key).length = keyWords key := by
  simp [keyColumns]

theorem roundKeyWord_keyColumns {key : List Byte} {i : Nat} (h : i < keyWords key) :
    roundKeyWord (keyColumns key) i = AesColumn.ofBytes key (4 * i) := by
  simp [roundKeyWord, keyColumns, List.getD, h]

theorem keyExpansion_length (key : List Byte) : (keyExpansion key).length = 4 * (keyRounds key + 1) := by
  rw [keyExpansion_eq, keyExtend_length, keyColumns_length, keyRounds]; omega

theorem roundKeyWord_keyExpansion_of_lt {key : List Byte} {i : Nat} (h : i < keyWords key) :
    roundKeyWord (keyExpansion key) i = AesColumn.ofBytes key (4 * i) := by
  rw [keyExpansion_eq, roundKeyWord_keyExtend_of_lt _ _ (by rwa [keyColumns_length]), roundKeyWord_keyColumns h]

theorem roundKeyWord_keyExpansion {key : List Byte} {i : Nat} (hkey : 0 < keyWords key) (hlo : keyWords key ≤ i)
    (hhi : i < (keyExpansion key).length) :
    roundKeyWord (keyExpansion key) i = keyNextWord (keyWords key) (keyExpansion key) i := by
  have hlen := keyColumns_length key
  rw [keyExpansion_eq] at hhi ⊢
  rw [keyExtend_length] at hhi
  exact roundKeyWord_keyExtend hkey (by omega) (by omega) hhi

/-- Settles O27: the schedule keeps the words of the key, of which a legal key has some, and extends them by words of the
recurrence. -/
theorem keyScheduleRecurrence : Obligations.KeyScheduleRecurrence := by
  intro key hlegal
  have hkey : 0 < keyWords key := by unfold keyWords; omega
  exact ⟨keyExpansion_length key, fun _ => roundKeyWord_keyExpansion_of_lt,
    fun _ => roundKeyWord_keyExpansion hkey⟩

end Sys2Proof.Machine
end

-- ENCRYPT and DECRYPT: the checks, the blocks of the ciphertext, and the round trip (44_cipher_engine.md).
section
/-! SUPPORT. The results of ENCRYPT and DECRYPT by their checks, the ciphertext block by block, and how the block-wise
transform and the padding are undone, and the proofs of the statements of 44_cipher_engine.md. -/

namespace Sys2Proof.Machine

/-! ## The checks -/

/-- ENCRYPT's first check (R211). -/
theorem encryptResult_of_long {s : State} (hlong : s.cfg.bufBytes ≤ s.inLen.toNat) :
    encryptResult s = failResult .capacityExceeded := by
  rw [encryptResult, if_pos hlong]

/-- Settles O30: the two checks of ENCRYPT, of which the second is reached where the plaintext fits. -/
theorem encryptChecksCapacityThenKeyLength : Obligations.EncryptChecksCapacityThenKeyLength :=
  fun _ => ⟨fun hlong => exec_fails nofun (encryptResult_of_long hlong),
    fun hfits hkey => exec_fails nofun (encryptResult_of_not_keyLenOk hfits hkey)⟩

/-- DECRYPT's first check (R221). -/
theorem decryptResult_of_long {s : State} (hlong : s.cfg.bufBytes < s.inLen.toNat) :
    decryptResult s = failResult .capacityExceeded := by
  rw [decryptResult, if_pos hlong]

/-- DECRYPT's third check (R223). -/
theorem decryptResult_of_malformed {s : State} (hfits : s.inLen.toNat ≤ s.cfg.bufBytes) (hkey : s.KeyLenOk)
    (hlen : s.inLen.toNat = 0 ∨ s.inLen.toNat % 16 ≠ 0) : decryptResult s = failResult .malformedCiphertext := by
  rcases decryptResult_cases s with ⟨-, hcap⟩ | ⟨-, -, hbad⟩ | ⟨hres, -⟩ | ⟨-, -, -, hpos, hmod⟩
  · omega
  · exact absurd hkey hbad
  · exact hres
  · omega

/-- Settles O35: the three checks of DECRYPT, each reached where those before it pass. -/
theorem decryptChecksBeforeTheTransform : Obligations.DecryptChecksBeforeTheTransform :=
  fun _ => ⟨fun hlong => exec_fails nofun (decryptResult_of_long hlong),
    fun hfits hkey => exec_fails nofun (decryptResult_of_not_keyLenOk hfits hkey),
    fun hfits hkey hlen => exec_fails nofun (decryptResult_of_malformed hfits hkey hlen)⟩

/-! ## The ciphertext -/

/-- What ENCRYPT makes of the operands of `s` when they pass its checks (R214, R215). -/
def State.ciphertext (s : State) : List Byte :=
  ecbEncrypt (pad (bytesOf s.ibuf s.inLen.toNat)) (bytesOf s.key s.keyLen.toNat)

theorem encryptResult_of_accepted {s : State} (hfits : s.inLen.toNat < s.cfg.bufBytes) (hkey : s.KeyLenOk) :
    encryptResult s = outputResult s.ciphertext := by
  rcases encryptResult_cases s with ⟨-, hcap⟩ | ⟨-, -, hbad⟩ | ⟨hres, -⟩
  · omega
  · exact absurd hkey hbad
  · exact hres

theorem State.ciphertext_length (s : State) : s.ciphertext.length = 16 * (s.inLen.toNat / 16 + 1) := by
  rw [State.ciphertext, ecbEncrypt_length, pad_length, bytesOf_length]
  omega

/-- The capacity is a multiple of 16, so the padding fits where one byte more than the plaintext does (R216). -/
theorem State.ciphertext_length_le {s : State} (hc : s.cfg.Legal) (hfits : s.inLen.toNat < s.cfg.bufBytes) :
    s.ciphertext.length ≤ s.cfg.bufBytes := by
  rw [s.ciphertext_length]
  omega

/-- A block of the padded plaintext, byte by byte (R213). -/
theorem slice_pad_eq_paddedBlock {s : State} {b : Nat} (hb : b ≤ s.inLen.toNat / 16) :
    slice (pad (bytesOf s.ibuf s.inLen.toNat)) (16 * b) 16 = s.paddedBlock b := by
  have hlen : (pad (bytesOf s.ibuf s.inLen.toNat)).length = 16 * (s.inLen.toNat / 16 + 1) := by
    rw [pad_length, bytesOf_length]
  rw [slice_eq_map (by omega), State.paddedBlock]
  refine List.map_congr_left fun k hk => ?_
  rw [pad_getD _ _ (by have := List.mem_range.mp hk; omega), bytesOf_length, bytesOf_getD, State.paddedByte]
  split <;> rfl

/-- Each block of the ciphertext is `Cipher` of the padded plaintext's block alone (R214). -/
theorem State.ciphertext_getD {s : State} {b k : Nat} (hb : b ≤ s.inLen.toNat / 16) (hk : k < 16) :
    s.ciphertext.getD (16 * b + k) 0 = (cipher (s.paddedBlock b) s.roundKeys s.rounds).getD k 0 := by
  have hkey : keyRounds (bytesOf s.key s.keyLen.toNat) = s.rounds := by
    rw [keyRounds, keyWords, bytesOf_length, State.rounds]
  rw [State.ciphertext, ecbEncrypt, mapBlocks_getD (fun _ => cipher_length _ _ _) _ _ hk,
    slice_pad_eq_paddedBlock hb, hkey, State.roundKeys]
  rw [pad_length, bytesOf_length]
  omega

theorem exec_encrypt_eq (s : State) : exec .encrypt s = .next (commit (encryptResult s) s) :=
  exec_of_ready nofun

/-- ENCRYPT of operands that pass its checks. -/
theorem exec_encrypt_of_accepted {s : State} (hfits : s.inLen.toNat < s.cfg.bufBytes) (hkey : s.KeyLenOk) :
    exec .encrypt s = .next (commit (outputResult s.ciphertext) s) := by
  rw [exec_encrypt_eq, encryptResult_of_accepted hfits hkey]

/-- The ciphertext fits OBUF, so all of it is the output (R216). -/
theorem commit_ciphertext_outputIs {s : State} (hc : s.cfg.Legal) (hfits : s.inLen.toNat < s.cfg.bufBytes) :
    (commit (outputResult s.ciphertext) s).OutputIs s.ciphertext := by
  have hlen := State.ciphertext_length_le hc hfits
  exact commit_outputIs hlen (by rw [outputResult_out]; omega)

/-- Settles O29: the output is the ciphertext, whose blocks are those of the padded plaintext, each transformed. -/
theorem encryptTransformsPaddedBlocks : Obligations.EncryptTransformsPaddedBlocks := by
  intro s hc hfits hkey
  have hout := commit_ciphertext_outputIs hc hfits
  refine ⟨_, exec_encrypt_of_accepted hfits hkey, commit_completed _ s, hout.outLen.trans s.ciphertext_length,
    fun b k hb hk => ?_, fun a ha => ?_, commit_sameInput rfl s, commit_sameKey rfl s⟩
  · rw [hout.obuf, State.ciphertext_getD hb hk]
  · rw [hout.obuf]
    exact getD_eq_zero_of_le (hout.outLen ▸ ha)

/-! ## Undoing the block-wise transform -/

/-- A block of a block-wise map is the function of that block. -/
theorem slice_mapBlocks {f : List Byte → List Byte} (hf : ∀ x, (f x).length = 16) {b : List Byte} {i : Nat}
    (hi : i < b.length / 16) : slice (mapBlocks f b) (16 * i) 16 = f (slice b (16 * i) 16) := by
  have hlen : (slice (mapBlocks f b) (16 * i) 16).length = 16 :=
    slice_length (by rw [mapBlocks_length hf]; omega)
  refine bytes_ext (hlen.trans (hf _).symm) fun k hk => ?_
  have hk : k < 16 := hlen ▸ hk
  rw [slice_getD, if_pos hk, mapBlocks_getD hf b hi hk]

/-- What undoes a function on blocks undoes it block-wise on a whole number of blocks. -/
theorem mapBlocks_mapBlocks_cancel {f g : List Byte → List Byte} (hf : ∀ x, (f x).length = 16)
    (hg : ∀ x, (g x).length = 16) (hgf : ∀ x, x.length = 16 → g (f x) = x) {b : List Byte}
    (hb : b.length % 16 = 0) : mapBlocks g (mapBlocks f b) = b := by
  have hlen : (mapBlocks f b).length = b.length := by rw [mapBlocks_length hf]; omega
  have hlen' : (mapBlocks g (mapBlocks f b)).length = b.length := by rw [mapBlocks_length hg, hlen]; omega
  refine bytes_ext hlen' fun a ha => ?_
  have hblock : a / 16 < b.length / 16 := by omega
  have hk : a % 16 < 16 := Nat.mod_lt _ (by decide)
  rw [← Nat.div_add_mod a 16, mapBlocks_getD hg _ (hlen.symm ▸ hblock) hk, slice_mapBlocks hf hblock,
    hgf _ (slice_length (by omega)), slice_getD, if_pos hk]

/-- The block mode inherits the inverse law of the cipher (R195, R227). -/
theorem ecbDecrypt_ecbEncrypt {p : List Byte} (hp : p.length % 16 = 0) (key : List Byte) :
    ecbDecrypt (ecbEncrypt p key) key = p := by
  rw [ecbDecrypt, ecbEncrypt]
  refine mapBlocks_mapBlocks_cancel ?_ ?_ ?_ hp
  · exact fun _ => cipher_length _ _ _
  · exact fun _ => invCipher_length _ _ _
  · exact fun _ hx => invCipher_cipher hx _ _

/-! ## Undoing the padding -/

/-- The pad bytes, counted from the end: each of them holds the pad length (R213). -/
theorem pad_getD_from_end {p : List Byte} {i : Nat} (hpos : 1 ≤ i) (hi : i ≤ padLength p.length) :
    (pad p).getD ((pad p).length - i) 0 = BitVec.ofNat 8 (padLength p.length) := by
  have hlen : (pad p).length = p.length + padLength p.length := by rw [pad, List.length_append, rep_length]
  rw [pad_getD p _ (by omega), if_neg (by omega)]
  rfl

/-- The pad length is at most 16, so a byte holds it. -/
theorem padLength_byte_toNat (n : Nat) : (BitVec.ofNat 8 (padLength n)).toNat = padLength n := by
  have hle := (padLength_pos n).2
  rw [BitVec.toNat_ofNat, Nat.mod_eq_of_lt (by omega)]

/-- Padding passes the check of R225. -/
theorem padValid_pad (p : List Byte) : padValid (pad p) = true := by
  obtain ⟨hpos, hle⟩ := padLength_pos p.length
  have hlast := pad_getD_from_end (le_refl 1) hpos
  have hcheck : (List.range (padLength p.length)).all
      (fun i => (pad p).getD ((pad p).length - (i + 1)) 0 == BitVec.ofNat 8 (padLength p.length)) = true :=
    List.all_eq_true.mpr fun i hi => beq_iff_eq.mpr (pad_getD_from_end (by omega) (List.mem_range.mp hi))
  simp only [padValid, hlast, padLength_byte_toNat, hpos, hle, hcheck, decide_true, Bool.and_true]

/-- Stripping the padding undoes it (R213, R225). -/
theorem unpad_pad (p : List Byte) : unpad (pad p) = some p := by
  have hlast := pad_getD_from_end (le_refl 1) (padLength_pos p.length).1
  have hlen : (pad p).length - padLength p.length = p.length := by
    rw [pad, List.length_append, rep_length, Nat.add_sub_cancel]
  rw [unpad, if_pos (padValid_pad p), hlast, padLength_byte_toNat, hlen, pad, List.take_left]

theorem decryptOutput_pad (p : List Byte) : decryptOutput (pad p) = outputResult p := by
  rw [decryptOutput, unpad_pad]

/-! ## The round trip -/

theorem exec_decrypt_eq (s : State) : exec .decrypt s = .next (commit (decryptResult s) s) :=
  exec_of_ready nofun

/-- DECRYPT of the ciphertext of `s` under the key of `s` finds the plaintext, whatever else `u` holds (R227). -/
theorem decryptResult_of_ciphertext {s u : State} (hc : s.cfg.Legal) (hfits : s.inLen.toNat < s.cfg.bufBytes)
    (hkey : s.KeyLenOk) (hcfg : u.cfg = s.cfg) (hin : bytesOf u.ibuf u.inLen.toNat = s.ciphertext)
    (hkeyLen : u.keyLen = s.keyLen) (hbank : bytesOf u.key u.keyLen.toNat = bytesOf s.key s.keyLen.toNat) :
    decryptResult u = outputResult (bytesOf s.ibuf s.inLen.toNat) := by
  have hlen : u.inLen.toNat = s.ciphertext.length := by rw [← hin, bytesOf_length]
  have hle : u.inLen.toNat ≤ u.cfg.bufBytes := by
    rw [hlen, hcfg]
    exact State.ciphertext_length_le hc hfits
  have hkey' : u.KeyLenOk := by rwa [State.KeyLenOk, hkeyLen]
  have hblocks : u.inLen.toNat = 16 * (s.inLen.toNat / 16 + 1) := hlen.trans s.ciphertext_length
  have hmod : (pad (bytesOf s.ibuf s.inLen.toNat)).length % 16 = 0 := by rw [pad_length, Nat.mul_mod_right]
  rcases decryptResult_cases u with ⟨-, hcap⟩ | ⟨-, -, hbad⟩ | ⟨-, -, -, hmalformed⟩ | ⟨hres, -⟩
  · omega
  · exact absurd hkey' hbad
  · omega
  · rw [hres, hin, hbank, State.ciphertext, ecbDecrypt_ecbEncrypt hmod, decryptOutput_pad]

/-- Settles O36: the input of DECRYPT is the ciphertext and its key that of ENCRYPT, so its output is the plaintext,
which fits OBUF. -/
theorem decryptReturnsThePlaintext : Obligations.DecryptReturnsThePlaintext := by
  intro s t u hc hfits hkey hexec hcfg hlen hin hkeyLen hbank
  rw [exec_encrypt_of_accepted hfits hkey] at hexec
  injection hexec with ht
  have hcipher : t.OutputIs s.ciphertext := ht ▸ commit_ciphertext_outputIs hc hfits
  have hinput : bytesOf u.ibuf u.inLen.toNat = s.ciphertext := by
    refine bytes_ext (by rw [bytesOf_length, hlen, hcipher.outLen]) fun a ha => ?_
    rw [bytesOf_length] at ha
    rw [bytesOf_getD, if_pos ha, hin a (hlen ▸ ha), hcipher.obuf]
  have hkeyBytes : bytesOf u.key u.keyLen.toNat = bytesOf s.key s.keyLen.toNat := by
    rw [hkeyLen]
    exact bytesOf_congr hbank
  have hdecrypt : exec .decrypt u = .next (commit (outputResult (bytesOf s.ibuf s.inLen.toNat)) u) := by
    rw [exec_decrypt_eq, decryptResult_of_ciphertext hc hfits hkey hcfg hinput hkeyLen hkeyBytes]
  have hout : (commit (outputResult (bytesOf s.ibuf s.inLen.toNat)) u).OutputIs (bytesOf s.ibuf s.inLen.toNat) :=
    commit_outputIs (by rw [outputResult_out, bytesOf_length, hcfg]; exact hfits.le)
      (by rw [outputResult_out, bytesOf_length]; exact s.inLen.isLt)
  refine ⟨_, hdecrypt, rfl, BitVec.eq_of_toNat_eq ?_, fun a ha => ?_, fun a ha => ?_⟩
  · rw [hout.outLen, bytesOf_length]
  · rw [hout.obuf, bytesOf_getD, if_pos ha]
  · rw [hout.obuf, bytesOf_getD, if_neg (Nat.not_lt.mpr ha)]

end Sys2Proof.Machine
end

-- Reserved command words: the start step, and the completion with BadCommand (45_clear_and_reserved.md).
section
/-! SUPPORT. What a reserved word does at the start step and at the engine's turn, and the proof of the statement of
45_clear_and_reserved.md. -/

namespace Sys2Proof.Machine

/-! ## A word that decodes to no command -/

theorem ne_genkeyWord_of_reserved {w : Word} (h : ∀ i, decode w ≠ .ok i) : w ≠ genkeyWord := by
  rintro rfl
  exact h .genkey (decode_encode .genkey)

/-- Only a GENKEY in flight asks for entropy (R171). -/
theorem rndReq_of_not_genkey {s : State} (h : s.cmdLatch ≠ genkeyWord) : rndReq s = false := by
  simp [rndReq, h]

theorem latchedResult_of_reserved {s : State} (h : ∀ i, decode s.cmdLatch ≠ .ok i) :
    latchedResult s = failResult .badCommand := by
  unfold latchedResult
  split
  · next i hi => exact absurd hi (h i)
  · rfl

/-! ## The two steps -/

/-- The host's write to CMD of an idle machine as a whole next state (R37). -/
theorem step_cmd_of_idle {s : State} {w : Word} {rest : List Input} (hidle : s.busy = false)
    (hinputs : s.inputs = .bus (.write 0x00008 w) :: rest) :
    step s = .next (startStep w { s with inputs := rest, resp := some (.write false) }) := by
  have hwrite : busWrite s.popped 0x00008 w = (startStep w s.popped, false) :=
    busWrite_cmd_of_idle (s := s.popped) hidle w
  rw [step_bus hinputs, busStep, hwrite, State.popped, hinputs]
  rfl

/-- The engine's turn with a reserved word in flight is `Exec_BAD` (R242). -/
theorem step_reserved {s : State} (hturn : s.EnginesTurn) (hbusy : s.busy = true)
    (hres : ∀ i, decode s.cmdLatch ≠ .ok i) : step s = .next (commit (failResult .badCommand) s.popped) := by
  rw [step_enginesTurn hturn]
  rcases engineTurn_cases s.popped with ⟨hidle, -⟩ | ⟨-, hgen, -⟩ | ⟨-, -, hcommit⟩
  · exact absurd hbusy (Bool.eq_false_iff.mp hidle)
  · exact absurd hgen (ne_genkeyWord_of_reserved hres)
  · rw [hcommit, latchedResult_of_reserved (s := s.popped) hres]

/-! ## Start and completion together -/

/-- The start step writes nothing that a commit does not write again. -/
theorem commit_startStep (r : Result) (w : Word) (s : State) : commit r (startStep w s) = commit r s := rfl

/-- So a failed operation compares with the state before its start. -/
theorem commit_failResult_startStep (e : Err) (w : Word) (s : State) :
    (commit (failResult e) (startStep w s)).CommandFailed s e := by
  rw [commit_startStep]
  exact commit_failResult e s

/-- Settles O38: the start step, then `Exec_BAD` at the engine's turn. -/
theorem reservedWordEndsInBadCommand : Obligations.ReservedWordEndsInBadCommand := by
  intro s w rest hidle hres hinputs
  have hstart := step_cmd_of_idle hidle hinputs
  exact ⟨_, _, hstart, rfl, rfl, rfl, rfl, rndReq_of_not_genkey (ne_genkeyWord_of_reserved hres),
    step_reserved (.inr ⟨rest, rfl⟩) rfl hres,
    commit_failResult_startStep .badCommand w { s with inputs := rest, resp := some (.write false) }⟩

end Sys2Proof.Machine
end

-- Reset: the reset step puts every element to its reset value, whatever was in flight (70_reset_and_hazards.md).
section
/-! SUPPORT. Reset as a whole step and what the two outputs and the registers show after it, and the proof of the statement
about it. -/

namespace Sys2Proof.Machine

/-- A waiting reset is the step, whatever the state (R280). -/
theorem step_reset {s : State} {during : Option BusOp} {rest : List Input} (h : s.inputs = .reset during :: rest) :
    step s = .next (resetInput during s.popped) := by
  simp only [step, h, takeInput, State.popped, List.tail_cons]

/-- An idle machine asks for no entropy (R171). -/
theorem rndReq_of_idle {s : State} (hidle : s.busy = false) : rndReq s = false := by
  simp [rndReq, hidle]

/-- Of an idle machine with no flag and no error, the outputs are low and STATUS and ERR read 0 (R24, R29, R41, R171). -/
theorem outputs_low_of_clear {s : State} (hidle : s.busy = false) (hdone : s.done = false) (herr : s.errCode = 0)
    (hbusyw : s.busyw = false) :
    irq s = false ∧ rndReq s = false ∧ busRead s 0x0000C = (0, false) ∧ busRead s 0x00010 = (0, false) := by
  have hstatus : busRead s 0x0000C = (0, false) := by
    rw [busRead_status, statusWord_eq_zero hidle hdone herr hbusyw]
  have herrRead : busRead s 0x00010 = (0, false) := by
    rw [busRead_err, herr]
    rfl
  exact ⟨irq_of_not_done hdone, rndReq_of_idle hidle, hstatus, herrRead⟩

/-- The three arrays read 0 everywhere after reset (R34, R35, R43). -/
theorem arrays_zero_of_resetInput (during : Option BusOp) (s : State) :
    (∀ a, (resetInput during s).key.read a = 0) ∧ (∀ a, (resetInput during s).ibuf.read a = 0)
    ∧ ∀ a, (resetInput during s).obuf.read a = 0 := by
  rw [resetInput_key, resetInput_ibuf, resetInput_obuf]
  exact ⟨Memory.read_nil, Memory.read_nil, Memory.read_nil⟩

/-- Settles O12: the step is the reset on the state less its first event, and each element follows by its reset rule, the
same with and without a transaction in the step. -/
theorem resetEndsEverything : Obligations.ResetEndsEverything := by
  intro s during rest hinputs
  have hrest : (resetInput during s.popped).inputs = rest := by
    rw [resetInput_inputs, State.popped, hinputs, List.tail_cons]
  have hbusy := resetInput_busy during s.popped
  have hdone := resetInput_done during s.popped
  have hbusyw := resetInput_busyw during s.popped
  have herr := resetInput_errCode during s.popped
  obtain ⟨hkey, hibuf, hobuf⟩ := arrays_zero_of_resetInput during s.popped
  exact ⟨_, step_reset hinputs, hbusy, hdone, hbusyw, herr, resetInput_ieDone _ _, resetInput_ieErr _ _,
    resetInput_inLen _ _, resetInput_outLen _ _, resetInput_keyLen _ _, hkey, hibuf, hobuf, resetInput_cmdLatch _ _,
    resetInput_scratch _ _, resetInput_cfg _ _, hrest, outputs_low_of_clear hbusy hdone herr hbusyw⟩

end Sys2Proof.Machine
end

-- Command words: decoding and encoding are inverse, and the reserved words by their fields (30_encoding.md).
section
/-! SUPPORT. A word decodes exactly when its fields are those of a legal command word, the fields as numbers, and the proofs
of the statements about all words. -/

namespace Sys2Proof

theorem decode_eq_ok_iff (w : Word) (i : Instr) : decode w = .ok i ↔ encode i = w :=
  ⟨fun h => (eq_encode_of_decode h).symm, fun h => h ▸ decode_encode i⟩

/-- Settles O5: decoding answers only encodings, and undoes each of them. -/
theorem decodeAnswersExactlyTheEncodings : Obligations.DecodeAnswersExactlyTheEncodings := decode_eq_ok_iff

/-- Settles O8: five of the words are encodings; the four reserved words are run through the rows of the map. -/
theorem sampleWordsDecode : Obligations.SampleWordsDecode :=
  ⟨rfl, rfl, rfl, rfl, rfl, rfl, rfl, rfl, rfl⟩

/-! ## Legal fields -/

theorem fieldsOf_encode (i : Instr) : fieldsOf (encode i) = i.fields := by
  cases i with
  | clear ci ck => exact (Laws.EncodesItsFields.clear ci ck).1
  | _ => rfl

/-- A word is a command's encoding exactly when it has the command's fields (R100). -/
theorem encode_eq_iff (i : Instr) (w : Word) : encode i = w ↔ i.fields = fieldsOf w :=
  ⟨fun h => by rw [← h, fieldsOf_encode], fun h => by rw [encode, h, wordOf_fieldsOf]⟩

/-- The four conditions on fields leave exactly the fields of the commands (R103, R104). -/
theorem wellFormed_iff (f : CommandFields) : f.wellFormed = true ↔ ∃ i : Instr, i.fields = f := by
  constructor
  · obtain ⟨op, z0, ci, ck, z1⟩ := f
    simp only [CommandFields.wellFormed, CommandFields.opLegal, CommandFields.z0Legal, CommandFields.z1Legal,
      CommandFields.selectsLegal, Bool.and_eq_true, beq_iff_eq, decide_eq_true_eq]
    rintro ⟨⟨⟨⟨hlo, hhi⟩, rfl⟩, rfl⟩, hsel⟩
    have hop : op = 1 ∨ op = 2 ∨ op = 3 ∨ op = 4 ∨ op = 5 := by bv_omega
    rcases hop with rfl | rfl | rfl | rfl | rfl
    case inr.inr.inr.inr => exact ⟨.clear ci ck, rfl⟩
    all_goals
      have hnone : ci = false ∧ ck = false := by simpa using hsel
      obtain ⟨rfl, rfl⟩ := hnone
    · exact ⟨.derive, rfl⟩
    · exact ⟨.genkey, rfl⟩
    · exact ⟨.encrypt, rfl⟩
    · exact ⟨.decrypt, rfl⟩
  · rintro ⟨i, rfl⟩
    exact wellFormed_of_instr i

/-- The words that decode are those with legal fields (R103). -/
theorem decode_ok_iff_wellFormed (w : Word) : (∃ i, decode w = .ok i) ↔ (fieldsOf w).wellFormed = true := by
  rw [wellFormed_iff]
  exact exists_congr fun i => (decode_eq_ok_iff w i).trans (encode_eq_iff i w)

/-- Decoding is total: a word is refused exactly when it is no command (R109). -/
theorem decode_error_iff (w : Word) : (∃ e, decode w = .error e) ↔ ¬∃ i, decode w = .ok i := by
  cases decode w <;> simp

/-! ## The fields as numbers -/

theorem fieldsOf_op_toNat (w : Word) : (fieldsOf w).op.toNat = w.toNat % 16 := by
  simp [fieldsOf]

theorem fieldsOf_z0_toNat (w : Word) : (fieldsOf w).z0.toNat = w.toNat / 16 % 16 := by
  simp [fieldsOf, Nat.shiftRight_eq_div_pow]

theorem fieldsOf_z1_toNat (w : Word) : (fieldsOf w).z1.toNat = w.toNat / 1024 := by
  have := w.isLt
  simp only [fieldsOf, BitVec.extractLsb'_toNat, Nat.shiftRight_eq_div_pow]
  omega

/-- Bit `k` of a word as a digit of the number (R11). -/
theorem getLsbD_iff_toNat (w : Word) (k : Nat) : w.getLsbD k = true ↔ w.toNat / 2 ^ k % 2 = 1 := by
  rw [BitVec.getLsbD, Nat.testBit_eq_decide_div_mod_eq, decide_eq_true_eq]

/-- The two select bits are the number in bits 9:8. -/
theorem fieldsOf_selects (w : Word) :
    ((fieldsOf w).ci = false ∧ (fieldsOf w).ck = false) ↔ w.toNat / 256 % 4 = 0 := by
  have hci := getLsbD_iff_toNat w 8
  have hck := getLsbD_iff_toNat w 9
  simp only [fieldsOf, Bool.eq_false_iff, ne_eq, hci, hck]
  omega

/-- The legal fields as conditions on the word's number. -/
theorem fieldsOf_wellFormed_iff (w : Word) : (fieldsOf w).wellFormed = true ↔
    (1 ≤ w.toNat % 16 ∧ w.toNat % 16 ≤ 5) ∧ w.toNat / 16 % 16 = 0 ∧ w.toNat / 1024 = 0
      ∧ (w.toNat % 16 = 5 ∨ w.toNat / 256 % 4 = 0) := by
  rw [← fieldsOf_selects, ← fieldsOf_op_toNat, ← fieldsOf_z0_toNat, ← fieldsOf_z1_toNat]
  simp [CommandFields.wellFormed, CommandFields.opLegal, CommandFields.z0Legal, CommandFields.z1Legal,
    CommandFields.selectsLegal, BitVec.toNat_eq, and_assoc]

/-- Settles O7: the refused words are those whose fields break one of the four conditions. -/
theorem reservedWordsByField : Obligations.ReservedWordsByField := by
  intro w
  rw [decode_error_iff, decode_ok_iff_wellFormed, fieldsOf_wellFormed_iff]
  omega

end Sys2Proof
end

-- The invariant: it holds after reset, and every step keeps it (10_state.md, 60_exceptions.md).
section
/-! SUPPORT. Each effect of a transaction, the entropy port, the commit and reset keep the invariant, and the proofs of the
statements about it. -/

namespace Sys2Proof.Machine

/-! ## The reset state -/

theorem inv_resetOf {c : Config} (hc : c.Legal) : (State.resetOf c).Inv :=
  ⟨hc, ⟨Memory.wf_nil, Memory.within_nil _⟩, ⟨Memory.wf_nil, Memory.within_nil _⟩,
    ⟨Memory.wf_nil, Memory.within_nil _⟩, Nat.zero_le _, Nat.zero_le _, nofun,
    fun _ => ⟨rfl, rfl, Memory.within_nil _⟩, fun _ _ => rfl, nofun, Nat.zero_le _, fun h => absurd rfl h⟩

/-- Settles O2: every array is empty, every flag down, and 4096 is a legal capacity. -/
theorem resetSatisfiesInvariant : Obligations.ResetSatisfiesInvariant :=
  ⟨fun _ => inv_resetOf, rfl, inv_resetOf (by decide)⟩

/-- The waiting events, the response and the counter are no part of the invariant. -/
theorem resetInput_keeps_inv {s : State} (h : s.Inv) (during : Option BusOp) : (resetInput during s).Inv := by
  obtain ⟨hc, -⟩ := h
  have hreset : (State.resetOf s.cfg).Inv := inv_resetOf hc
  cases during <;> exact hreset

/-! ## The host's writes -/

/-- Clearing `DONE` can only help the one clause that reads it (R26). -/
theorem writeStatus_keeps_inv {s : State} (h : s.Inv) (v : Word) : (writeStatus v s).Inv := by
  obtain ⟨hc, hkey, hibuf, hobuf, hout, herr, hexcl, hrest⟩ := h
  refine ⟨hc, hkey, hibuf, hobuf, hout, herr, fun ⟨hbusy, hdone⟩ => hexcl ⟨hbusy, ?_⟩, hrest⟩
  rw [writeStatus_done, Bool.and_eq_true] at hdone
  exact hdone.1

/-- A start step leaves a running machine that shows no error and no output; what was idle has drawn nothing (R37). -/
theorem startStep_keeps_inv {s : State} (h : s.Inv) (hidle : s.busy = false) (w : Word) : (startStep w s).Inv := by
  obtain ⟨hc, hkey, hibuf, hobuf, -, -, -, hrest, -, -, -, -⟩ := h
  obtain ⟨-, hscratch, -⟩ := hrest hidle
  have hdrawn : (startStep w s).scratch.drawn = [] := congrArg Scratch.drawn hscratch
  exact ⟨hc, hkey, hibuf, hobuf, Nat.zero_le _, Nat.zero_le _, nofun, nofun, nofun, fun _ => ⟨rfl, rfl⟩,
    by rw [hdrawn]; exact Nat.zero_le _, fun hne => absurd hdrawn hne⟩

/-- A write of a window's word keeps an array canonical and inside bounds that are a multiple of 4. -/
theorem writeWord_keeps_bounds {m : Memory} {n off : Nat} (h : m.Wf ∧ m.Within n) (v : Word) (h4 : off % 4 = 0)
    (hn : n % 4 = 0) (hoff : off < n) :
    (m.writeBytes off (le32Bytes v)).Wf ∧ (m.writeBytes off (le32Bytes v)).Within n :=
  ⟨Memory.wf_writeBytes h.1 _ _, Memory.within_writeBytes h.2 (by rw [le32Bytes_length]; omega)⟩

theorem busWrite_keeps_inv {s : State} (h : s.Inv) (a : BusAddr) (v : Word) : (busWrite s a v).1.Inv := by
  rcases busWrite_cases s a v with ⟨hw, -⟩ | ⟨hw, -⟩ | ⟨hw, -⟩ | ⟨hw, -⟩ | ⟨-, hw, -⟩ | ⟨hidle, hw, -⟩ | ⟨-, hw, -⟩
    | ⟨-, hw, -⟩ | ⟨off, -, hw, -, h4, hoff⟩ | ⟨off, -, hw, -, h4, hoff⟩ <;> rw [hw]
  case inr.inr.inl => exact writeStatus_keeps_inv h v
  case inr.inr.inr.inr.inr.inl => exact startStep_keeps_inv h hidle v
  case inr.inr.inr.inr.inr.inr.inr.inr.inl =>
    obtain ⟨hc, hkey, hrest⟩ := h
    exact ⟨hc, writeWord_keeps_bounds hkey v h4 (by decide) hoff, hrest⟩
  case inr.inr.inr.inr.inr.inr.inr.inr.inr =>
    obtain ⟨hc, hkey, hibuf, hrest⟩ := h
    exact ⟨hc, hkey, writeWord_keeps_bounds hibuf v h4 (by have := hc.1; omega) hoff, hrest⟩
  -- the rest write only what the invariant does not read
  all_goals exact h

theorem busStep_keeps_inv {s : State} (h : s.Inv) (op : BusOp) : (busStep op s).Inv := by
  cases op with
  | read a => exact h
  | write a v => exact busWrite_keeps_inv h a v

/-! ## The entropy port -/

/-- `rnd_req` by its three conditions (R171). -/
theorem rndReq_iff (s : State) :
    rndReq s = true ↔ s.busy = true ∧ s.cmdLatch = genkeyWord ∧ s.scratch.drawn.length < 32 := by
  simp only [rndReq, Bool.and_eq_true, beq_iff_eq, decide_eq_true_eq, and_assoc]
  rfl

/-- A byte is taken only by a GENKEY in flight with room for it (R171). -/
theorem takeEntropy_keeps_inv {s : State} (h : s.Inv) (b : Byte) : (takeEntropy b s).Inv := by
  by_cases hreq : rndReq s = true
  · obtain ⟨hbusy, hgen, hroom⟩ := (rndReq_iff s).mp hreq
    obtain ⟨hc, hkey, hibuf, hobuf, hout, herr, hexcl, -, hfail, hrun, -, -⟩ := h
    rw [takeEntropy, if_pos hreq]
    refine ⟨hc, hkey, hibuf, hobuf, hout, herr, hexcl, fun hidle => ?_, hfail, hrun, ?_, fun _ => ⟨hbusy, hgen⟩⟩
    · exact absurd hbusy (Bool.eq_false_iff.mp hidle)
    · simp only [List.length_append, List.length_singleton, randomBytes]
      exact hroom
  · rwa [takeEntropy, if_neg hreq]

/-! ## The commit -/

/-- A key commit keeps the bank canonical and inside its 32 bytes (R34, R38). -/
theorem committedKey_bounds {s : State} (h : s.key.Wf ∧ s.key.Within 32) (r : Result) :
    (committedKey r s).Wf ∧ (committedKey r s).Within 32 := by
  unfold committedKey
  split
  · exact ⟨Memory.wf_ofBytes _, Memory.within_ofBytes (List.length_take_le _ _)⟩
  · exact h

/-- An erasure of IBUF keeps it canonical and inside its bounds. -/
theorem commit_ibuf_bounds {s : State} (h : s.ibuf.Wf ∧ s.ibuf.Within s.cfg.bufBytes) (r : Result) :
    (commit r s).ibuf.Wf ∧ (commit r s).ibuf.Within s.cfg.bufBytes := by
  rw [commit_ibuf]
  split
  · exact ⟨Memory.wf_zeros, Memory.within_zeros _⟩
  · exact h

/-- A commit keeps the invariant where its output fits OBUF and an error has none (R38, R256). -/
theorem commit_keeps_inv {s : State} (h : s.Inv) {r : Result} (hlen : r.out.length ≤ s.cfg.bufBytes)
    (herr : r.err ≠ .none → r.out = []) : (commit r s).Inv := by
  obtain ⟨hc, hkey, hibuf, -⟩ := h
  have hout : (commit r s).outLen.toNat = r.out.length := by
    obtain ⟨-, -, hcap⟩ := hc
    rw [commit_outLen, BitVec.toNat_ofNat, Nat.mod_eq_of_lt (by omega)]
  have hobuf : ∀ n, r.out.length ≤ n → (commit r s).obuf.Within n := fun n hn =>
    Memory.within_ofBytes ((List.length_take_le' _ _).trans hn)
  refine ⟨hc, committedKey_bounds hkey r, commit_ibuf_bounds hibuf r, ⟨Memory.wf_ofBytes _, hobuf _ hlen⟩,
    hout.trans_le hlen, errNumber_le _, nofun, fun _ => ⟨rfl, rfl, hobuf _ hout.ge⟩, fun _ hcode => ?_, nofun,
    Nat.zero_le _, fun hne => absurd rfl hne⟩
  have hfail : r.err ≠ .none := fun he => hcode ((errNumber_eq_zero r.err).mpr he)
  rw [commit_outLen, herr hfail]
  rfl

/-- The latched word's result is a command's, or BadCommand without output. -/
theorem latchedResult_cases (s : State) :
    (∃ i, decode s.cmdLatch = .ok i ∧ latchedResult s = commandResult i s)
    ∨ (∃ e, decode s.cmdLatch = .error e) ∧ latchedResult s = failResult .badCommand := by
  unfold latchedResult
  cases hd : decode s.cmdLatch with
  | ok i => exact .inl ⟨i, rfl, rfl⟩
  | error e => exact .inr ⟨⟨e, rfl⟩, rfl⟩

theorem latchedResult_out_length {s : State} (hc : s.cfg.Legal) :
    (latchedResult s).out.length ≤ s.cfg.bufBytes := by
  rcases latchedResult_cases s with ⟨i, -, hr⟩ | ⟨-, hr⟩ <;> rw [hr]
  · exact commandResult_out_length hc
  · exact Nat.zero_le _

/-- A failed operation has no output (R256). -/
theorem latchedResult_out_of_err {s : State} (he : (latchedResult s).err ≠ .none) : (latchedResult s).out = [] := by
  rcases latchedResult_cases s with ⟨i, -, hr⟩ | ⟨-, hr⟩ <;> rw [hr] at he ⊢
  · exact commandResult_out_of_err he
  · rfl

/-! ## Every step -/

theorem State.Inv.popped {s : State} (h : s.Inv) : s.popped.Inv := h

/-- Settles O3, by cases on what the step did. -/
theorem stepKeepsInvariant : Obligations.StepKeepsInvariant := by
  intro s t h hstep
  rcases step_cases hstep with ⟨op, _, -, rfl⟩ | ⟨b, _, -, rfl⟩ | ⟨during, _, -, rfl⟩ | ⟨-, -, rfl⟩
    | ⟨-, -, -, -, rfl⟩ | ⟨-, -, -, rfl⟩
  · exact busStep_keeps_inv h.popped op
  · exact takeEntropy_keeps_inv h.popped b
  · exact resetInput_keeps_inv h.popped during
  · exact h.popped
  · exact h.popped
  · exact commit_keeps_inv h.popped (latchedResult_out_length h.popped.1) latchedResult_out_of_err

end Sys2Proof.Machine
end

-- The engine's turn and the entropy port as steps, and that no run stops (10_state.md, 42_random_key.md, 70_reset_and_hazards.md).
section
/-! SUPPORT. The engine's turn as a step, what it runs and when it completes, the taking of an entropy byte, and the proofs
of the statements about one step of a running machine and about whole runs. -/

namespace Sys2Proof.Machine

/-! ## No step stops -/

theorem engineTurn_next (s : State) : ∃ t, engineTurn s = .next t := by
  rcases engineTurn_cases s with ⟨-, he⟩ | ⟨-, -, -, he⟩ | ⟨-, -, he⟩ <;> exact ⟨_, he⟩

/-- Every event of every state has a next state (R19, R109, R262). -/
theorem step_next (s : State) : ∃ t, step s = .next t := by
  unfold step
  split
  · exact engineTurn_next s
  · next i rest _ =>
    cases i with
    | engine => exact engineTurn_next _
    | _ => exact ⟨_, rfl⟩

/-- A run goes on from the next state. -/
theorem run_succ {s u : State} (h : step s = .next u) (k : Nat) :
    Host.Core.run Sys2Proof.core (k + 1) s = Host.Core.run Sys2Proof.core k u := by
  have hcore : Sys2Proof.core.step s = .next u := h
  simp only [Host.Core.run, hcore]

/-- Settles O4, by induction on the number of steps. -/
theorem everyRunGoesOn : Obligations.EveryRunGoesOn := by
  intro k
  induction k with
  | zero => exact fun s => ⟨s, rfl⟩
  | succ k ih =>
    intro s
    obtain ⟨u, hu⟩ := step_next s
    obtain ⟨t, ht⟩ := ih u
    exact ⟨t, (run_succ hu k).trans ht⟩

/-! ## The engine's turn -/

theorem State.popped_of_cons {s : State} {i : Input} {rest : List Input} (h : s.inputs = i :: rest) :
    s.popped = { s with inputs := rest } := by
  rw [State.popped, h, List.tail_cons]

theorem State.popped_of_nil {s : State} (h : s.inputs = []) : s.popped = s := by
  rw [State.popped, h, List.tail_nil, ← h]

/-- With no event waiting the step is the engine's turn on the state itself. -/
theorem step_of_nil {s : State} (h : s.inputs = []) : step s = engineTurn s := by
  rw [step_enginesTurn (.inl h), State.popped_of_nil h]

theorem step_engine {s : State} {rest : List Input} (h : s.inputs = .engine :: rest) :
    step s = engineTurn { s with inputs := rest } := by
  rw [step_enginesTurn (.inr ⟨rest, h⟩), State.popped_of_cons h]

/-- The engine's turn of a running machine runs the command its latched word decodes to (R39). -/
theorem engineTurn_of_decode {s : State} {i : Instr} (hbusy : s.busy = true) (hd : decode s.cmdLatch = .ok i) :
    engineTurn s = exec i s := by
  rw [engineTurn, if_pos hbusy]
  simp only [runLatched, hd]

/-- Settles O9: the engine's turn in its two forms, each on the state it finds. -/
theorem stepRunsTheLatchedCommand : Obligations.StepRunsTheLatchedCommand := by
  intro s i hbusy hd
  refine ⟨wellFormed_of_instr i, fun hnil => ?_, fun rest hcons => ?_⟩
  · rw [step_of_nil hnil, engineTurn_of_decode hbusy hd]
  · rw [step_engine hcons]
    exact engineTurn_of_decode (s := { s with inputs := rest }) hbusy hd

/-- The engine's turn completes every operation but a GENKEY that waits (R38, R177, R295). -/
theorem engineTurn_completes {s : State} (hbusy : s.busy = true)
    (hready : s.cmdLatch = genkeyWord → 32 ≤ s.scratch.drawn.length) :
    engineTurn s = .next (commit (latchedResult s) s) := by
  rw [engineTurn, if_pos hbusy, runLatched_eq s hready]

/-- Settles O11: the latched word is not GENKEY's, so the step is a commit. -/
theorem everyOtherCommandCompletes : Obligations.EveryOtherCommandCompletes := by
  intro s hbusy hword hnil
  have hstep : step s = .next (commit (latchedResult s) s) := by
    rw [step_of_nil hnil, engineTurn_completes hbusy fun hgen => absurd hgen hword]
  exact ⟨_, hstep, commit_busy _ _, commit_done _ _, commit_cmdLatch _ _, hnil⟩

/-! ## A GENKEY that waits, and its entropy -/

/-- The engine's turn on a GENKEY short of bytes changes nothing (R177). -/
theorem engineTurn_wait {s : State} (hbusy : s.busy = true) (hgen : s.cmdLatch = genkeyWord)
    (hshort : s.scratch.drawn.length < 32) : engineTurn s = .next s := by
  rw [engineTurn, if_pos hbusy, runLatched_wait hgen hshort]

/-- Settles O22: both forms of the engine's turn meet a GENKEY short of bytes. -/
theorem genkeyWaitsForEntropy : Obligations.GenkeyWaitsForEntropy := by
  intro s rest hbusy hgen hshort
  refine ⟨fun hnil => ?_, fun hcons => ?_⟩
  · rw [step_of_nil hnil, engineTurn_wait hbusy hgen hshort]
  · rw [step_engine hcons]
    exact engineTurn_wait (s := { s with inputs := rest }) hbusy hgen hshort

theorem step_entropy {s : State} {b : Byte} {rest : List Input} (h : s.inputs = .entropy b :: rest) :
    step s = .next (takeEntropy b { s with inputs := rest }) := by
  simp only [step, h, takeInput]

/-- Settles O23: the premise of each clause is `rnd_req` or its negation. -/
theorem entropyTakenOnlyOnRequest : Obligations.EntropyTakenOnlyOnRequest := by
  intro s b rest hinputs
  have hreq := rndReq_iff { s with inputs := rest }
  refine ⟨_, step_entropy hinputs, fun htake => ?_, fun hignore => ?_⟩
  · rw [takeEntropy, if_pos (hreq.mpr htake)]
  · rw [takeEntropy, if_neg fun h => hignore (hreq.mp h)]

end Sys2Proof.Machine
end

-- Which steps change BUSYW, ERR_CODE, the operands in flight and the key (10_state.md, 20_memory.md section 6).
section
/-! SUPPORT. For each of these parts of the state the transactions that change it and what a completion does to it, and the
proofs of the statements about every step. -/

namespace Sys2Proof.Machine

/-! ## BUSYW -/

/-- The only write that sets `BUSYW` is one that is dropped (R28, R81). -/
theorem busWrite_sets_busyw {s : State} {a : BusAddr} {v : Word} (hclear : s.busyw = false)
    (hset : (busWrite s a v).1.busyw = true) : s.busy = true ∧ OperandAddress s.cfg.bufBytes a.toNat := by
  rcases busWrite_cases s a v with ⟨hw, -⟩ | ⟨hw, -⟩ | ⟨hw, -⟩ | ⟨hw, -⟩ | ⟨hbusy, -, ha⟩ | ⟨-, hw, -⟩ | ⟨-, hw, -⟩
    | ⟨-, hw, -⟩ | ⟨_, -, hw, -⟩ | ⟨_, -, hw, -⟩
  case inr.inr.inr.inr.inl => exact ⟨hbusy, ha⟩
  case inr.inr.inl => simp [hw, hclear] at hset
  all_goals
    rw [hw] at hset
    exact absurd hset (Bool.eq_false_iff.mp hclear)

/-- The only write that clears `BUSYW` is one to STATUS with bit 3 set (R28). -/
theorem busWrite_clears_busyw {s : State} {a : BusAddr} {v : Word} (hset : s.busyw = true)
    (hclear : (busWrite s a v).1.busyw = false) : a = 0x0000C ∧ v.getLsbD 3 = true := by
  rcases busWrite_cases s a v with ⟨hw, -⟩ | ⟨hw, -⟩ | ⟨hw, ha⟩ | ⟨hw, -⟩ | ⟨-, hw, -⟩ | ⟨-, hw, -⟩ | ⟨-, hw, -⟩
    | ⟨-, hw, -⟩ | ⟨_, -, hw, -⟩ | ⟨_, -, hw, -⟩
  case inr.inr.inl => exact ⟨BitVec.eq_of_toNat_eq ha, by simpa [hw, hset] using hclear⟩
  case inr.inr.inr.inr.inl => simp [hw] at hclear
  all_goals
    rw [hw] at hclear
    exact absurd hset (Bool.eq_false_iff.mp hclear)

/-- A flag that stays as it was meets every clause about its rise and its fall. -/
theorem flag_neither_rises_nor_falls {before after : Bool} (h : after = before) {rise fall : Prop} :
    (before = false → after = true → rise) ∧ (before = true → after = false → fall) := by
  subst h
  cases after <;> exact ⟨nofun, nofun⟩

/-- Settles O57: entropy, the engine's turn and a completion keep `BUSYW`, a read keeps all flags, and reset clears it. -/
theorem onlyDroppedWritesSetBusyw : Obligations.OnlyDroppedWritesSetBusyw := by
  intro s t hstep
  rcases step_cases hstep with ⟨op, rest, hinputs, rfl⟩ | ⟨b, rest, -, rfl⟩ | ⟨during, rest, hinputs, rfl⟩
    | ⟨-, -, rfl⟩ | ⟨-, -, -, -, rfl⟩ | ⟨-, -, -, rfl⟩
  · cases op with
    | read a => exact flag_neither_rises_nor_falls rfl
    | write a v =>
      refine ⟨fun h0 h1 => ?_, fun h0 h1 => ?_⟩
      · obtain ⟨hbusy, ha⟩ := busWrite_sets_busyw (s := s.popped) h0 h1
        exact ⟨hbusy, a, v, rest, hinputs, ha⟩
      · obtain ⟨rfl, hbit⟩ := busWrite_clears_busyw (s := s.popped) h0 h1
        exact .inl ⟨v, rest, hinputs, hbit⟩
  · exact flag_neither_rises_nor_falls (takeEntropy_busyw b s.popped)
  · refine ⟨fun _ h1 => ?_, fun _ _ => .inr ⟨during, rest, hinputs⟩⟩
    rw [resetInput_busyw] at h1
    exact absurd h1 Bool.false_ne_true
  · exact flag_neither_rises_nor_falls rfl
  · exact flag_neither_rises_nor_falls rfl
  · exact flag_neither_rises_nor_falls rfl

/-! ## ERR_CODE -/

/-- The only write that changes `ERR_CODE` is the start step, which clears it (R29, R37). -/
theorem busWrite_changes_errCode {s : State} {a : BusAddr} {v : Word}
    (h : (busWrite s a v).1.errCode ≠ s.errCode) : s.busy = false ∧ (busWrite s a v).1 = startStep v s := by
  rcases busWrite_cases s a v with ⟨hw, -⟩ | ⟨hw, -⟩ | ⟨hw, -⟩ | ⟨hw, -⟩ | ⟨-, hw, -⟩ | ⟨hidle, hw, -⟩ | ⟨-, hw, -⟩
    | ⟨-, hw, -⟩ | ⟨_, -, hw, -⟩ | ⟨_, -, hw, -⟩
  case inr.inr.inr.inr.inr.inl => exact ⟨hidle, by rw [hw]⟩
  all_goals
    rw [hw] at h
    exact absurd rfl h

/-- Settles O58, by cases on what the step did. -/
theorem onlyCommandsChangeErrorCode : Obligations.OnlyCommandsChangeErrorCode := by
  intro s t hstep hchange
  rcases step_cases hstep with ⟨op, rest, -, rfl⟩ | ⟨b, rest, -, rfl⟩ | ⟨during, rest, hinputs, -⟩
    | ⟨-, -, rfl⟩ | ⟨-, -, -, -, rfl⟩ | ⟨-, hbusy, -, rfl⟩
  · cases op with
    | read a => exact absurd rfl hchange
    | write a v =>
      obtain ⟨hidle, hstart⟩ := busWrite_changes_errCode (s := s.popped) hchange
      exact .inl ⟨hidle, congrArg State.busy hstart, congrArg State.errCode hstart⟩
  · exact absurd (takeEntropy_errCode b s.popped) hchange
  · exact .inr (.inr ⟨during, rest, hinputs⟩)
  · exact absurd rfl hchange
  · exact absurd rfl hchange
  · exact .inr (.inl ⟨hbusy, commit_busy _ _, commit_done _ _⟩)

/-! ## The operands of an operation in flight -/

/-- What stays fixed between the start step and the completion: the latched word, the operands, the output and the error
code (R39, R82). -/
def State.SameOperation (t s : State) : Prop :=
  t.cmdLatch = s.cmdLatch ∧ t.inLen = s.inLen ∧ t.ibuf = s.ibuf ∧ t.keyLen = s.keyLen ∧ t.key = s.key
  ∧ t.outLen = s.outLen ∧ t.obuf = s.obuf ∧ t.errCode = s.errCode

theorem State.SameOperation.same {t s : State} (h : t.SameOperation s) :
    t.cmdLatch = s.cmdLatch ∧ t.SameInput s ∧ t.SameKey s ∧ t.SameOutput s ∧ t.errCode = s.errCode := by
  obtain ⟨hlatch, hinLen, hibuf, hkeyLen, hkey, houtLen, hobuf, herr⟩ := h
  exact ⟨hlatch, ⟨hinLen, fun _ => by rw [hibuf]⟩, ⟨hkeyLen, fun _ => by rw [hkey]⟩,
    ⟨houtLen, fun _ => by rw [hobuf]⟩, herr⟩

/-- No write reaches the operation of a running machine (R81). -/
theorem busWrite_of_busy_sameOperation {s : State} (hbusy : s.busy = true) (a : BusAddr) (v : Word) :
    (busWrite s a v).1.SameOperation s := by
  rcases busWrite_cases s a v with ⟨hw, -⟩ | ⟨hw, -⟩ | ⟨hw, -⟩ | ⟨hw, -⟩ | ⟨-, hw, -⟩ | ⟨hidle, -⟩ | ⟨hidle, -⟩
    | ⟨hidle, -⟩ | ⟨_, hidle, -⟩ | ⟨_, hidle, -⟩
  -- ignored, STATUS, IEN, dropped
  iterate 5
    · rw [hw]
      exact ⟨rfl, rfl, rfl, rfl, rfl, rfl, rfl, rfl⟩
  -- what only an idle machine does
  all_goals exact absurd hbusy (Bool.eq_false_iff.mp hidle)

theorem busStep_of_busy_sameOperation {s : State} (hbusy : s.busy = true) (op : BusOp) :
    (busStep op s).SameOperation s := by
  cases op with
  | read a => exact ⟨rfl, rfl, rfl, rfl, rfl, rfl, rfl, rfl⟩
  | write a v => exact busWrite_of_busy_sameOperation hbusy a v

theorem takeEntropy_sameOperation (b : Byte) (s : State) : (takeEntropy b s).SameOperation s :=
  ⟨takeEntropy_cmdLatch b s, takeEntropy_inLen b s, takeEntropy_ibuf b s, takeEntropy_keyLen b s, takeEntropy_key b s,
    takeEntropy_outLen b s, takeEntropy_obuf b s, takeEntropy_errCode b s⟩

/-- Settles O59: reset and a completion leave an idle machine, and every other step keeps the operation. -/
theorem operandsAreFixedInFlight : Obligations.OperandsAreFixedInFlight := by
  intro s t hbusy hstep hbusy'
  apply State.SameOperation.same
  rcases step_cases hstep with ⟨op, _, -, rfl⟩ | ⟨b, _, -, rfl⟩ | ⟨during, _, -, rfl⟩ | ⟨-, hidle, -⟩
    | ⟨-, -, -, -, rfl⟩ | ⟨-, -, -, rfl⟩
  · exact busStep_of_busy_sameOperation (s := s.popped) hbusy op
  · exact takeEntropy_sameOperation b s.popped
  · rw [resetInput_busy] at hbusy'
    exact absurd hbusy' Bool.false_ne_true
  · exact absurd hbusy (Bool.eq_false_iff.mp hidle)
  · exact ⟨rfl, rfl, rfl, rfl, rfl, rfl, rfl, rfl⟩
  · rw [commit_busy] at hbusy'
    exact absurd hbusy' Bool.false_ne_true

/-! ## The key -/

/-- `KEY_LEN` and the bank are the same data. -/
def State.KeyUntouched (t s : State) : Prop := t.keyLen = s.keyLen ∧ t.key = s.key

theorem State.KeyUntouched.sameKey {t s : State} (h : t.KeyUntouched s) : t.SameKey s :=
  ⟨h.1, fun _ => by rw [h.2]⟩

theorem commit_keyUntouched {r : Result} (h : r.keyw = none) (s : State) : (commit r s).KeyUntouched s :=
  ⟨by rw [commit_keyLen, committedKeyLen, h], by rw [commit_key, committedKey, h]⟩

/-- The only writes that change the key are those of an idle machine to the bank or to `KEY_LEN` (R33, R34, R81). -/
theorem busWrite_changes_key {s : State} {a : BusAddr} {v : Word} (h : ¬(busWrite s a v).1.KeyUntouched s) :
    s.busy = false ∧ (a.toNat = 0x20 ∨ (0x40 ≤ a.toNat ∧ a.toNat < 0x60)) := by
  rcases busWrite_cases s a v with ⟨hw, -⟩ | ⟨hw, -⟩ | ⟨hw, -⟩ | ⟨hw, -⟩ | ⟨-, hw, -⟩ | ⟨-, hw, -⟩ | ⟨-, hw, -⟩
    | ⟨hidle, -, ha⟩ | ⟨_, hidle, -, ha, -, hoff⟩ | ⟨_, -, hw, -⟩
  case inr.inr.inr.inr.inr.inr.inr.inl => exact ⟨hidle, .inl ha⟩
  case inr.inr.inr.inr.inr.inr.inr.inr.inl => exact ⟨hidle, .inr (by omega)⟩
  all_goals
    rw [hw] at h
    exact absurd ⟨rfl, rfl⟩ h

/-- The only words whose completion changes the key are those of DERIVE and of CLEAR with CK (R34, R241). -/
theorem commit_latchedResult_changes_key {s : State} (h : ¬(commit (latchedResult s) s).KeyUntouched s) :
    s.cmdLatch = 0x00000001 ∨ s.cmdLatch = 0x00000205 ∨ s.cmdLatch = 0x00000305 := by
  rcases latchedResult_cases s with ⟨i, hd, hr⟩ | ⟨-, hr⟩
  · have hkeyw : (commandResult i s).keyw ≠ none := fun hnone => h (by rw [hr]; exact commit_keyUntouched hnone s)
    rw [eq_encode_of_decode hd]
    by_cases hderive : i = .derive
    · exact .inl (by rw [hderive]; rfl)
    · have hclear : ∃ ci, i = .clear ci true := by
        by_contra hno
        exact hkeyw (commandResult_keyw_none hderive (fun ci hi => hno ⟨ci, hi⟩) s)
      obtain ⟨ci, rfl⟩ := hclear
      cases ci
      · exact .inr (.inl rfl)
      · exact .inr (.inr rfl)
  · exact absurd (by rw [hr]; exact commit_keyUntouched rfl s) h

/-- Settles O60, by cases on what the step did. -/
theorem onlyNamedStepsChangeTheKey : Obligations.OnlyNamedStepsChangeTheKey := by
  intro s t hstep hnot
  have hchange : ¬t.KeyUntouched s := fun h => hnot h.sameKey
  rcases step_cases hstep with ⟨op, rest, hinputs, rfl⟩ | ⟨b, _, -, rfl⟩ | ⟨during, rest, hinputs, -⟩ | ⟨-, -, rfl⟩
    | ⟨-, -, -, -, rfl⟩ | ⟨-, hbusy, -, rfl⟩
  · cases op with
    | read a => exact absurd ⟨rfl, rfl⟩ hchange
    | write a v =>
      obtain ⟨hidle, ha⟩ := busWrite_changes_key (s := s.popped) hchange
      exact .inl ⟨hidle, a, v, rest, hinputs, ha⟩
  · exact absurd ⟨takeEntropy_keyLen b s.popped, takeEntropy_key b s.popped⟩ hchange
  · exact .inr (.inr ⟨during, rest, hinputs⟩)
  · exact absurd ⟨rfl, rfl⟩ hchange
  · exact absurd ⟨rfl, rfl⟩ hchange
  · exact .inr (.inl ⟨hbusy, commit_busy _ _, commit_latchedResult_changes_key (s := s.popped) hchange⟩)

end Sys2Proof.Machine
end

-- Writes over the bus: control registers, lengths, windows, and the writes that have no effect (20_memory.md).
section
/-! SUPPORT. A write as a step, what a write to each kind of location does, and the proofs of the statements about writes and
about accesses outside the map. -/

namespace Sys2Proof.Machine

/-! ## A transaction as a step -/

theorem step_read {s : State} {a : BusAddr} {rest : List Input} (h : s.inputs = .bus (.read a) :: rest) :
    step s = .next { s with inputs := rest, resp := some (.read (busRead s a).1 (busRead s a).2) } := by
  rw [step_bus h, State.popped_of_cons h]
  rfl

/-- A write as a step, by what it does to the state less its event. -/
theorem step_write {s t : State} {a : BusAddr} {v : Word} {err : Bool} {rest : List Input}
    (h : s.inputs = .bus (.write a v) :: rest) (hw : busWrite { s with inputs := rest } a v = (t, err)) :
    step s = .next { t with resp := some (.write err) } := by
  rw [step_bus h, State.popped_of_cons h, busStep, hw]

/-- A write to a mapped address, by its location. -/
theorem busWrite_of_locate {s : State} {a : BusAddr} {l : Loc} (h : locate s.cfg.bufBytes a = some l) (v : Word) :
    busWrite s a v = (writeLoc s v l, false) := by
  simp only [busWrite, h]

/-! ## Accesses without effect -/

theorem busWrite_of_unmapped {s : State} {a : BusAddr} (h : locate s.cfg.bufBytes a = none) (v : Word) :
    busWrite s a v = (s, true) := by
  simp only [busWrite, h]

theorem busRead_of_unmapped {s : State} {a : BusAddr} (h : locate s.cfg.bufBytes a = none) :
    busRead s a = (0, true) := by
  simp only [busRead, h]

/-- Settles O47: the map lists nothing at the address, so neither transaction reaches the state. -/
theorem unmappedAccessesAnswerError : Obligations.UnmappedAccessesAnswerError := by
  intro s a v rest hunmapped
  have hloc : locate s.cfg.bufBytes a = none := (locate_eq_none_iff _ _).mpr hunmapped
  refine ⟨fun hinputs => ?_, fun hinputs => ?_⟩
  · rw [step_read hinputs, busRead_of_unmapped hloc]
  · exact step_write hinputs (busWrite_of_unmapped (s := { s with inputs := rest }) hloc v)

/-- A write to a read-only location is ignored without a bus error (R79). -/
theorem busWrite_readOnly {s : State} {a : BusAddr} (hcap : s.cfg.bufBytes ≤ 65536)
    (ha : ReadOnlyAddress s.cfg.bufBytes a.toNat) (v : Word) : busWrite s a v = (s, false) := by
  unfold ReadOnlyAddress at ha
  rcases busWrite_cases s a v with ⟨-, hunmapped⟩ | ⟨hw, -⟩ | ⟨-, h⟩ | ⟨-, h⟩ | ⟨-, -, h⟩ | ⟨-, -, h⟩ | ⟨-, -, h⟩
    | ⟨-, -, h⟩ | ⟨_, -, -, h⟩ | ⟨_, -, -, h⟩
  case inr.inl => exact hw
  case inl =>
    unfold MappedAddress at hunmapped
    omega
  case inr.inr.inr.inr.inl =>
    unfold OperandAddress at h
    omega
  all_goals omega

/-- Settles O52: of all a write can do, the address leaves only the write that is ignored. -/
theorem readOnlyWritesAreIgnored : Obligations.ReadOnlyWritesAreIgnored := by
  intro s a v rest ⟨_, _, hcap⟩ hinputs ha
  exact step_write hinputs (busWrite_readOnly (s := { s with inputs := rest }) hcap ha v)

/-- While an operation is in flight a write to an operand location or to CMD is dropped (R81). -/
theorem busWrite_of_busy_operand {s : State} {a : BusAddr} (hcap : s.cfg.bufBytes ≤ 65536) (hbusy : s.busy = true)
    (ha : OperandAddress s.cfg.bufBytes a.toNat) (v : Word) : busWrite s a v = (dropWrite s, false) := by
  unfold OperandAddress at ha
  rcases busWrite_cases s a v with ⟨-, hunmapped⟩ | ⟨-, h⟩ | ⟨-, h⟩ | ⟨-, h⟩ | ⟨-, hw, -⟩ | ⟨hidle, -⟩ | ⟨hidle, -⟩
    | ⟨hidle, -⟩ | ⟨_, hidle, -⟩ | ⟨_, hidle, -⟩
  case inr.inr.inr.inr.inl => exact hw
  case inl =>
    unfold MappedAddress at hunmapped
    omega
  iterate 3 · omega
  all_goals exact absurd hbusy (Bool.eq_false_iff.mp hidle)

/-- Settles O53: of all a write can do, the address and `BUSY` leave only the write that is dropped. -/
theorem busyWritesAreDropped : Obligations.BusyWritesAreDropped := by
  intro s a v rest ⟨_, _, hcap⟩ hbusy hinputs ha
  exact step_write hinputs (busWrite_of_busy_operand (s := { s with inputs := rest }) hcap hbusy ha v)

/-! ## The control registers and the lengths -/

theorem busWrite_status (s : State) (v : Word) : busWrite s 0x0000C v = (writeStatus v s, false) :=
  busWrite_of_locate (locate_status _) v

theorem busWrite_ien (s : State) (v : Word) : busWrite s 0x00014 v = (writeIen v s, false) :=
  busWrite_of_locate (locate_ien _) v

/-- A flag that bit `k` of the word written clears (R24). -/
theorem and_not_getLsbD (flag : Bool) (v : Word) (k : Nat) :
    (flag && !v.getLsbD k) = if v.toNat / 2 ^ k % 2 = 1 then false else flag := by
  simp only [← getLsbD_iff_toNat]
  cases v.getLsbD k <;> simp

theorem getLsbD_eq_decide (v : Word) (k : Nat) : v.getLsbD k = decide (v.toNat / 2 ^ k % 2 = 1) :=
  Bool.eq_iff_iff.mpr (by rw [getLsbD_iff_toNat, decide_eq_true_eq])

/-- The write to STATUS by the digits of the word's number. -/
theorem writeStatus_eq (v : Word) (s : State) : writeStatus v s = { s with
    done := if v.toNat / 2 % 2 = 1 then false else s.done
    busyw := if v.toNat / 8 % 2 = 1 then false else s.busyw } := by
  rw [writeStatus, and_not_getLsbD, and_not_getLsbD]
  rfl

/-- The write to IEN by the digits of the word's number. -/
theorem writeIen_eq (v : Word) (s : State) : writeIen v s = { s with
    ieDone := decide (v.toNat % 2 = 1)
    ieErr := decide (v.toNat / 2 % 2 = 1) } := by
  rw [writeIen, getLsbD_eq_decide, getLsbD_eq_decide, Nat.pow_zero, Nat.div_one]
  rfl

/-- Settles O48: neither write asks whether the machine is busy. -/
theorem controlWritesActAtAnyTime : Obligations.ControlWritesActAtAnyTime := by
  intro s v rest
  refine ⟨fun hinputs => ?_, fun hinputs => ?_⟩
  · rw [step_write hinputs (busWrite_status _ v), writeStatus_eq]
  · rw [step_write hinputs (busWrite_ien _ v), writeIen_eq]

theorem busWrite_inLen_of_idle {s : State} (hidle : s.busy = false) (v : Word) :
    busWrite s 0x00018 v = ({ s with inLen := v }, false) := by
  rw [busWrite_of_locate (locate_inLen _), writeLoc, whenIdle_of_idle hidle]

theorem busWrite_keyLen_of_idle {s : State} (hidle : s.busy = false) (v : Word) :
    busWrite s 0x00020 v = ({ s with keyLen := v }, false) := by
  rw [busWrite_of_locate (locate_keyLen _), writeLoc, whenIdle_of_idle hidle]

/-- Settles O49: both writes reach an idle machine as they are. -/
theorem lengthWritesStoreTheWord : Obligations.LengthWritesStoreTheWord := by
  intro s v rest hidle
  exact ⟨fun hinputs => step_write hinputs (busWrite_inLen_of_idle (s := { s with inputs := rest }) hidle v),
    fun hinputs => step_write hinputs (busWrite_keyLen_of_idle (s := { s with inputs := rest }) hidle v)⟩

/-! ## The key bank and the IBUF window -/

theorem busWrite_key_of_idle {s : State} {a : BusAddr} {off : Nat} (hidle : s.busy = false)
    (hloc : locate s.cfg.bufBytes a = some (.key off)) (v : Word) :
    busWrite s a v = ({ s with key := s.key.writeBytes off (le32Bytes v) }, false) := by
  rw [busWrite_of_locate hloc, writeLoc, whenIdle_of_idle hidle]

theorem busWrite_ibuf_of_idle {s : State} {a : BusAddr} {off : Nat} (hidle : s.busy = false)
    (hloc : locate s.cfg.bufBytes a = some (.ibuf off)) (v : Word) :
    busWrite s a v = ({ s with ibuf := s.ibuf.writeBytes off (le32Bytes v) }, false) := by
  rw [busWrite_of_locate hloc, writeLoc, whenIdle_of_idle hidle]

/-- The four bytes that a word's write leaves, least significant first (R73). -/
theorem read_writeWord {m : Memory} (hm : m.Wf) (off : Nat) (v : Word) {k : Nat} (hk : k < 4) :
    (m.writeBytes off (le32Bytes v)).read (off + k) = wordByte v k := by
  rw [Memory.read_writeBytes hm, if_pos (by rw [le32Bytes_length]; omega), Nat.add_sub_cancel_left, le32Bytes_getD v hk]

/-- Every other byte stays. -/
theorem read_writeWord_of_outside {m : Memory} (hm : m.Wf) {off i : Nat} (v : Word) (hi : i < off ∨ off + 4 ≤ i) :
    (m.writeBytes off (le32Bytes v)).read i = m.read i := by
  rw [Memory.read_writeBytes hm, if_neg (by rw [le32Bytes_length]; omega)]

/-- Settles O50: the write replaces one array, and the invariant says that the array is canonical. -/
theorem windowWritesStoreFourBytes : Obligations.WindowWritesStoreFourBytes := by
  intro s a v j rest hinv hidle hinputs
  obtain ⟨-, ⟨hkeyWf, -⟩, ⟨hibufWf, -⟩, -⟩ := hinv
  refine ⟨fun hj ha => ?_, fun hj ha => ?_⟩
  · have hloc : locate s.cfg.bufBytes a = some (.key (4 * j)) := locate_key (by omega) (by omega) ha
    refine ⟨_, step_write hinputs (busWrite_key_of_idle (s := { s with inputs := rest }) hidle hloc v), rfl, rfl,
      fun k hk => ?_, fun i hi => read_writeWord_of_outside hkeyWf v hi, rfl, ⟨rfl, fun _ => rfl⟩, ⟨rfl, fun _ => rfl⟩,
      ⟨rfl, rfl, rfl, rfl, rfl, rfl, rfl, rfl⟩, rfl, rfl⟩
    rw [read_writeWord hkeyWf _ v hk, wordByte_toNat]
  · have hloc : locate s.cfg.bufBytes a = some (.ibuf (4 * j)) := locate_ibuf (by omega) hj ha
    refine ⟨_, step_write hinputs (busWrite_ibuf_of_idle (s := { s with inputs := rest }) hidle hloc v), rfl, rfl,
      fun k hk => ?_, fun i hi => read_writeWord_of_outside hibufWf v hi, rfl, ⟨rfl, fun _ => rfl⟩,
      ⟨rfl, fun _ => rfl⟩, ⟨rfl, rfl, rfl, rfl, rfl, rfl, rfl, rfl⟩, rfl, rfl⟩
    rw [read_writeWord hibufWf _ v hk, wordByte_toNat]

end Sys2Proof.Machine
end

-- The pseudo-operations LDI and LDK: a sequence of transactions as a run, and what the writes of a load leave (30_encoding.md).
section
/-! SUPPORT. A host's sequence as a run of the machine, the two windows that a load can fill as one notion, what the words of
a load leave in them, and the proof of the statement about loading. -/

namespace Sys2Proof.Machine

/-! ## A sequence of transactions as a run -/

theorem whenIdle_inputs (s t : State) (es : List Input) :
    whenIdle { s with inputs := es } { t with inputs := es } = { whenIdle s t with inputs := es } := by
  rcases Bool.eq_false_or_eq_true s.busy with hbusy | hidle
  · rw [whenIdle_of_busy hbusy, whenIdle_of_busy (s := { s with inputs := es }) hbusy]
    rfl
  · rw [whenIdle_of_idle hidle, whenIdle_of_idle (s := { s with inputs := es }) hidle]

theorem writeLoc_inputs (s : State) (v : Word) (l : Loc) (es : List Input) :
    writeLoc { s with inputs := es } v l = { writeLoc s v l with inputs := es } := by
  cases l with
  | cmd => exact whenIdle_inputs s (startStep v s) es
  | inLen => exact whenIdle_inputs s { s with inLen := v } es
  | keyLen => exact whenIdle_inputs s { s with keyLen := v } es
  | key off => exact whenIdle_inputs s { s with key := s.key.writeBytes off (le32Bytes v) } es
  | ibuf off => exact whenIdle_inputs s { s with ibuf := s.ibuf.writeBytes off (le32Bytes v) } es
  | _ => rfl

/-- No transaction reads or writes the waiting events. -/
theorem busStep_inputs (op : BusOp) (s : State) (es : List Input) :
    busStep op { s with inputs := es } = { busStep op s with inputs := es } := by
  cases op with
  | read a => rfl
  | write a v =>
    cases hloc : locate s.cfg.bufBytes a with
    | none => simp only [busStep, busWrite_of_unmapped hloc, busWrite_of_unmapped (s := { s with inputs := es }) hloc]
    | some l =>
      simp only [busStep, busWrite_of_locate hloc, busWrite_of_locate (s := { s with inputs := es }) hloc,
        writeLoc_inputs]

/-- A sequence of transactions, one after the other. -/
def busSteps (ops : List BusOp) (s : State) : State := ops.foldl (fun u op => busStep op u) s

theorem busSteps_append (ops ops' : List BusOp) (s : State) : busSteps (ops ++ ops') s = busSteps ops' (busSteps ops s) :=
  List.foldl_append

/-- A host's sequence at the head of the waiting events runs as its transactions one after the other (R84). -/
theorem run_hostEvents {ops : List BusOp} {rest : List Input} {s : State} (h : s.inputs = hostEvents ops ++ rest) :
    Host.Core.run Sys2Proof.core ops.length s = .next (busSteps ops { s with inputs := rest }) := by
  induction ops generalizing s with
  | nil =>
    have hrest : s.inputs = rest := h
    rw [← hrest]
    rfl
  | cons op ops ih =>
    have hpopped : s.popped = { s with inputs := hostEvents ops ++ rest } := State.popped_of_cons h
    have hstep : step s = .next { busStep op s with inputs := hostEvents ops ++ rest } := by
      rw [step_bus h, hpopped, busStep_inputs]
    have htail : busSteps (op :: ops) { s with inputs := rest } = busSteps ops { busStep op s with inputs := rest } := by
      rw [← busStep_inputs]
      rfl
    rw [htail]
    exact (run_succ hstep ops.length).trans (ih rfl)

/-! ## The two windows -/

/-- An array that the host can load: the key bank or IBUF. -/
inductive Window where
  | key
  | ibuf

/-- Where the window's byte `off` lies in the map. -/
def Window.loc : Window → Nat → Loc
  | .key => .key
  | .ibuf => .ibuf

/-- The window's array. -/
def Window.array : Window → State → Memory
  | .key, s => s.key
  | .ibuf, s => s.ibuf

/-- How many bytes the window holds. -/
def Window.size : Window → State → Nat
  | .key, _ => 32
  | .ibuf, s => s.cfg.bufBytes

/-- The state with the window's array replaced, and the response of the last transaction. -/
def Window.put (win : Window) (m : Memory) (r : Option Response) (s : State) : State :=
  match win with
  | .key => { s with key := m, resp := r }
  | .ibuf => { s with ibuf := m, resp := r }

/-- A word written to a window of an idle machine (R78). -/
theorem busStep_wr_window (win : Window) {s : State} (hidle : s.busy = false) (hcap : s.cfg.bufBytes ≤ 65536)
    {off : Nat} (h4 : off % 4 = 0) (hoff : off < win.size s) (v : Word) :
    busStep (wr (win.loc off) v) s =
      win.put ((win.array s).writeBytes off (le32Bytes v)) (some (.write false)) s := by
  cases win with
  | key =>
    have hoff : off < 32 := hoff
    have hloc : locate s.cfg.bufBytes (Loc.busAddr (.key off)) = some (.key off) :=
      locate_key h4 hoff (busAddr_key_toNat hoff)
    simp only [wr, Window.loc, busStep, busWrite_key_of_idle hidle hloc]
    rfl
  | ibuf =>
    have hoff : off < s.cfg.bufBytes := hoff
    have hloc : locate s.cfg.bufBytes (Loc.busAddr (.ibuf off)) = some (.ibuf off) :=
      locate_ibuf h4 hoff (busAddr_ibuf_toNat (by omega))
    simp only [wr, Window.loc, busStep, busWrite_ibuf_of_idle hidle hloc]
    rfl

@[simp] theorem Window.array_put (win : Window) (m : Memory) (r : Option Response) (s : State) :
    win.array (win.put m r s) = m := by cases win <;> rfl

@[simp] theorem Window.put_put (win : Window) (m m' : Memory) (r r' : Option Response) (s : State) :
    win.put m' r' (win.put m r s) = win.put m' r' s := by cases win <;> rfl

@[simp] theorem Window.put_busy (win : Window) (m : Memory) (r : Option Response) (s : State) :
    (win.put m r s).busy = s.busy := by cases win <;> rfl

@[simp] theorem Window.put_cfg (win : Window) (m : Memory) (r : Option Response) (s : State) :
    (win.put m r s).cfg = s.cfg := by cases win <;> rfl

@[simp] theorem Window.size_put (win : Window) (m : Memory) (r : Option Response) (s : State) :
    win.size (win.put m r s) = win.size s := by cases win <;> rfl

theorem Window.put_self (win : Window) (s : State) : win.put (win.array s) s.resp s = s := by
  cases win <;> rfl

/-! ## Loading a byte string -/

/-- `m'` is `m` with the words `0` to `n - 1` of `b` in it, the last one padded with zeros (R108). -/
def LoadedWords (m' m : Memory) (b : List Byte) (n : Nat) : Prop :=
  m'.Wf ∧ ∀ i, m'.read i = if i < 4 * n then b.getD i 0 else m.read i

theorem LoadedWords.zero {m : Memory} (hm : m.Wf) (b : List Byte) : LoadedWords m m b 0 := ⟨hm, fun _ => rfl⟩

/-- One more word, at its place. -/
theorem LoadedWords.succ {m' m : Memory} {b : List Byte} {n : Nat} (h : LoadedWords m' m b n) :
    LoadedWords (m'.writeBytes (4 * n) (le32Bytes (paddedWord b n))) m b (n + 1) := by
  obtain ⟨hwf, hread⟩ := h
  refine ⟨Memory.wf_writeBytes hwf _ _, fun i => ?_⟩
  by_cases hi : i < 4 * n ∨ 4 * n + 4 ≤ i
  · rw [read_writeWord_of_outside hwf _ hi, hread]
    exact if_congr (by omega) rfl rfl
  · obtain ⟨k, rfl⟩ := Nat.exists_eq_add_of_le (show 4 * n ≤ i by omega)
    rw [read_writeWord hwf _ _ (by omega), wordByte_paddedWord b n (by omega), if_pos (by omega)]

/-- The first `n` words of a load into a window of an idle machine change that window's array alone. -/
theorem busSteps_loadWindow (win : Window) {s : State} (hidle : s.busy = false) (hcap : s.cfg.bufBytes ≤ 65536)
    (hwf : (win.array s).Wf) (b : List Byte) (n : Nat) (hn : 4 * n ≤ win.size s) :
    ∃ m r, LoadedWords m (win.array s) b n ∧
      busSteps ((List.range n).map fun j => wr (win.loc (4 * j)) (paddedWord b j)) s = win.put m r s := by
  induction n with
  | zero => exact ⟨_, _, .zero hwf b, (win.put_self s).symm⟩
  | succ n ih =>
    obtain ⟨m, r, hload, hfold⟩ := ih (by omega)
    have hword := busStep_wr_window win (s := win.put m r s) (by rwa [win.put_busy]) (by rwa [win.put_cfg])
      (Nat.mul_mod_right 4 n) (by rw [win.size_put]; omega) (paddedWord b n)
    rw [win.array_put, win.put_put] at hword
    refine ⟨_, some (.write false), hload.succ, ?_⟩
    rw [List.range_succ, List.map_append, busSteps_append, hfold]
    exact hword

/-- A byte string loaded: its bytes, zeros to the end of its last word, and the old bytes beyond (R108). -/
theorem LoadedWords.read_cases {m' m : Memory} {b : List Byte} (h : LoadedWords m' m b ((b.length + 3) / 4)) :
    (∀ i, i < b.length → m'.read i = b.getD i 0)
    ∧ (∀ i, b.length ≤ i → i < 4 * ((b.length + 3) / 4) → m'.read i = 0)
    ∧ (∀ i, 4 * ((b.length + 3) / 4) ≤ i → m'.read i = m.read i) := by
  obtain ⟨-, hread⟩ := h
  refine ⟨fun i hi => ?_, fun i hlo hhi => ?_, fun i hi => ?_⟩ <;> rw [hread]
  · rw [if_pos (by omega)]
  · rw [if_pos hhi, getD_eq_zero_of_le hlo]
  · rw [if_neg (by omega)]

/-- A load and the transaction after it, as a run. -/
theorem run_load (win : Window) {s : State} {b : List Byte} {last : BusOp} {rest : List Input}
    (hidle : s.busy = false) (hcap : s.cfg.bufBytes ≤ 65536) (hwf : (win.array s).Wf)
    (hfits : 4 * ((b.length + 3) / 4) ≤ win.size s)
    (hinputs : s.inputs = hostEvents (loadWindow win.loc b ++ [last]) ++ rest) :
    ∃ m r, LoadedWords m (win.array s) b ((b.length + 3) / 4) ∧
      Host.Core.run Sys2Proof.core ((b.length + 3) / 4 + 1) s =
        .next (busStep last (win.put m r { s with inputs := rest })) := by
  have harray : win.array { s with inputs := rest } = win.array s := by cases win <;> rfl
  have hsize : win.size { s with inputs := rest } = win.size s := by cases win <;> rfl
  obtain ⟨m, r, hload, hfold⟩ := busSteps_loadWindow win (s := { s with inputs := rest }) hidle hcap
    (harray.symm ▸ hwf) b ((b.length + 3) / 4) (hsize.symm ▸ hfits)
  refine ⟨m, r, harray ▸ hload, ?_⟩
  have hlen : (loadWindow win.loc b ++ [last]).length = (b.length + 3) / 4 + 1 := by
    rw [List.length_append, loadWindow_length, List.length_singleton]
  have hwords : busSteps (loadWindow win.loc b) { s with inputs := rest } = win.put m r { s with inputs := rest } := hfold
  rw [← hlen, ← hwords]
  exact (run_hostEvents hinputs).trans (congrArg _ (busSteps_append _ _ _))

/-- The length of a byte string that fits a window is a 32-bit number. -/
theorem ofNat_length_toNat {b : List Byte} {n : Nat} (h : b.length ≤ n) (hn : n ≤ 65536) :
    (BitVec.ofNat 32 b.length).toNat = b.length := by
  rw [BitVec.toNat_ofNat, Nat.mod_eq_of_lt (by omega)]

theorem busStep_wr_inLen {s : State} (hidle : s.busy = false) (v : Word) :
    busStep (wr .inLen v) s = { s with inLen := v, resp := some (.write false) } := by
  have hw : busWrite s (Loc.busAddr .inLen) v = ({ s with inLen := v }, false) := busWrite_inLen_of_idle hidle v
  simp only [wr, busStep, hw]

theorem busStep_wr_keyLen {s : State} (hidle : s.busy = false) (v : Word) :
    busStep (wr .keyLen v) s = { s with keyLen := v, resp := some (.write false) } := by
  have hw : busWrite s (Loc.busAddr .keyLen) v = ({ s with keyLen := v }, false) := busWrite_keyLen_of_idle hidle v
  simp only [wr, busStep, hw]

/-- Settles O51: the words of the load fill the window, whose size is a multiple of 4, and the last write sets the length. -/
theorem loadingPlacesTheBytes : Obligations.LoadingPlacesTheBytes := by
  intro s b rest hinv hidle n
  obtain ⟨⟨h16, -, hcap⟩, ⟨hkeyWf, -⟩, ⟨hibufWf, -⟩, -⟩ := hinv
  refine ⟨fun hb hinputs => ?_, fun hb hinputs => ?_⟩
  · obtain ⟨m, r, hload, hrun⟩ := run_load .ibuf hidle hcap hibufWf (show 4 * n ≤ s.cfg.bufBytes by omega) hinputs
    rw [busStep_wr_inLen (s := Window.ibuf.put m r { s with inputs := rest }) hidle] at hrun
    obtain ⟨hbytes, hzeros, hbeyond⟩ := hload.read_cases
    exact ⟨_, hrun, rfl, ofNat_length_toNat hb hcap, hbytes, hzeros, hbeyond, ⟨rfl, fun _ => rfl⟩, ⟨rfl, fun _ => rfl⟩,
      ⟨rfl, rfl, rfl, rfl, rfl, rfl, rfl, rfl⟩, rfl⟩
  · obtain ⟨m, r, hload, hrun⟩ := run_load .key hidle hcap hkeyWf (show 4 * n ≤ 32 by omega) hinputs
    rw [busStep_wr_keyLen (s := Window.key.put m r { s with inputs := rest }) hidle] at hrun
    obtain ⟨hbytes, hzeros, hbeyond⟩ := hload.read_cases
    exact ⟨_, hrun, rfl, ofNat_length_toNat hb (by decide), hbytes, hzeros, hbeyond, ⟨rfl, fun _ => rfl⟩,
      ⟨rfl, fun _ => rfl⟩, ⟨rfl, rfl, rfl, rfl, rfl, rfl, rfl, rfl⟩, rfl⟩

end Sys2Proof.Machine
end

-- The results of the commands: DERIVE's digest, the lengths and blocks of ENCRYPT, and the padding check of DECRYPT
-- (40_key_deriver.md, 43_aes_core.md, 44_cipher_engine.md).
section
/-! SUPPORT. A text by the bytes it encodes, a successful ENCRYPT, the inverse-transformed input byte by byte and the check of
its padding, and the proofs of the statements about results. -/

namespace Sys2Proof.Machine

/-! ## DERIVE -/

/-- A text of digits decodes to the bytes that its pairs encode, high nibble first (R135). -/
theorem hexDecode_eq_of_pairs {t m : List Byte} (hlen : t.length = 2 * m.length) (hhex : ∀ c ∈ t, isHex c = true)
    (hpairs : ∀ j, j < m.length → (m.getD j 0).toNat = 16 * hexval (t.getD (2 * j) 0) + hexval (t.getD (2 * j + 1) 0)) :
    hexDecode t = m := by
  have hdigit : ∀ i, i < t.length → isHex (t.getD i 0) = true := fun i hi => by
    rw [List.getD_eq_getElem _ _ hi]
    exact hhex _ (List.getElem_mem hi)
  have hdecoded : (hexDecode t).length = m.length := by rw [hexDecode_length, hlen, Nat.mul_div_cancel_left _ Nat.two_pos]
  refine bytes_ext hdecoded fun j hj => ?_
  have hj : j < m.length := hdecoded ▸ hj
  apply BitVec.eq_of_toNat_eq
  rw [hexDecode_getD t j (by omega), hexPair_toNat _ _ (hdigit _ (by omega)) (hdigit _ (by omega)), hpairs j hj]

/-- Settles O13: the text is of digits and of even length, so it passes both checks, and it decodes to `m`. -/
theorem deriveStoresDigest : Obligations.DeriveStoresDigest := by
  intro s m hfits hm hlen hhex hpairs
  have hpos : 0 < m.length := List.length_pos_of_ne_nil hm
  have htext : (bytesOf s.ibuf s.inLen.toNat).length = 2 * m.length := by rw [bytesOf_length, hlen]
  have hdigits : ∀ c ∈ bytesOf s.ibuf s.inLen.toNat, isHex c = true := fun c hc => by
    obtain ⟨i, hi, rfl⟩ := mem_bytesOf.mp hc
    exact hhex i hi
  have hdecode : hexDecode (bytesOf s.ibuf s.inLen.toNat) = m := by
    refine hexDecode_eq_of_pairs htext hdigits fun j hj => ?_
    rw [bytesOf_getD, bytesOf_getD, if_pos (by omega), if_pos (by omega)]
    exact hpairs j hj
  have hresult : deriveResult s = digestResult m := by
    rw [deriveResult_of_fits hfits, deriveText_of_hex (List.ne_nil_of_length_pos (by omega)) (by omega) hdigits, hdecode]
  refine ⟨_, exec_derive_eq s, ?_⟩
  rw [hresult]
  exact ⟨commit_completed _ s, sha256_length m, commit_keyIs rfl (sha256_length m).le s, commit_noOutput rfl s,
    commit_sameInput rfl s⟩

/-! ## The block cipher -/

/-- Settles O26: column by column, both ways. -/
theorem mixColumnsInverse : Obligations.MixColumnsInverse :=
  fun s => ⟨invMixColumns_mixColumns s, mixColumns_invMixColumns s⟩

/-- The affine map of R183 undone: the byte whose image is `y`. -/
def affineInverse (y : Byte) : Byte := y.rotateLeft 1 ^^^ y.rotateLeft 3 ^^^ y.rotateLeft 6 ^^^ 0x05

/-- Entry by entry, over the 256 bytes: the entry of `x` is the affine image of a byte that is the inverse of `x` in the
field, or 0 for 0 (R183). -/
theorem sbox_rule : ∀ x : Byte,
    (gmul x (affineInverse (sbox x)) = 1 ∨ (x = 0 ∧ affineInverse (sbox x) = 0)) ∧
    sbox x = affineInverse (sbox x) ^^^ (affineInverse (sbox x)).rotateLeft 1 ^^^ (affineInverse (sbox x)).rotateLeft 2
      ^^^ (affineInverse (sbox x)).rotateLeft 3 ^^^ (affineInverse (sbox x)).rotateLeft 4 ^^^ 0x63 := by
  decide +kernel

/-- Settles O25: the two tables are inverse, and the affine map undone gives the field inverse. -/
theorem substitutionTablesFollowTheirRule : Obligations.SubstitutionTablesFollowTheirRule :=
  fun x => ⟨isbox_sbox x, sbox_isbox x, affineInverse (sbox x), sbox_rule x⟩

/-! ## A successful ENCRYPT -/

/-- An ENCRYPT without error has passed both checks, and its output is the ciphertext (R215). -/
theorem exec_encrypt_succeeded {s t : State} (hc : s.cfg.Legal) (hexec : exec .encrypt s = .next t)
    (herr : t.errCode = 0) : s.inLen.toNat < s.cfg.bufBytes ∧ t.OutputIs s.ciphertext := by
  rw [exec_encrypt_eq] at hexec
  injection hexec with ht
  subst ht
  rw [commit_errCode, errNumber_eq_zero] at herr
  rcases encryptResult_cases s with ⟨hres, -⟩ | ⟨hres, -⟩ | ⟨hres, hfits, -⟩
  · rw [hres] at herr
    exact nomatch herr
  · rw [hres] at herr
    exact nomatch herr
  · rw [hres]
    exact ⟨hfits, commit_ciphertext_outputIs hc hfits⟩

/-- Settles O31: the ciphertext is one block longer than the whole blocks of the plaintext. -/
theorem ciphertextLengthLaw : Obligations.CiphertextLengthLaw := by
  intro s t hc hexec herr
  obtain ⟨hfits, hout⟩ := exec_encrypt_succeeded hc hexec herr
  have hle := State.ciphertext_length_le hc hfits
  rw [hout.outLen]
  rw [s.ciphertext_length] at hle ⊢
  omega

/-- Settles O32: a block of the ciphertext is a function of the plaintext's block and the key alone. -/
theorem equalBlocksEncryptEqually : Obligations.EqualBlocksEncryptEqually := by
  intro s t b1 b2 hc hexec herr hb1 hb2 hequal k hk
  obtain ⟨-, hout⟩ := exec_encrypt_succeeded hc hexec herr
  have hblock : s.paddedBlock b1 = s.paddedBlock b2 :=
    List.map_congr_left fun i hi => hequal i (List.mem_range.mp hi)
  rw [hout.obuf, hout.obuf, State.ciphertext_getD hb1 hk, State.ciphertext_getD hb2 hk, hblock]

/-! ## The inverse-transformed input of DECRYPT -/

/-- What DECRYPT's transform makes of its operands (R224). -/
def State.decrypted (s : State) : List Byte :=
  ecbDecrypt (bytesOf s.ibuf s.inLen.toNat) (bytesOf s.key s.keyLen.toNat)

theorem State.decrypted_length {s : State} (h : s.inLen.toNat % 16 = 0) : s.decrypted.length = s.inLen.toNat := by
  rw [State.decrypted, ecbDecrypt_length, bytesOf_length]
  omega

/-- A block of the input, byte by byte. -/
theorem slice_bytesOf_eq_inputBlock {s : State} {b : Nat} (hb : 16 * b + 16 ≤ s.inLen.toNat) :
    slice (bytesOf s.ibuf s.inLen.toNat) (16 * b) 16 = s.inputBlock b := by
  rw [slice_eq_map (by rwa [bytesOf_length]), State.inputBlock]
  refine List.map_congr_left fun k hk => ?_
  have hk := List.mem_range.mp hk
  rw [bytesOf_getD, if_pos (by omega)]

theorem State.decrypted_getD {s : State} (h : s.inLen.toNat % 16 = 0) {i : Nat} (hi : i < s.inLen.toNat) :
    s.decrypted.getD i 0 = s.decryptedByte i := by
  have hkey : keyRounds (bytesOf s.key s.keyLen.toNat) = s.rounds := by
    rw [keyRounds, keyWords, bytesOf_length, State.rounds]
  have hblock : i / 16 < (bytesOf s.ibuf s.inLen.toNat).length / 16 := by
    rw [bytesOf_length]
    omega
  calc s.decrypted.getD i 0
    _ = s.decrypted.getD (16 * (i / 16) + i % 16) 0 := by rw [Nat.div_add_mod]
    _ = (invCipher (slice (bytesOf s.ibuf s.inLen.toNat) (16 * (i / 16)) 16) s.roundKeys s.rounds).getD (i % 16) 0 := by
      rw [State.decrypted, ecbDecrypt, mapBlocks_getD (fun _ => invCipher_length _ _ _) _ hblock
        (Nat.mod_lt _ (by decide)), hkey, State.roundKeys]
    _ = s.decryptedByte i := by rw [slice_bytesOf_eq_inputBlock (by omega), State.decryptedByte]

/-! ## The padding found -/

/-- The check of R225 by the numbers of the bytes it reads. -/
theorem padValid_iff (d : List Byte) : padValid d = true ↔
    1 ≤ (d.getD (d.length - 1) 0).toNat ∧ (d.getD (d.length - 1) 0).toNat ≤ 16
      ∧ ∀ i, 1 ≤ i → i ≤ (d.getD (d.length - 1) 0).toNat →
        (d.getD (d.length - i) 0).toNat = (d.getD (d.length - 1) 0).toNat := by
  simp only [padValid, Bool.and_eq_true, decide_eq_true_eq, List.all_eq_true, List.mem_range, beq_iff_eq, and_assoc,
    ← BitVec.toNat_inj]
  refine and_congr_right fun _ => and_congr_right fun _ => ⟨fun h i hlo hhi => ?_, fun h i hi => h (i + 1) ?_ hi⟩
  · obtain ⟨j, rfl⟩ := Nat.exists_eq_add_of_le' hlo
    exact h j hhi
  · exact Nat.le_add_left 1 i

/-- The last byte of the transformed input names the pad length. -/
theorem State.decrypted_last {s : State} (hpos : s.inLen.toNat ≠ 0) (hmod : s.inLen.toNat % 16 = 0) :
    (s.decrypted.getD (s.decrypted.length - 1) 0).toNat = s.foundPad := by
  rw [State.decrypted_length hmod, State.decrypted_getD hmod (by omega), State.foundPad]

/-- DECRYPT's check is the one of R225 on the bytes of the transformed input. -/
theorem padValid_decrypted_iff {s : State} (hpos : s.inLen.toNat ≠ 0) (hmod : s.inLen.toNat % 16 = 0) :
    padValid s.decrypted = true ↔ s.PadOk := by
  rw [padValid_iff, State.decrypted_last hpos hmod, State.decrypted_length hmod, State.PadOk]
  refine and_congr_right fun _ => and_congr_right fun _ => forall_congr' fun i => forall_congr' fun hlo =>
    forall_congr' fun _ => ?_
  rw [State.decrypted_getD hmod (by omega)]

/-- DECRYPT of operands that pass its three checks ends with the padding check (R226). -/
theorem decryptResult_of_accepted {s : State} (hfits : s.inLen.toNat ≤ s.cfg.bufBytes) (hkey : s.KeyLenOk)
    (hpos : s.inLen.toNat ≠ 0) (hmod : s.inLen.toNat % 16 = 0) : decryptResult s = decryptOutput s.decrypted := by
  rcases decryptResult_cases s with ⟨-, hcap⟩ | ⟨-, -, hbad⟩ | ⟨-, -, -, hmalformed⟩ | ⟨hres, -⟩
  · omega
  · exact absurd hkey hbad
  · omega
  · exact hres

/-- Settles O34: the operands pass the first three checks, and the padding check is the negation of the premise. -/
theorem decryptRefusesBadPadding : Obligations.DecryptRefusesBadPadding := by
  intro s hfits hkey hpos hmod hbad
  refine exec_fails nofun ?_
  rw [commandResult, decryptResult_of_accepted hfits hkey hpos hmod]
  rcases decryptOutput_cases s.decrypted with ⟨hres, -⟩ | ⟨-, hvalid⟩
  · exact hres
  · exact absurd ((padValid_decrypted_iff hpos hmod).mp hvalid) hbad

/-- The plaintext of valid padding: the transformed input less the bytes its last byte names (R225). -/
def State.plaintext (s : State) : List Byte := s.decrypted.take (s.inLen.toNat - s.foundPad)

theorem exec_decrypt_of_padOk {s : State} (hfits : s.inLen.toNat ≤ s.cfg.bufBytes) (hkey : s.KeyLenOk)
    (hpos : s.inLen.toNat ≠ 0) (hmod : s.inLen.toNat % 16 = 0) (hpad : s.PadOk) :
    exec .decrypt s = .next (commit (outputResult s.plaintext) s) := by
  rw [exec_decrypt_eq, decryptResult_of_accepted hfits hkey hpos hmod]
  rcases decryptOutput_cases s.decrypted with ⟨-, hinvalid⟩ | ⟨hres, -⟩
  · exact absurd ((padValid_decrypted_iff hpos hmod).mpr hpad) (Bool.eq_false_iff.mp hinvalid)
  · rw [hres, State.decrypted_last hpos hmod, State.decrypted_length hmod, State.plaintext]

theorem State.plaintext_length {s : State} (hmod : s.inLen.toNat % 16 = 0) :
    s.plaintext.length = s.inLen.toNat - s.foundPad := by
  rw [State.plaintext, List.length_take, State.decrypted_length hmod]
  omega

/-- Settles O33: the output is the plaintext, which is no longer than the input and so fits OBUF. -/
theorem decryptStripsPadding : Obligations.DecryptStripsPadding := by
  intro s _ hfits hkey hpos hmod hpad
  have hlen := State.plaintext_length hmod
  have hlt := s.inLen.isLt
  have hout : (commit (outputResult s.plaintext) s).OutputIs s.plaintext :=
    commit_outputIs (by rw [outputResult_out]; omega) (by rw [outputResult_out]; omega)
  refine ⟨_, exec_decrypt_of_padOk hfits hkey hpos hmod hpad, commit_completed _ s, hout.outLen.trans hlen,
    fun a ha => ?_, fun a ha => ?_, commit_sameInput rfl s, commit_sameKey rfl s⟩
  · rw [hout.obuf, State.plaintext, take_getD, if_pos ha, State.decrypted_getD hmod (by omega)]
  · rw [hout.obuf]
    exact getD_eq_zero_of_le (hlen.trans_le ha)

end Sys2Proof.Machine
end

-- CLEAR, the errors, and what commands read and write (45_clear_and_reserved.md, 60_exceptions.md, 20_memory.md section 7).
section
/-! SUPPORT. The error of each command's result, what a failed operation and a successful command leave alone, that results
depend on the operands alone, and the proofs of the statements about errors and footprints. -/

namespace Sys2Proof.Machine

/-! ## CLEAR -/

theorem exec_clear_eq (ci ck : Bool) (s : State) : exec (.clear ci ck) s = .next (commit (clearResult ci ck) s) := rfl

/-- What a CLEAR has erased, the same CLEAR finds erased (R241). -/
theorem commit_clearResult_idempotent (ci ck : Bool) (s : State) :
    commit (clearResult ci ck) (commit (clearResult ci ck) s) = commit (clearResult ci ck) s := by
  cases ci <;> cases ck <;> rfl

/-- Settles O37: each select bit is one field of CLEAR's result, and there is never an output. -/
theorem clearErasesWhatIsSelected : Obligations.ClearErasesWhatIsSelected := by
  intro ci ck s
  refine ⟨_, exec_clear_eq ci ck s, commit_completed _ s, commit_noOutput rfl s, fun hci => ?_, fun hci => ?_,
    fun hck => ?_, fun hck => ?_, ?_⟩
  · exact commit_inputErased (by rw [clearResult_zeroIbuf, hci]) s
  · exact commit_sameInput (by rw [clearResult_zeroIbuf, hci]) s
  · exact commit_keyErased (by rw [clearResult_keyw, hck, if_pos rfl]) s
  · exact commit_sameKey (by rw [clearResult_keyw, hck, if_neg Bool.false_ne_true]) s
  · rw [exec_clear_eq, commit_clearResult_idempotent]

/-! ## The error of each command -/

theorem deriveResult_err (s : State) : (deriveResult s).err = .none ∨ (deriveResult s).err = .emptyKey
    ∨ (deriveResult s).err = .invalidKeyFormat ∨ (deriveResult s).err = .capacityExceeded := by
  rcases deriveResult_cases s with ⟨e, hres, he⟩ | ⟨m, hres⟩ <;> rw [hres]
  · exact .inr he
  · exact .inl rfl

theorem encryptResult_err (s : State) : (encryptResult s).err = .none ∨ (encryptResult s).err = .keyLengthMismatch
    ∨ (encryptResult s).err = .capacityExceeded := by
  rcases encryptResult_cases s with ⟨hres, -⟩ | ⟨hres, -⟩ | ⟨hres, -⟩ <;> rw [hres]
  · exact .inr (.inr rfl)
  · exact .inr (.inl rfl)
  · exact .inl rfl

theorem decryptResult_err (s : State) : (decryptResult s).err = .none ∨ (decryptResult s).err = .keyLengthMismatch
    ∨ (decryptResult s).err = .malformedCiphertext ∨ (decryptResult s).err = .invalidPadding
    ∨ (decryptResult s).err = .capacityExceeded := by
  rcases decryptResult_cases s with ⟨hres, -⟩ | ⟨hres, -⟩ | ⟨hres, -⟩ | ⟨hres, -⟩ <;> rw [hres]
  · exact .inr (.inr (.inr (.inr rfl)))
  · exact .inr (.inl rfl)
  · exact .inr (.inr (.inl rfl))
  · rcases decryptOutput_cases (ecbDecrypt (bytesOf s.ibuf s.inLen.toNat) (bytesOf s.key s.keyLen.toNat))
      with ⟨hout, -⟩ | ⟨hout, -⟩ <;> rw [hout]
    · exact .inr (.inr (.inr (.inl rfl)))
    · exact .inl rfl

/-- A command that is ready to complete ends in the commit of its result. -/
theorem eq_commit_of_exec {i : Instr} {s t : State} (h : exec i s = .next t)
    (hready : i = .genkey → 32 ≤ s.scratch.drawn.length) : t = commit (commandResult i s) s := by
  rw [exec_of_ready hready] at h
  injection h with h
  exact h.symm

/-- Settles O39: `ERR_CODE` is the number of the result's error (R250). -/
theorem errorCodesOfEachCommand : Obligations.ErrorCodesOfEachCommand := by
  intro s t
  refine ⟨fun hexec => ?_, fun hexec hdrawn => ?_, fun hexec => ?_, fun hexec => ?_, fun ci ck hexec => ?_⟩
  · rw [eq_commit_of_exec hexec nofun, commit_errCode]
    rcases deriveResult_err s with he | he | he | he <;> rw [commandResult, he] <;> decide
  · rw [eq_commit_of_exec hexec fun _ => hdrawn]
    rfl
  · rw [eq_commit_of_exec hexec nofun, commit_errCode]
    rcases encryptResult_err s with he | he | he <;> rw [commandResult, he] <;> decide
  · rw [eq_commit_of_exec hexec nofun, commit_errCode]
    rcases decryptResult_err s with he | he | he | he | he <;> rw [commandResult, he] <;> decide
  · rw [eq_commit_of_exec hexec nofun]
    rfl

/-! ## Failed operations -/

theorem commandResult_zeroIbuf_false {i : Instr} (h : ∀ ck, i ≠ .clear true ck) (s : State) :
    (commandResult i s).zeroIbuf = false := by
  refine Bool.eq_false_iff.mpr fun hzero => ?_
  obtain ⟨ck, hi⟩ := (commandResult_zeroIbuf i s).mp hzero
  exact h ck hi

theorem decode_of_derive_word {w : Word} (h : w = 0x00000001) : decode w = .ok .derive :=
  h ▸ decode_encode .derive

/-- A result with an error is DERIVE's, which leaves no key, or another word's, which touches no operand (R138, R256). -/
theorem latchedResult_of_err {s : State} (he : (latchedResult s).err ≠ .none) :
    (s.cmdLatch = 0x00000001 ∧ ∃ e, latchedResult s = deriveFail e)
    ∨ (s.cmdLatch ≠ 0x00000001 ∧ (latchedResult s).keyw = none ∧ (latchedResult s).zeroIbuf = false) := by
  rcases latchedResult_cases s with ⟨i, hd, hr⟩ | ⟨⟨e, hd⟩, hr⟩
  · have hword := eq_encode_of_decode hd
    have hnot_clear : ∀ ci ck, i ≠ .clear ci ck := by
      rintro ci ck rfl
      exact he (by rw [hr]; rfl)
    rw [hr] at he ⊢
    by_cases hderive : i = .derive
    · subst hderive
      rcases deriveResult_cases s with ⟨e, hres, -⟩ | ⟨m, hres⟩
      · exact .inl ⟨hword, e, hres⟩
      · rw [commandResult, hres] at he
        exact absurd rfl he
    · refine .inr ⟨fun hone => hderive (Except.ok.inj (hd.symm.trans (decode_of_derive_word hone))),
        commandResult_keyw_none hderive (fun ci => hnot_clear ci true) s, commandResult_zeroIbuf_false (hnot_clear true) s⟩
  · exact .inr ⟨fun hone => (nomatch hd.symm.trans (decode_of_derive_word hone)), by rw [hr]; rfl, by rw [hr]; rfl⟩

/-- The step of a running machine with no event waiting that ends idle is the commit of the latched word's result. -/
theorem eq_commit_of_step {s t : State} (hbusy : s.busy = true) (hnil : s.inputs = []) (hstep : step s = .next t)
    (hidle : t.busy = false) : t = commit (latchedResult s) s := by
  rw [step_of_nil hnil] at hstep
  rcases engineTurn_cases s with ⟨hnot, -⟩ | ⟨-, -, -, he⟩ | ⟨-, -, he⟩
  · exact absurd hbusy (Bool.eq_false_iff.mp hnot)
  · rw [he] at hstep
    injection hstep with hst
    exact absurd (hst ▸ hbusy) (Bool.eq_false_iff.mp hidle)
  · rw [he] at hstep
    injection hstep with hst
    exact hst.symm

/-- Settles O40: the step is a commit of a result with an error. -/
theorem failureLeavesNoTrace : Obligations.FailureLeavesNoTrace := by
  intro s t hbusy hnil hstep hidle hcode
  obtain rfl := eq_commit_of_step hbusy hnil hstep hidle
  have he : (latchedResult s).err ≠ .none := fun h => hcode ((errNumber_eq_zero _).mpr h)
  have hout := commit_noOutput (latchedResult_out_of_err he) s
  rcases latchedResult_of_err he with ⟨hword, e, hres⟩ | ⟨hword, hkeyw, hzero⟩
  · have hfail := commit_deriveFail e s
    rw [← hres] at hfail
    exact ⟨commit_done _ s, hout, hfail.input, rfl, rfl, rfl, rfl, fun _ => hfail.key, fun hne => absurd hword hne⟩
  · exact ⟨commit_done _ s, hout, commit_sameInput hzero s, rfl, rfl, rfl, rfl, fun h => absurd h hword,
      fun _ => commit_sameKey hkeyw s⟩

/-! ## What commands write -/

/-- Settles O43: a waiting GENKEY changes nothing, and a commit writes what the command's result says. -/
theorem commandsWriteOnlyTheirResults : Obligations.CommandsWriteOnlyTheirResults := by
  intro i s t hexec
  rcases exec_cases hexec with ⟨-, -, rfl⟩ | rfl
  · exact ⟨fun _ => ⟨rfl, fun _ => rfl⟩, fun _ _ => ⟨rfl, fun _ => rfl⟩, rfl, rfl, rfl, rfl⟩
  · exact ⟨fun hclear => commit_sameInput (commandResult_zeroIbuf_false hclear s) s,
      fun hderive hclear => commit_sameKey (commandResult_keyw_none hderive hclear s) s, rfl, rfl, rfl, rfl⟩

/-! ## What commands read -/

/-- ENCRYPT reads the capacity, the two lengths and the operand bytes alone (R230). -/
theorem encryptResult_congr {s s' : State} (hcfg : s'.cfg = s.cfg) (hinLen : s'.inLen = s.inLen)
    (hkeyLen : s'.keyLen = s.keyLen) (hin : inputOperand s' = inputOperand s) (hkey : keyOperand s' = keyOperand s) :
    encryptResult s' = encryptResult s := by
  rw [encryptResult, encryptResult, hcfg, hinLen, hkeyLen, hin, hkey]

/-- DECRYPT reads the capacity, the two lengths and the operand bytes alone (R230). -/
theorem decryptResult_congr {s s' : State} (hcfg : s'.cfg = s.cfg) (hinLen : s'.inLen = s.inLen)
    (hkeyLen : s'.keyLen = s.keyLen) (hin : inputOperand s' = inputOperand s) (hkey : keyOperand s' = keyOperand s) :
    decryptResult s' = decryptResult s := by
  rw [decryptResult, decryptResult, hcfg, hinLen, hkeyLen, hin, hkey]

/-- One result committed to two states of one capacity shows the same error and the same output. -/
theorem commit_shows_result {s s' : State} (hcfg : s'.cfg = s.cfg) (r : Result) :
    (commit r s').errCode = (commit r s).errCode ∧ (commit r s').outLen = (commit r s).outLen
    ∧ ∀ a, (commit r s').obuf.read a = (commit r s).obuf.read a :=
  ⟨rfl, rfl, fun a => by rw [commit_obuf, commit_obuf, hcfg]⟩

/-- Settles O42: the two states give one result, and DERIVE's result fixes the whole key. -/
theorem commandsReadOnlyTheirOperands : Obligations.CommandsReadOnlyTheirOperands := by
  intro i s s' t t' hi hcfg hinLen hkeyLen hibuf hbank hexec hexec'
  have hin : inputOperand s' = inputOperand s := by
    rw [inputOperand_eq, inputOperand_eq, hinLen]
    exact bytesOf_congr hibuf
  have hkey : keyOperand s' = keyOperand s := by
    rw [keyOperand_eq, keyOperand_eq, hkeyLen]
    exact bytesOf_congr hbank
  have hready : ∀ u : State, i = .genkey → 32 ≤ u.scratch.drawn.length := by
    rintro u rfl
    exact absurd hi (by decide)
  obtain rfl := eq_commit_of_exec hexec (hready s)
  obtain rfl := eq_commit_of_exec hexec' (hready s')
  have hresult : commandResult i s' = commandResult i s := by
    rcases hi with rfl | rfl | rfl
    · exact deriveResult_congr hcfg hinLen fun a ha => by rw [hibuf a ha]
    · exact encryptResult_congr hcfg hinLen hkeyLen hin hkey
    · exact decryptResult_congr hcfg hinLen hkeyLen hin hkey
  rw [hresult]
  obtain ⟨herr, houtLen, hobuf⟩ := commit_shows_result hcfg (commandResult i s)
  refine ⟨herr, houtLen, hobuf, ?_⟩
  rintro rfl
  obtain ⟨k, l, hkeyw, hk⟩ := deriveResult_keyw s
  have hbank := commit_keyIs hkeyw hk s
  have hbank' := commit_keyIs hkeyw hk s'
  exact ⟨hbank'.keyLen.trans hbank.keyLen.symm, fun a => (hbank'.key a).trans (hbank.key a).symm⟩

/-! ## The first command after reset -/

/-- Settles O41: `IN_LEN` and `KEY_LEN` are 0, so the text is blank and no key length is legal. -/
theorem firstCommandAfterReset : Obligations.FirstCommandAfterReset := by
  intro c r ci ck ⟨_, hcap, _⟩ hr s
  have hkey : ¬s.KeyLenOk := by simp [s, State.KeyLenOk]
  refine ⟨?_, ?_, ?_, ?_, ⟨_, exec_clear_eq ci ck s, rfl⟩, fun w hres => ?_⟩
  · have hblank : deriveResult s = deriveFail .emptyKey :=
      (deriveResult_of_fits (Nat.zero_le _)).trans (deriveText_of_blank nofun)
    exact ⟨_, exec_derive_eq s, by rw [hblank]; rfl⟩
  · have hmismatch : encryptResult s = failResult .keyLengthMismatch :=
      encryptResult_of_not_keyLenOk (show 0 < c.bufBytes by omega) hkey
    exact ⟨_, exec_encrypt_eq s, by rw [hmismatch]; rfl⟩
  · have hmismatch : decryptResult s = failResult .keyLengthMismatch :=
      decryptResult_of_not_keyLenOk (Nat.zero_le _) hkey
    exact ⟨_, exec_decrypt_eq s, by rw [hmismatch]; rfl⟩
  · exact ⟨_, exec_genkey_of_drawn hr, rfl⟩
  · exact ⟨_, step_reserved (s := startStep w s) (.inl rfl) rfl hres, rfl⟩

end Sys2Proof.Machine
end

-- The interrupt: which completions raise it, and what drops, raises and masks it (10_state.md section 7, 60_exceptions.md).
section
/-! SUPPORT. `irq` by its conditions, after a commit and after the writes that bear on it, and the proofs of the statements
about it. -/

namespace Sys2Proof.Machine

theorem errf_iff (s : State) : errf s = true ↔ s.errCode ≠ 0 := bne_iff_ne

/-- `irq` by its conditions (R41). -/
theorem irq_iff (s : State) :
    irq s = true ↔ s.done = true ∧ (s.ieDone = true ∨ (s.ieErr = true ∧ s.errCode ≠ 0)) := by
  rw [irq, Bool.and_eq_true, Bool.or_eq_true, Bool.and_eq_true, errf_iff]

/-- With both enables clear `irq` is masked (R260). -/
theorem irq_of_masked {s : State} (hdone : s.ieDone = false) (herr : s.ieErr = false) : irq s = false := by
  simp [irq, hdone, herr]

/-- Settles O54: a commit sets `DONE` and keeps the enables. -/
theorem completionRaisesInterrupt : Obligations.CompletionRaisesInterrupt := by
  intro i s t hexec hready
  obtain rfl := eq_commit_of_exec hexec hready
  have hirq := irq_iff (commit (commandResult i s) s)
  rw [commit_done, commit_ieDone, commit_ieErr] at hirq
  refine ⟨fun hdone => ?_, fun hdone herr => ?_,
    irq_of_masked (s := commit (commandResult i s) s)⟩
  · exact hirq.mpr ⟨rfl, .inl hdone⟩
  · rw [hirq, hdone, herr]
    simp

/-- Settles O55: the condition, and the writes to STATUS, CMD and IEN, each by what it leaves in `DONE` and the enables. -/
theorem interruptFollowsDoneAndEnables : Obligations.InterruptFollowsDoneAndEnables := by
  intro s v
  refine ⟨irq_iff s, fun hbit => ?_, fun hidle => ?_, fun hdone hbit => ?_, fun hbit0 hbit1 => ?_⟩
  · rw [busWrite_status]
    exact irq_of_not_done (by rw [writeStatus_done, hbit, Bool.not_true, Bool.and_false])
  · rw [busWrite_cmd_of_idle hidle]
    exact irq_of_not_done rfl
  · rw [busWrite_ien]
    exact (irq_iff _).mpr ⟨hdone, .inl hbit⟩
  · rw [busWrite_ien]
    exact ⟨irq_of_masked hbit0 hbit1, rfl⟩

end Sys2Proof.Machine
end
